-- ==== Sys2Proof/Word.lean ====
section
/-! DEFINITION. The words of the engine (a byte, a 32-bit control register, a 256-bit field register) and the plain
containers the spec builds larger values from: a degree-2 extension element, the six coefficients of an `Fq12` element,
a triple for the Poseidon state, and a curve point that is either infinity or an affine pair. -/

namespace Sys2Proof

/-- One byte of BUF (10_state.md R29). -/
abbrev Byte := BitVec 8

/-- A control register, or a command word (10_state.md R30, 30_encoding.md R90). -/
abbrev Reg32 := BitVec 32

/-- A field register: 256 bits with no tag (10_state.md R20). -/
abbrev Word := BitVec 256

/-- The field a command computes in, its `fs` bit: 0 is the base field, 1 the scalar field (30_encoding.md R92). -/
inductive FieldSel where
  | base
  | scalar
deriving DecidableEq, Repr

/-- An element `re + im*u` of the quadratic extension, real half first (00_scope.md R14). The type of a half is a
parameter: a natural number where the rules compute, a `Word` where a register stores a Montgomery form. -/
structure Ext2 (α : Type) where
  re : α
  im : α
deriving DecidableEq, Repr, Inhabited

/-- The six coefficients `c[0] .. c[5]` of an element `sum c[i]*w^i` of `Fq12` (00_scope.md R14). -/
structure Poly6 (α : Type) where
  c0 : α
  c1 : α
  c2 : α
  c3 : α
  c4 : α
  c5 : α
deriving DecidableEq, Repr, Inhabited

/-- Three elements: a Poseidon state, or one row of its matrix (43_poseidon.md R180). -/
structure Vec3 (α : Type) where
  x0 : α
  x1 : α
  x2 : α
deriving DecidableEq, Repr, Inhabited

/-- A point: infinity, or an affine pair (10_state.md R21 to R23). R22 says that no bit pattern with `inf = 1` occurs but
the one with every coordinate zero, so `inf` carries no coordinates. -/
inductive Pt (α : Type) where
  | inf
  | aff (x y : α)
deriving DecidableEq, Repr

end Sys2Proof
end

