-- ==== Sys2Proof/Syntax.lean ====
section
/-! DEFINITION. The 35 commands of 30_encoding.md R95, one constructor each, with the operands the row's column names:
an `f` register is `Fin 16`, a `g` register `Fin 8`, an `h` register `Fin 4` (R94), `addr` has 15 bits, `n` 8 and
`sel` 5 (R93). Operands stand in the order of the assembler (R99): destination, sources, address. -/

namespace Sys2Proof

/-- A command of the engine, the spec's "instruction" (00_scope.md R11, R15). -/
inductive Instr where
  | nop
  | fadd (fs : FieldSel) (rd ra rb : Fin 16)
  | fsub (fs : FieldSel) (rd ra rb : Fin 16)
  | fneg (fs : FieldSel) (rd ra : Fin 16)
  | fmul (fs : FieldSel) (rd ra rb : Fin 16)
  | fsqr (fs : FieldSel) (rd ra : Fin 16)
  | finv (fs : FieldSel) (rd ra : Fin 16)
  | fpow (fs : FieldSel) (rd ra rb : Fin 16)
  | fisz (fs : FieldSel) (ra : Fin 16)
  | feq (fs : FieldSel) (ra rb : Fin 16)
  | ldf (fs : FieldSel) (rt : Fin 16) (addr : BitVec 15)
  | stf (fs : FieldSel) (rt : Fin 16) (addr : BitVec 15)
  | ldraw (rt : Fin 16) (addr : BitVec 15)
  | straw (rt : Fin 16) (addr : BitVec 15)
  | ldg1 (rt : Fin 8) (addr : BitVec 15)
  | stg1 (rt : Fin 8) (addr : BitVec 15)
  | ldg2 (rt : Fin 4) (addr : BitVec 15)
  | stg2 (rt : Fin 4) (addr : BitVec 15)
  | g1add (rd ra rb : Fin 8)
  | g2add (rd ra rb : Fin 4)
  | g1smul (rd ra : Fin 8) (rb : Fin 16)
  | g2smul (rd ra : Fin 4) (rb : Fin 16)
  | g1onc (addr : BitVec 15)
  | g1subg (addr : BitVec 15)
  | g2onc (addr : BitVec 15)
  | g2subg (addr : BitVec 15)
  | accone
  | miller (ra : Fin 8) (rb : Fin 4)
  | fexp
  | pperm (rd ra : Fin 16)
  | phash (rd ra rb : Fin 16)
  | vkload (addr : BitVec 15)
  | vkclr
  | verify (n : BitVec 8) (addr : BitVec 15)
  | wipe (sel : BitVec 5)
deriving DecidableEq, Repr

end Sys2Proof
end

