-- ==== Sys2Proof/WellFormed.lean ====
section
/-! DEFINITION. Which terms of `Instr` are commands. The index ranges of 30_encoding.md R94 are in the operand types,
but for PPERM's: it uses three consecutive registers, so its two indices are at most 13. -/

namespace Sys2Proof

/-- An index from which three consecutive `f` registers start (30_encoding.md R94). -/
abbrev startsTriple (i : Fin 16) : Bool := decide (i.val ≤ 13)

/-- The check on a term (30_encoding.md R94, R96): only PPERM has one that its operand types leave open. -/
def Instr.wellFormed : Instr → Bool
  | .pperm rd ra => startsTriple rd && startsTriple ra
  | .nop => true
  | .fadd _ _ _ _ => true
  | .fsub _ _ _ _ => true
  | .fneg _ _ _ => true
  | .fmul _ _ _ _ => true
  | .fsqr _ _ _ => true
  | .finv _ _ _ => true
  | .fpow _ _ _ _ => true
  | .fisz _ _ => true
  | .feq _ _ _ => true
  | .ldf _ _ _ => true
  | .stf _ _ _ => true
  | .ldraw _ _ => true
  | .straw _ _ => true
  | .ldg1 _ _ => true
  | .stg1 _ _ => true
  | .ldg2 _ _ => true
  | .stg2 _ _ => true
  | .g1add _ _ _ => true
  | .g2add _ _ _ => true
  | .g1smul _ _ _ => true
  | .g2smul _ _ _ => true
  | .g1onc _ => true
  | .g1subg _ => true
  | .g2onc _ => true
  | .g2subg _ => true
  | .accone => true
  | .miller _ _ => true
  | .fexp => true
  | .phash _ _ _ => true
  | .vkload _ => true
  | .vkclr => true
  | .verify _ _ => true
  | .wipe _ => true

end Sys2Proof
end

