-- ==== Sys2Proof/Decode.lean ====
section
/-! DEFINITION. The command word: its fields, the decoder, and the encoder, both written from the formats of
30_encoding.md R91 and the table of R95. -/

namespace Sys2Proof

/-- `w[hi:lo]`, the unsigned integer made of bits `hi` down to `lo` (00_scope.md R12). -/
def bits (w : Reg32) (hi lo : Nat) : Nat := w.toNat / 2 ^ lo % 2 ^ (hi + 1 - lo)

/-- Why a word is illegal (30_encoding.md R96, R97 steps 1 and 2). All three complete as `IllegalCommand`. -/
inductive DecodeError where
  /-- the opcode is not one of the 35 -/
  | unknownOpcode
  /-- a field that must be zero is not -/
  | mustBeZero
  /-- a register index is outside its file, or leaves no room for PPERM's three registers -/
  | indexOutOfRange
deriving DecidableEq, Repr

/-- A field of the word that must be zero. -/
def mbz (w : Reg32) (hi lo : Nat) : Except DecodeError Unit :=
  if bits w hi lo = 0 then .ok () else .error .mustBeZero

/-- A register field, whose lowest bit is `lo`, as an index into a file of `n` registers (R94). -/
def regField (n : Nat) (w : Reg32) (lo : Nat) : Except DecodeError (Fin n) :=
  if h : bits w (lo + 4) lo < n then .ok ⟨bits w (lo + 4) lo, h⟩ else .error .indexOutOfRange

/-- The field `fs`, bit 23 (R92). -/
def fsField (w : Reg32) : FieldSel := if bits w 23 23 = 0 then .base else .scalar

/-- The field `addr`, bits 14:0 (R93). -/
def addrField (w : Reg32) : BitVec 15 := BitVec.ofNat 15 (bits w 14 0)

/-- Format R of a command that computes in the field `fs` (R91): bits 22:20 and 4:0 are zero. -/
def decodeFieldR (w : Reg32) (rest : FieldSel → Except DecodeError Instr) : Except DecodeError Instr := do
  mbz w 22 20
  mbz w 4 0
  rest (fsField w)

/-- Format R of a command without `fs`: bit 23 is zero too (R92). -/
def decodeR (w : Reg32) (rest : Except DecodeError Instr) : Except DecodeError Instr := do
  mbz w 23 20
  mbz w 4 0
  rest

/-- Format R with `fs`, `rd`, `ra` and `rb` in the `f` file. -/
def decodeF3 (w : Reg32) (mk : FieldSel → Fin 16 → Fin 16 → Fin 16 → Instr) : Except DecodeError Instr :=
  decodeFieldR w fun fs => do
    let rd ← regField 16 w 15
    let ra ← regField 16 w 10
    let rb ← regField 16 w 5
    return mk fs rd ra rb

/-- Format R with `fs`, `rd` and `ra` in the `f` file; `rb` is zero. -/
def decodeF2 (w : Reg32) (mk : FieldSel → Fin 16 → Fin 16 → Instr) : Except DecodeError Instr :=
  decodeFieldR w fun fs => do
    mbz w 9 5
    let rd ← regField 16 w 15
    let ra ← regField 16 w 10
    return mk fs rd ra

/-- Format R over three registers of files of `nd`, `na` and `nb` registers, without `fs`. -/
def decodeR3 (w : Reg32) (nd na nb : Nat) (mk : Fin nd → Fin na → Fin nb → Instr) : Except DecodeError Instr :=
  decodeR w do
    let rd ← regField nd w 15
    let ra ← regField na w 10
    let rb ← regField nb w 5
    return mk rd ra rb

/-- Format M with `fs` and `rt` in the `f` file (R91): bits 22:20 are zero. -/
def decodeFieldM (w : Reg32) (mk : FieldSel → Fin 16 → BitVec 15 → Instr) : Except DecodeError Instr := do
  mbz w 22 20
  let rt ← regField 16 w 15
  return mk (fsField w) rt (addrField w)

/-- Format M without `fs`, `rt` in a file of `n` registers: bits 23:20 are zero. -/
def decodeM (w : Reg32) (n : Nat) (mk : Fin n → BitVec 15 → Instr) : Except DecodeError Instr := do
  mbz w 23 20
  let rt ← regField n w 15
  return mk rt (addrField w)

/-- Format M with `addr` alone: bits 23:15 are zero. -/
def decodeAddr (w : Reg32) (mk : BitVec 15 → Instr) : Except DecodeError Instr := do
  mbz w 23 15
  return mk (addrField w)

/-- Format S of a command without a selector: bits 23:0 are zero. -/
def decodeNone (w : Reg32) (i : Instr) : Except DecodeError Instr := do
  mbz w 23 0
  return i

/-- The field commands, opcodes 0x10 to 0x18 (R95). -/
def decodeField (w : Reg32) (op : Nat) : Except DecodeError Instr :=
  if op = 0x10 then decodeF3 w .fadd
  else if op = 0x11 then decodeF3 w .fsub
  else if op = 0x12 then decodeF2 w .fneg
  else if op = 0x13 then decodeF3 w .fmul
  else if op = 0x14 then decodeF2 w .fsqr
  else if op = 0x15 then decodeF2 w .finv
  else if op = 0x16 then decodeF3 w .fpow
  else if op = 0x17 then
    decodeFieldR w fun fs => do
      mbz w 19 15
      mbz w 9 5
      let ra ← regField 16 w 10
      return .fisz fs ra
  else if op = 0x18 then
    decodeFieldR w fun fs => do
      mbz w 19 15
      let ra ← regField 16 w 10
      let rb ← regField 16 w 5
      return .feq fs ra rb
  else .error .unknownOpcode

/-- The move commands, opcodes 0x20 to 0x27. -/
def decodeMove (w : Reg32) (op : Nat) : Except DecodeError Instr :=
  if op = 0x20 then decodeFieldM w .ldf
  else if op = 0x21 then decodeFieldM w .stf
  else if op = 0x22 then decodeM w 16 .ldraw
  else if op = 0x23 then decodeM w 16 .straw
  else if op = 0x24 then decodeM w 8 .ldg1
  else if op = 0x25 then decodeM w 8 .stg1
  else if op = 0x26 then decodeM w 4 .ldg2
  else if op = 0x27 then decodeM w 4 .stg2
  else .error .unknownOpcode

/-- The curve commands, opcodes 0x30 to 0x37. -/
def decodeCurve (w : Reg32) (op : Nat) : Except DecodeError Instr :=
  if op = 0x30 then decodeR3 w 8 8 8 .g1add
  else if op = 0x31 then decodeR3 w 4 4 4 .g2add
  else if op = 0x32 then decodeR3 w 8 8 16 .g1smul
  else if op = 0x33 then decodeR3 w 4 4 16 .g2smul
  else if op = 0x34 then decodeAddr w .g1onc
  else if op = 0x35 then decodeAddr w .g1subg
  else if op = 0x36 then decodeAddr w .g2onc
  else if op = 0x37 then decodeAddr w .g2subg
  else .error .unknownOpcode

/-- The pairing commands, opcodes 0x40 to 0x42, and the Poseidon commands, 0x50 and 0x51. -/
def decodePairingPoseidon (w : Reg32) (op : Nat) : Except DecodeError Instr :=
  if op = 0x40 then decodeNone w .accone
  else if op = 0x41 then
    decodeR w do
      mbz w 19 15
      let ra ← regField 8 w 10
      let rb ← regField 4 w 5
      return .miller ra rb
  else if op = 0x42 then decodeNone w .fexp
  else if op = 0x50 then
    decodeR w do
      mbz w 9 5
      let rd ← regField 16 w 15
      let ra ← regField 16 w 10
      if startsTriple rd && startsTriple ra then return .pperm rd ra else throw .indexOutOfRange
  else if op = 0x51 then decodeR3 w 16 16 16 .phash
  else .error .unknownOpcode

/-- The Groth16 commands, opcodes 0x60 to 0x62, and WIPE, 0x70. -/
def decodeGrothSystem (w : Reg32) (op : Nat) : Except DecodeError Instr :=
  if op = 0x60 then decodeAddr w .vkload
  else if op = 0x61 then decodeNone w .vkclr
  else if op = 0x62 then do
    mbz w 15 15
    return .verify (BitVec.ofNat 8 (bits w 23 16)) (addrField w)
  else if op = 0x70 then do
    mbz w 23 5
    return .wipe (BitVec.ofNat 5 (bits w 4 0))
  else .error .unknownOpcode

/-- The decoder: total on 32-bit words, in the order of R97 (opcode, then the fields), with the table of R95. -/
def decode (w : Reg32) : Except DecodeError Instr :=
  let op := bits w 31 24
  if op = 0x00 then decodeNone w .nop
  else if op < 0x20 then decodeField w op
  else if op < 0x30 then decodeMove w op
  else if op < 0x40 then decodeCurve w op
  else if op < 0x60 then decodePairingPoseidon w op
  else decodeGrothSystem w op

/-! The encoder: each format places its fields at the bits R91 gives them; a field a command does not use is zero. -/

/-- The bit `fs` (R92). -/
def fsBit : FieldSel → Nat
  | .base => 0
  | .scalar => 1

/-- Format R: `op` at 31:24, `fs` at 23, `rd` at 19:15, `ra` at 14:10, `rb` at 9:5 (R91). -/
def encodeR (op fs rd ra rb : Nat) : Reg32 :=
  BitVec.ofNat 32 (op * 2 ^ 24 + fs * 2 ^ 23 + rd * 2 ^ 15 + ra * 2 ^ 10 + rb * 2 ^ 5)

/-- Format M: `op` at 31:24, `fs` at 23, `rt` at 19:15, `addr` at 14:0 (R91). -/
def encodeM (op fs rt addr : Nat) : Reg32 :=
  BitVec.ofNat 32 (op * 2 ^ 24 + fs * 2 ^ 23 + rt * 2 ^ 15 + addr)

/-- Format V: `op` at 31:24, `n` at 23:16, `addr` at 14:0 (R91). -/
def encodeV (op n addr : Nat) : Reg32 := BitVec.ofNat 32 (op * 2 ^ 24 + n * 2 ^ 16 + addr)

/-- Format S: `op` at 31:24, `sel` at 4:0 (R91). -/
def encodeS (op sel : Nat) : Reg32 := BitVec.ofNat 32 (op * 2 ^ 24 + sel)

/-- The opcode of each command (R95). -/
def Instr.opcode : Instr → Nat
  | .nop => 0x00
  | .fadd _ _ _ _ => 0x10
  | .fsub _ _ _ _ => 0x11
  | .fneg _ _ _ => 0x12
  | .fmul _ _ _ _ => 0x13
  | .fsqr _ _ _ => 0x14
  | .finv _ _ _ => 0x15
  | .fpow _ _ _ _ => 0x16
  | .fisz _ _ => 0x17
  | .feq _ _ _ => 0x18
  | .ldf _ _ _ => 0x20
  | .stf _ _ _ => 0x21
  | .ldraw _ _ => 0x22
  | .straw _ _ => 0x23
  | .ldg1 _ _ => 0x24
  | .stg1 _ _ => 0x25
  | .ldg2 _ _ => 0x26
  | .stg2 _ _ => 0x27
  | .g1add _ _ _ => 0x30
  | .g2add _ _ _ => 0x31
  | .g1smul _ _ _ => 0x32
  | .g2smul _ _ _ => 0x33
  | .g1onc _ => 0x34
  | .g1subg _ => 0x35
  | .g2onc _ => 0x36
  | .g2subg _ => 0x37
  | .accone => 0x40
  | .miller _ _ => 0x41
  | .fexp => 0x42
  | .pperm _ _ => 0x50
  | .phash _ _ _ => 0x51
  | .vkload _ => 0x60
  | .vkclr => 0x61
  | .verify _ _ => 0x62
  | .wipe _ => 0x70

/-- The word of a command (R91, R95). -/
def encode (i : Instr) : Reg32 :=
  match i with
  | .nop => encodeS i.opcode 0
  | .fadd fs rd ra rb => encodeR i.opcode (fsBit fs) rd ra rb
  | .fsub fs rd ra rb => encodeR i.opcode (fsBit fs) rd ra rb
  | .fneg fs rd ra => encodeR i.opcode (fsBit fs) rd ra 0
  | .fmul fs rd ra rb => encodeR i.opcode (fsBit fs) rd ra rb
  | .fsqr fs rd ra => encodeR i.opcode (fsBit fs) rd ra 0
  | .finv fs rd ra => encodeR i.opcode (fsBit fs) rd ra 0
  | .fpow fs rd ra rb => encodeR i.opcode (fsBit fs) rd ra rb
  | .fisz fs ra => encodeR i.opcode (fsBit fs) 0 ra 0
  | .feq fs ra rb => encodeR i.opcode (fsBit fs) 0 ra rb
  | .ldf fs rt addr => encodeM i.opcode (fsBit fs) rt addr.toNat
  | .stf fs rt addr => encodeM i.opcode (fsBit fs) rt addr.toNat
  | .ldraw rt addr => encodeM i.opcode 0 rt addr.toNat
  | .straw rt addr => encodeM i.opcode 0 rt addr.toNat
  | .ldg1 rt addr => encodeM i.opcode 0 rt addr.toNat
  | .stg1 rt addr => encodeM i.opcode 0 rt addr.toNat
  | .ldg2 rt addr => encodeM i.opcode 0 rt addr.toNat
  | .stg2 rt addr => encodeM i.opcode 0 rt addr.toNat
  | .g1add rd ra rb => encodeR i.opcode 0 rd ra rb
  | .g2add rd ra rb => encodeR i.opcode 0 rd ra rb
  | .g1smul rd ra rb => encodeR i.opcode 0 rd ra rb
  | .g2smul rd ra rb => encodeR i.opcode 0 rd ra rb
  | .g1onc addr => encodeM i.opcode 0 0 addr.toNat
  | .g1subg addr => encodeM i.opcode 0 0 addr.toNat
  | .g2onc addr => encodeM i.opcode 0 0 addr.toNat
  | .g2subg addr => encodeM i.opcode 0 0 addr.toNat
  | .accone => encodeS i.opcode 0
  | .miller ra rb => encodeR i.opcode 0 0 ra rb
  | .fexp => encodeS i.opcode 0
  | .pperm rd ra => encodeR i.opcode 0 rd ra 0
  | .phash rd ra rb => encodeR i.opcode 0 rd ra rb
  | .vkload addr => encodeM i.opcode 0 0 addr.toNat
  | .vkclr => encodeS i.opcode 0
  | .verify n addr => encodeV i.opcode n.toNat addr.toNat
  | .wipe sel => encodeS i.opcode sel.toNat

/-- The decoder's answer on a table word: one 32-bit word, bit 0 the least significant (R12, R90). -/
def decodeTableWord (nbits w : Nat) : Option Instr :=
  match decode (BitVec.ofNat 32 (w % 2 ^ nbits)) with
  | .ok i => some i
  | .error _ => none

end Sys2Proof
end

