-- ==== Sys2Proof/Config.lean ====
section
/-! DEFINITION. What an implementation fixes: the BN254 constants, held as named values (decision D36), the sizes and the
wire order the spec leaves OPEN with a default (00_scope.md R8), and, as free values, the bus address `BASE` (R8) and the
Poseidon record `POS`, of which the spec gives the shape and no value (R9). -/

namespace Sys2Proof

namespace Config

/-- The base field order `q` (00_scope.md R7). -/
def q : Nat := 0x30644E72E131A029B85045B68181585D97816A916871CA8D3C208C16D87CFD47

/-- The scalar field order `r` (00_scope.md R7). -/
def r : Nat := 0x30644E72E131A029B85045B68181585D2833E84879B9709143E1F593F0000001

/-- The Montgomery radix `R = 2^256` (00_scope.md R8, 40_field.md R121). -/
def radix : Nat := 2 ^ 256

/-- `R^-1 mod q` (95_test_vectors.md section 2.1). -/
def rInvQ : Nat := 0x2E67157159E5C639CF63E9CFB74492D9EB2022850278EDF8ED84884A014AFA37

/-- `R^-1 mod r` (95_test_vectors.md section 2.1). -/
def rInvR : Nat := 0x15EBF95182C5551CC8260DE4AEB85D5D090EF5A9E111EC87DC5BA0056DB1194E

/-- The constant 3 of the G1 equation `y^2 = x^3 + 3` (42_curve.md R160). -/
def b1 : Nat := 3

/-- The constant `B2 = 3/(9 + u)` of the twist equation (42_curve.md R161). -/
def b2 : Ext2 Nat :=
  ⟨19485874751759354771024239261021720505790618469301721065564631296452457478373,
   266929791119991161246907387137283842545076965332900288569378510910307636690⟩

/-- `xi = 9 + u`, the value of `w^6` (00_scope.md R14). -/
def xi : Ext2 Nat := ⟨9, 1⟩

/-- `G12 = xi^((q-1)/3)` (44_pairing.md R191). -/
def g12 : Ext2 Nat :=
  ⟨21575463638280843010398324269430826099269044274347216827212613867836435027261,
   10307601595873709700152284273816112264069230130616436755625194854815875713954⟩

/-- `G13 = xi^((q-1)/2)` (44_pairing.md R191). -/
def g13 : Ext2 Nat :=
  ⟨2821565182194536844548159561693502659359617185244120367078079554186484126554,
   3505843767911556378687030309984248845540243509899259641013678093033130930403⟩

/-- `G22 = xi^((q^2-1)/3)` (44_pairing.md R191). -/
def g22 : Ext2 Nat :=
  ⟨21888242871839275220042445260109153167277707414472061641714758635765020556616, 0⟩

/-- `G23 = xi^((q^2-1)/2)`, that is -1 (44_pairing.md R191). -/
def g23 : Ext2 Nat :=
  ⟨21888242871839275222246405745257275088696311157297823662689037894645226208582, 0⟩

/-- The Miller loop count `6x + 2` (44_pairing.md R193). -/
def loopCount : Nat := 0x19D797039BE763BA8

/-- The final exponent `E = (q^12 - 1)/r` (44_pairing.md R194), one number cut into the lines the rule prints. -/
def finalExponent : Nat :=
  0x2F4B6DC97020FDDADF107D20BC842D43BF6369B1FF6A1C71015F3F7BE2E1E30A73BB94FEC0DAF15466B2383A5D3EC3D15AD524D8F70C54EFEE1BD8C3B21377E563A09A1B705887E72ECEADDEA3790364A61F676BAAF977870E88D5C6C8FEF0781361E443AE77F5B63A2A2264487F2940A8B1DDB3D15062CD0FB2015DFC6668449AED3CC48A82D0D602D268C7DAAB6A41294C0CC4EBE5664568DFC50E1648A45A4A1E3A5195846A3ED011A337A02088EC80E0EBAE8755CFE107ACF3AAFB40494E406F804216BB10CF430B0F37856B42DB8DC5514724EE93DFB10826F0DD4A0364B9580291D2CD65664814FDE37CA80BB4EA44EACC5E641BBADF423F9A2CBF813B8D145DA90029BAEE7DDADDA71C7F3811C4105262945BBA1668C3BE69A3C230974D83561841D766F9C9D570BB7FBE04C7E8A6C3C760C0DE81DEF35692DA361102B6B9B2B918837FA97896E84ABB40A4EFB7E54523A486964B64CA86F120

/-- The identification value (10_state.md R33). -/
def idValue : Reg32 := 0x4B4D0100#32

/- The open numbers behind `POS` (assumption 1). None has a body, so nothing in Lean can know their values. -/

/-- The S-box exponent less one, so that the exponent is positive. -/
opaque posAlphaPred : Nat

/-- Half the number of full rounds, so that the number is even. -/
opaque posHalfFull : Nat

/-- The number of partial rounds. -/
opaque posPartial : Nat

/-- The round constants in the order they are consumed, before reduction below `r`. -/
opaque posConstant : Nat → Nat

/-- The matrix entries, row then column, before reduction below `r`. -/
opaque posMatrix : Nat → Nat → Nat

/-- The line through `T` and `S`, at the affine `P = (x, y)`, where `T` or `S` is infinity: 44_pairing.md R192 gives the
line of finite points only (assumption 7). -/
opaque freeLine (T S : Pt (Ext2 Nat)) (x y : Nat) : Poly6 (Ext2 Nat)

/-- Which 64 KiB window of the bus the platform gives the engine: `BASE` is a multiple of 65536 (20_memory.md R61), and the
spec gives no more of it (assumption 24). -/
opaque busWindow : Nat

end Config

/-- The order of the halves of a G2 coordinate on the wire, `G2_WIRE_ORDER` (41_move.md R149): imaginary half first or
real half first. -/
inductive WireOrder where
  | c1First
  | c0First
deriving DecidableEq, Repr

/-- The Poseidon parameter record `POS` (00_scope.md R9): S-box exponent, numbers of full and of partial rounds, round
constants in the order they are consumed, and the matrix by rows. -/
structure Pos where
  alpha : Nat
  rf    : Nat
  rp    : Nat
  rc    : List Nat
  mds   : Vec3 (Vec3 Nat)
deriving DecidableEq, Repr

/-- The shape R9 gives `POS`: a positive exponent, an even number of full rounds, one constant below `r` for each
element of each round, and matrix entries below `r`. -/
abbrev Pos.Wf (p : Pos) : Prop :=
  0 < p.alpha ∧ p.rf % 2 = 0 ∧ p.rc.length = 3 * (p.rf + p.rp) ∧ (∀ c ∈ p.rc, c < Config.r) ∧
  (p.mds.x0.x0 < Config.r ∧ p.mds.x0.x1 < Config.r ∧ p.mds.x0.x2 < Config.r) ∧
  (p.mds.x1.x0 < Config.r ∧ p.mds.x1.x1 < Config.r ∧ p.mds.x1.x2 < Config.r) ∧
  (p.mds.x2.x0 < Config.r ∧ p.mds.x2.x1 < Config.r ∧ p.mds.x2.x2 < Config.r)

/-- The parameters one engine is built with (00_scope.md R8, R9): the size of BUF, the capacity of the key store's `IC`
list, the G2 wire order, `BASE`, and `POS`. They are fixed for an engine; no step changes them. -/
structure Params where
  bufBytes  : Nat
  icMax     : Nat
  wireOrder : WireOrder
  base      : Nat
  pos       : Pos
deriving DecidableEq, Repr

/-- The ranges R8 gives the open sizes, the alignment 20_memory.md R61 gives `BASE`, and the shape of `POS`. -/
abbrev Params.Wf (p : Params) : Prop :=
  p.bufBytes % 32 = 0 ∧ 1024 ≤ p.bufBytes ∧ p.bufBytes ≤ 32768 ∧
  3 ≤ p.icMax ∧ 452 + 64 * p.icMax ≤ p.bufBytes ∧ p.base % 65536 = 0 ∧ p.pos.Wf

namespace Config

/-- Row `i` of the open matrix, each entry brought below `r`. -/
def posRow (i : Nat) : Vec3 Nat := ⟨posMatrix i 0 % r, posMatrix i 1 % r, posMatrix i 2 % r⟩

/-- The open record `POS`: every record of the shape `Pos.Wf` is a possible value of it (assumption 1). -/
def pos : Pos :=
  { alpha := posAlphaPred + 1
    rf := 2 * posHalfFull
    rp := posPartial
    rc := (List.range (3 * (2 * posHalfFull + posPartial))).map fun k => posConstant k % r
    mds := ⟨posRow 0, posRow 1, posRow 2⟩ }

/-- The default parameters of R8, with `BASE` and `POS` open. -/
def params : Params := { bufBytes := 4096, icMax := 8, wireOrder := .c1First, base := 65536 * busWindow, pos := pos }

end Config

end Sys2Proof
end

