-- ==== Sys2Proof/Machine/Arith.lean ====
section
/-! DEFINITION. Exact arithmetic modulo `q` and `r` on natural numbers, Montgomery forms (40_field.md R121, R122), and the
square-and-multiply ladder every power and every scalar multiple is computed with. -/

namespace Sys2Proof.Machine

/-- `P(fs)`: the modulus a command selects (30_encoding.md R92, 00_scope.md R13). -/
def modulus : FieldSel → Nat
  | .base => Config.q
  | .scalar => Config.r

/-- `R^-1` modulo the selected prime (40_field.md R121). -/
def rInv : FieldSel → Nat
  | .base => Config.rInvQ
  | .scalar => Config.rInvR

/-- The sum modulo `p`. -/
def addMod (p a b : Nat) : Nat := (a + b) % p

/-- The difference modulo `p` (40_field.md R124); `b` is brought below `p` first so that no subtraction is cut off at 0. -/
def subMod (p a b : Nat) : Nat := (a + (p - b % p)) % p

/-- The negative modulo `p`: 0 for 0 (40_field.md R125). -/
def negMod (p a : Nat) : Nat := (p - a % p) % p

/-- The product modulo `p`. -/
def mulMod (p a b : Nat) : Nat := a * b % p

/-- `n` steps of square-and-multiply (double-and-add) over the `n` low bits of `k`, the most significant first, from
`unit` (42_curve.md R164, 40_field.md R129). -/
def ladder {α : Type} (op : α → α → α) (unit x : α) : Nat → Nat → α
  | 0, _ => unit
  | n + 1, k =>
    let acc := ladder op unit x n (k / 2)
    let twice := op acc acc
    if k % 2 = 1 then op twice x else twice

/-- `b^e mod p`, by as many steps as `e` has bits. `b^0 = 1` for every `b` (40_field.md R129). -/
def powMod (p b e : Nat) : Nat := ladder (mulMod p) 1 b (e.log2 + 1) e

/-- `x^-1 mod p` for a prime `p` and `x` not 0 modulo `p`, as the power `x^(p-2)` (40_field.md R128); it sends 0 to 0. -/
def invMod (p x : Nat) : Nat := powMod p x (p - 2)

/-- `MontMul_p(a, b) = a * b * R^-1 mod p` (40_field.md R121). -/
def montMul (fs : FieldSel) (a b : Nat) : Nat := a * b * rInv fs % modulus fs

/-- `ToMont_p(v) = v * R mod p` (40_field.md R122). -/
def toMont (fs : FieldSel) (v : Nat) : Nat := v * Config.radix % modulus fs

/-- `FromMont_p(a) = a * R^-1 mod p` (40_field.md R122). -/
def fromMont (fs : FieldSel) (a : Nat) : Nat := a * rInv fs % modulus fs

/-- A natural number below `2^256` as the 256 bits of a register. -/
def wordOf (n : Nat) : Word := BitVec.ofNat 256 n

/-- The word that holds the element of the field `fs` with canonical value `v`. -/
def montWord (fs : FieldSel) (v : Nat) : Word := wordOf (toMont fs v)

/-- The canonical value of the element of the field `fs` that a word holds. -/
def canonWord (fs : FieldSel) (w : Word) : Nat := fromMont fs w.toNat

end Sys2Proof.Machine
end

