-- ==== Sys2Proof/Machine/State.lean ====
section
/-! DEFINITION. Everything the spec gives the machine, as plain data, and its value at reset; with the reasons a step can
stop. INVENTORY.md lists each field with the rule that names it. -/

namespace Sys2Proof.Machine

/-- A G1 point register: infinity, or the Montgomery forms modulo `q` of an affine point's coordinates (10_state.md R21). -/
abbrev G1Reg := Pt Word

/-- A G2 point register: infinity, or an affine twist point, each half of a coordinate in Montgomery form modulo `q`
(10_state.md R23). -/
abbrev G2Reg := Pt (Ext2 Word)

/-- The accumulator: twelve words, the six `Fq2` coefficients in Montgomery form modulo `q` (10_state.md R25). -/
abbrev AccReg := Poly6 (Ext2 Word)

/-- The bytes of BUF that are not zero, by rising address (10_state.md R29). -/
abbrev Memory := List Host.Cell

/-- The verifying-key store `VK` (10_state.md R28). `ic` has one entry for each of `ic[0 .. IC_MAX-1]`. -/
structure KeyStore where
  valid : Bool
  alpha : G1Reg
  beta  : G2Reg
  gamma : G2Reg
  delta : G2Reg
  icn   : Nat
  ic    : List G1Reg
deriving DecidableEq, Repr

/-- The empty store (10_state.md R28): not valid, `icn = 0`, every point `INF`. -/
def KeyStore.empty (icMax : Nat) : KeyStore :=
  { valid := false, alpha := .inf, beta := .inf, gamma := .inf, delta := .inf, icn := 0
    ic := List.replicate icMax .inf }

/-- What `STATUS.ERR` can hold (60_exceptions.md R240); no other value of its eight bits ever occurs. -/
inductive Err where
  | ok
  | outOfRange
  | invalidPoint
  | badInputs
  | vkNotInitialized
  | keyLoadFailed
  | allocationFailed
  | illegalCommand
  | badAddress
deriving DecidableEq, Repr

/-- The width of one bus access (20_memory.md R62, R63). -/
inductive BusWidth where
  | byte
  | half
  | word
  | dword
deriving DecidableEq, Repr

/-- One input of the outside world (00_scope.md R10, R11; 20_memory.md R61 to R63; 70_reset_and_hazards.md R270). `addr`
is a bus address, the window of which begins at `BASE`. `wait` is the host's wait for `BUSY = 0`. -/
inductive HostEvent where
  | read (w : BusWidth) (addr : Nat)
  | write (w : BusWidth) (addr : Nat) (v : BitVec 64)
  | wait
  | reset
deriving DecidableEq, Repr

/-- The state of the machine. Every field but the last two is the spec's; `host`, the inputs still to come (oldest
first), and `readData`, the data of the host's last read, are the model's own (assumptions 2 and 3). -/
structure State where
  f        : Vector Word 16
  g        : Vector G1Reg 8
  h        : Vector G2Reg 4
  acc      : AccReg
  t        : Bool
  vk       : KeyStore
  buf      : Memory
  ie       : Bool
  busy     : Bool
  done     : Bool
  ovr      : Bool
  err      : Err
  cmd      : Reg32
  len      : Reg32
  params   : Params
  host     : List HostEvent
  readData : BitVec 64
deriving DecidableEq, Repr

/-- Why no step is taken. -/
inductive Fault where
  /-- Raised by `step` when the engine is idle (`BUSY = 0`) and no input is left: no step is enabled, which is where a run
  ends (00_scope.md R11, 60_exceptions.md R266; assumption 2). Safe: the hardware does nothing here either. -/
  | idle
deriving DecidableEq, Repr

/-- Why the model gives no meaning. -/
inductive Refusal where
  /-- Raised by an arm of `exec` that has no meaning yet. Safe. No arm raises it. -/
  | notModelled (mnemonic : String)
  /-- Raised by a host access to the control register space that is not an aligned 32-bit one: outside the interface, and
  20_memory.md R62 asks a model to refuse it. Safe. -/
  | controlAccess
  /-- Raised by a host access that begins below `BASE` or runs past the end of the 64 KiB window: the engine fixes
  nothing there (20_memory.md R61), and what answers is not this engine (assumption 13). Safe. -/
  | outsideWindow
  /-- Raised by MILLER and VERIFY when a point they would pair is not in its subgroup: 44_pairing.md R199 and
  93_implementation_defined.md U2 ask a model to refuse, not to compute. No state that keeps 10_state.md R24 raises it.
  Safe. -/
  | pairingOffSubgroup
deriving DecidableEq, Repr

/-- The state after reset of an engine with the parameters `p` (10_state.md R40). -/
def State.resetWith (p : Params) : State :=
  { f := Vector.replicate 16 0
    g := Vector.replicate 8 .inf
    h := Vector.replicate 4 .inf
    -- the Montgomery form of one: `R mod q` (40_field.md R121)
    acc := ⟨⟨BitVec.ofNat 256 (Config.radix % Config.q), 0⟩, ⟨0, 0⟩, ⟨0, 0⟩, ⟨0, 0⟩, ⟨0, 0⟩, ⟨0, 0⟩⟩
    t := false
    vk := .empty p.icMax
    buf := []
    ie := false
    busy := true
    done := false
    ovr := false
    err := .ok
    cmd := 0
    len := 0
    params := p
    host := []
    readData := 0 }

/-- The machine right after reset, with the default sizes, and with `BASE` and `POS` open (10_state.md R40, 00_scope.md R8). -/
def State.reset : State := .resetWith Config.params

end Sys2Proof.Machine
end

