-- ==== Sys2Proof/Machine/Ops.lean ====
section
/-! DEFINITION. The named operations over BUF, the registers and the control bits, and the two ways a complete step ends:
without error (20_memory.md R70) and with one (60_exceptions.md R243). Every meaning is written over these. -/

namespace Sys2Proof.Machine

/-- What a step answers. -/
abbrev Result := Host.Outcome State Fault Refusal

/-! ## BUF -/

/-- What an address with no entry reads as: BUF is all zero at reset (10_state.md R40). -/
def Memory.unlisted : Byte := 0

/-- The byte at address `a`. -/
def Memory.read : Memory → Nat → Byte
  | [], _ => Memory.unlisted
  | (k, b) :: m, a => if k = a then b else Memory.read m a

/-- `m` with the byte `v` at address `a`, in canonical form: an entry that reads as unlisted is left out. -/
def Memory.write : Memory → Nat → Byte → Memory
  | [], a, v => if v = Memory.unlisted then [] else [(a, v)]
  | (k, b) :: m, a, v =>
    if k = a then (if v = Memory.unlisted then m else (a, v) :: m)
    else if a < k then (if v = Memory.unlisted then (k, b) :: m else (a, v) :: (k, b) :: m)
    else (k, b) :: Memory.write m a v

/-- The canonical form: addresses strictly rising, and no entry that reads as unlisted. -/
abbrev Memory.wf (m : Memory) : Prop :=
  m.Pairwise (fun c d => c.1 < d.1) ∧ ∀ c ∈ m, c.2 ≠ Memory.unlisted

/-- `MemRead(a, n)` (00_scope.md R13). -/
def Memory.readBytes (m : Memory) : Nat → Nat → List Byte
  | _, 0 => []
  | a, n + 1 => m.read a :: Memory.readBytes m (a + 1) n

/-- `MemWrite(a, n, v)` with `n` the length of `v` (00_scope.md R13). -/
def Memory.writeBytes (m : Memory) : Nat → List Byte → Memory
  | _, [] => m
  | a, b :: bs => Memory.writeBytes (m.write a b) (a + 1) bs

/-! ## Byte strings -/

/-- `BE(s)`: the integer whose big-endian spelling is `s` (00_scope.md R13, 20_memory.md R64). -/
def be (s : List Byte) : Nat := s.foldl (fun v b => v * 256 + b.toNat) 0

/-- The `n`-byte big-endian spelling of `v`. -/
def beBytes : Nat → Nat → List Byte
  | 0, _ => []
  | n + 1, v => BitVec.ofNat 8 (v / 256 ^ n) :: beBytes n v

/-- `BYTES32(v)` (00_scope.md R13). -/
def bytes32 (v : Nat) : List Byte := beBytes 32 v

/-- The 32 bytes of `s` from offset `k`, as an integer. -/
def beAt (s : List Byte) (k : Nat) : Nat := be ((s.drop k).take 32)

/-! ## Registers -/

/-- `f[i] <- v`. -/
def State.setF (s : State) (i : Fin 16) (v : Word) : State := { s with f := s.f.set i v }

/-- `g[i] <- v`. -/
def State.setG (s : State) (i : Fin 8) (v : G1Reg) : State := { s with g := s.g.set i v }

/-- `h[i] <- v`. -/
def State.setH (s : State) (i : Fin 4) (v : G2Reg) : State := { s with h := s.h.set i v }

/-- `ACC <- v`. -/
def State.setAcc (s : State) (v : AccReg) : State := { s with acc := v }

/-- `T <- b`. -/
def State.setT (s : State) (b : Bool) : State := { s with t := b }

/-- `VK <- k`. -/
def State.setVk (s : State) (k : KeyStore) : State := { s with vk := k }

/-- BUF becomes `m`. -/
def State.setBuf (s : State) (m : Memory) : State := { s with buf := m }

/-- `VK <- empty` (10_state.md R28). -/
def State.clearVk (s : State) : State := s.setVk (.empty s.params.icMax)

/-! ## How a complete step ends -/

/-- The bookkeeping of a complete step that ends with `code` (20_memory.md R70). -/
def State.finish (s : State) (code : Err) : State := { s with err := code, busy := false, done := true }

/-- The end of a command without error: `ERR <- OK`, `BUSY <- 0`, `DONE <- 1` (20_memory.md R70). -/
def complete (s : State) : Result := .next (s.finish .ok)

/-- `raise E` (60_exceptions.md R243): `T <- 0`, the code in ERR, `BUSY <- 0`, `DONE <- 1`, nothing else. VKLOAD, whose
clearing of the store stands after an error, raises from the cleared state. There is no return from an error (R249): the
engine is idle, and the host's next write of CMD goes on. -/
def raise (e : Err) (s : State) : Result := .next ((s.setT false).finish e)

end Sys2Proof.Machine
end

