-- ==== Sys2Proof/Machine/Flags.lean ====
section
/-! DEFINITION. The flag `T`, and the words the control registers show: STATUS from the bits State holds (10_state.md R32),
the error codes (60_exceptions.md R240), and the interrupt line (R246). -/

namespace Sys2Proof.Machine

/-- The end of a command without error that answers `b` in T (10_state.md R27). -/
def completeT (b : Bool) (s : State) : Result := complete (s.setT b)

/-- The code of an error (60_exceptions.md R240). -/
def Err.code : Err → BitVec 8
  | .ok => 0x00
  | .outOfRange => 0x01
  | .invalidPoint => 0x02
  | .badInputs => 0x03
  | .vkNotInitialized => 0x04
  | .keyLoadFailed => 0x05
  | .allocationFailed => 0x06
  | .illegalCommand => 0x10
  | .badAddress => 0x11

/-- One bit as a number. -/
def bit (b : Bool) : Nat := if b then 1 else 0

/-- STATUS (10_state.md R32): BUSY, DONE, T, VKV and OVR at bits 0 to 4, ERR at 15:8, zero elsewhere. -/
def State.status (s : State) : Reg32 :=
  BitVec.ofNat 32 (bit s.busy + bit s.done * 2 + bit s.t * 4 + bit s.vk.valid * 8 + bit s.ovr * 16 + s.err.code.toNat * 2 ^ 8)

/-- CTRL: IE at bit 0, zero elsewhere (10_state.md R31). -/
def State.ctrl (s : State) : Reg32 := BitVec.ofNat 32 (bit s.ie)

/-- VKICN: `VK.icn` zero-extended (10_state.md R36). -/
def State.vkicn (s : State) : Reg32 := BitVec.ofNat 32 s.vk.icn

/-- CFG: `IC_MAX` at 31:16, `BUF_BYTES` at 15:0 (10_state.md R37). -/
def State.cfg (s : State) : Reg32 := BitVec.ofNat 32 (s.params.icMax * 2 ^ 16 + s.params.bufBytes)

/-- The interrupt line: `STATUS.DONE AND CTRL.IE` at every moment (10_state.md R39, 60_exceptions.md R246). -/
def State.irq (s : State) : Bool := s.done && s.ie

end Sys2Proof.Machine
end

