-- ==== Sys2Proof/Machine/Bus.lean ====
section
/-! DEFINITION. The host's accesses to the 64 KiB window (20_memory.md R60 to R71, 10_state.md R30 to R37), as functions of
the state. A bus address is an offset from `BASE` (R61). -/

namespace Sys2Proof.Machine

/-- The first offset of the BUF window (R61); below it is the control register space. -/
def bufWindow : Nat := 0x8000

/-- The number of bytes of an access. -/
def BusWidth.bytes : BusWidth → Nat
  | .byte => 1
  | .half => 2
  | .word => 4
  | .dword => 8

/-- `HostRead32(off)` of a control register: the seven registers of 10_state.md R30; any other offset reads 0 (R68). No
control register read has a side effect (R71). -/
def State.readControl (s : State) (off : Nat) : Reg32 :=
  match off with
  | 0x00 => Config.idValue
  | 0x04 => s.ctrl
  | 0x08 => s.status
  | 0x0C => s.cmd
  | 0x10 => s.len
  | 0x14 => s.vkicn
  | 0x18 => s.cfg
  | _ => 0

/-- The overrun of a refused access (R69). -/
def State.overrun (s : State) : State := { s with ovr := true }

/-- The start of a command: `CMD <- v; BUSY <- 1; DONE <- 0` (10_state.md R34). -/
def State.issue (s : State) (v : Reg32) : State := { s with cmd := v, busy := true, done := false }

/-- A write of CMD: accepted when not busy (R34), else discarded with OVR set (R69). -/
def State.writeCmd (s : State) (v : Reg32) : State := if s.busy then s.overrun else s.issue v

/-- A write of LEN (10_state.md R35, R69). -/
def State.writeLen (s : State) (v : Reg32) : State := if s.busy then s.overrun else { s with len := v }

/-- A write of CTRL: bit 0 is IE, the others are ignored (10_state.md R31). -/
def State.writeCtrl (s : State) (v : Reg32) : State := { s with ie := v.getLsbD 0 }

/-- A write of STATUS: DONE and OVR are cleared where a 1 is written, all else is ignored (10_state.md R32). -/
def State.writeStatus (s : State) (v : Reg32) : State :=
  { s with done := s.done && !v.getLsbD 1, ovr := s.ovr && !v.getLsbD 4 }

/-- `HostWrite32(off, v)`: ID, VKICN, CFG and unmapped offsets ignore writes (10_state.md R33, R36, R37; R68). -/
def State.writeControl (s : State) (off : Nat) (v : Reg32) : State :=
  match off with
  | 0x04 => s.writeCtrl v
  | 0x08 => s.writeStatus v
  | 0x0C => s.writeCmd v
  | 0x10 => s.writeLen v
  | _ => s

/-- `HostReadByte` at BUF address `a`: the byte and the state after. Busy: 0x00, and OVR is set (R63, R69). Above BUF the
window is unmapped and reads 0 with no other effect, busy or not (R68). -/
def State.readBufByte (s : State) (a : Nat) : Byte × State :=
  if s.params.bufBytes ≤ a then (0, s)
  else if s.busy then (0, s.overrun)
  else (s.buf.read a, s)

/-- `HostWriteByte` at BUF address `a` (R63, R68, R69). -/
def State.writeBufByte (s : State) (a : Nat) (v : Byte) : State :=
  if s.params.bufBytes ≤ a then s
  else if s.busy then s.overrun
  else s.setBuf (s.buf.write a v)

/-- `n` byte reads in ascending address order: the data with the lowest address in the lowest lane, and the state after
(R63, R65). -/
def State.readBuf (s : State) : Nat → Nat → Nat × State
  | _, 0 => (0, s)
  | a, n + 1 =>
    let lo := s.readBufByte a
    let hi := State.readBuf lo.2 (a + 1) n
    (lo.1.toNat + 256 * hi.1, hi.2)

/-- `n` byte writes in ascending address order, the lowest lane to the lowest address (R63, R65). -/
def State.writeBuf (s : State) : Nat → Nat → Nat → State
  | _, 0, _ => s
  | a, n + 1, v => State.writeBuf (s.writeBufByte a (BitVec.ofNat 8 v)) (a + 1) n (v / 256)

/-- An access at an offset inside the window: in the control register space aligned and 32 bits wide (R62), in the BUF window
not past its end (R61); else the refusal it meets. -/
def offsetRefusal (w : BusWidth) (off : Nat) : Option Refusal :=
  if off < bufWindow then if w = .word ∧ off % 4 = 0 then none else some .controlAccess
  else if off + w.bytes ≤ 0x10000 then none else some .outsideWindow

/-- What the bus makes of an access at `addr` (R61): `use` of its offset from `BASE`, where the engine's interface has the
access. One that begins below `BASE` is refused like one that ends past the window (assumption 13). -/
def withOffset (w : BusWidth) (addr : Nat) (s : State) (use : Nat → State) : Result :=
  if addr < s.params.base then .refused .outsideWindow
  else
    match offsetRefusal w (addr - s.params.base) with
    | some r => .refused r
    | none => .next (use (addr - s.params.base))

/-- A host read of width `w` at the offset `off`; the data it returns goes to `readData`. -/
def State.readAt (s : State) (w : BusWidth) (off : Nat) : State :=
  if off < bufWindow then { s with readData := (s.readControl off).setWidth 64 }
  else
    let d := s.readBuf (off - bufWindow) w.bytes
    { d.2 with readData := BitVec.ofNat 64 d.1 }

/-- A host write of width `w` at the offset `off`; the bytes of `v` above the width are not carried by the access. -/
def State.writeAt (s : State) (w : BusWidth) (off : Nat) (v : BitVec 64) : State :=
  if off < bufWindow then s.writeControl off (v.setWidth 32)
  else s.writeBuf (off - bufWindow) w.bytes v.toNat

/-- A host read of width `w` at the bus address `addr`. An access of several bytes is one step (assumption 12). -/
def hostRead (w : BusWidth) (addr : Nat) (s : State) : Result := withOffset w addr s (s.readAt w)

/-- A host write of width `w` at the bus address `addr`. An access of several bytes is one step (assumption 12). -/
def hostWrite (w : BusWidth) (addr : Nat) (v : BitVec 64) (s : State) : Result :=
  withOffset w addr s fun off => s.writeAt w off v

end Sys2Proof.Machine
end

