-- ==== Sys2Proof/Machine/Tower.lean ====
section
/-! DEFINITION. The tower of fields of 00_scope.md R14 on canonical values: `Fq`, `Fq2 = Fq[u]/(u^2 + 1)` and
`Fq12 = Fq2[w]/(w^6 - xi)`. -/

namespace Sys2Proof.Machine

/-- The operations a group law needs of its coordinate field (42_curve.md R162, R163: one text for both fields). -/
structure CoordOps (F : Type) where
  zero  : F
  two   : F
  three : F
  add   : F → F → F
  sub   : F → F → F
  neg   : F → F
  mul   : F → F → F
  inv   : F → F

/-- `Fq`, the integers modulo `q`. -/
def fq : CoordOps Nat :=
  { zero := 0, two := 2, three := 3
    add := addMod Config.q, sub := subMod Config.q, neg := negMod Config.q
    mul := mulMod Config.q, inv := invMod Config.q }

/-- Componentwise sum in `Fq2`. -/
def fq2Add (a b : Ext2 Nat) : Ext2 Nat := ⟨addMod Config.q a.re b.re, addMod Config.q a.im b.im⟩

/-- Componentwise difference in `Fq2`. -/
def fq2Sub (a b : Ext2 Nat) : Ext2 Nat := ⟨subMod Config.q a.re b.re, subMod Config.q a.im b.im⟩

/-- Componentwise negative in `Fq2`. -/
def fq2Neg (a : Ext2 Nat) : Ext2 Nat := ⟨negMod Config.q a.re, negMod Config.q a.im⟩

/-- The product in `Fq2`: `(a0*b0 - a1*b1, a0*b1 + a1*b0)`. -/
def fq2Mul (a b : Ext2 Nat) : Ext2 Nat :=
  ⟨subMod Config.q (a.re * b.re) (a.im * b.im), addMod Config.q (a.re * b.im) (a.im * b.re)⟩

/-- The conjugate `(a0, -a1)`. -/
def fq2Conj (a : Ext2 Nat) : Ext2 Nat := ⟨a.re, negMod Config.q a.im⟩

/-- The inverse in `Fq2`: `(a0*n, -a1*n)` with `n = (a0^2 + a1^2)^-1`. -/
def fq2Inv (a : Ext2 Nat) : Ext2 Nat :=
  let n := invMod Config.q (addMod Config.q (a.re * a.re) (a.im * a.im))
  ⟨mulMod Config.q a.re n, negMod Config.q (mulMod Config.q a.im n)⟩

/-- `lam * x` for an integer `x`: both halves are multiplied (44_pairing.md R192). -/
def fq2Scale (a : Ext2 Nat) (x : Nat) : Ext2 Nat := ⟨mulMod Config.q a.re x, mulMod Config.q a.im x⟩

/-- `Fq2` as a coordinate field; 42_curve.md R163 reads 0, 2 and 3 as `(0, 0)`, `(2, 0)` and `(3, 0)`. -/
def fq2 : CoordOps (Ext2 Nat) :=
  { zero := ⟨0, 0⟩, two := ⟨2, 0⟩, three := ⟨3, 0⟩
    add := fq2Add, sub := fq2Sub, neg := fq2Neg, mul := fq2Mul, inv := fq2Inv }

/-- The one of `Fq12`. -/
def fq12One : Poly6 (Ext2 Nat) := ⟨⟨1, 0⟩, ⟨0, 0⟩, ⟨0, 0⟩, ⟨0, 0⟩, ⟨0, 0⟩, ⟨0, 0⟩⟩

/-- The product in `Fq12`: the polynomial product with every `w^(6+k)` replaced by `xi * w^k`. Coefficient `k` is the sum
of `a[i]*b[j]` over `i + j = k`, and `xi` times the sum over `i + j = k + 6`. -/
def fq12Mul (a b : Poly6 (Ext2 Nat)) : Poly6 (Ext2 Nat) :=
  { c0 := fq2Add (fq2Mul a.c0 b.c0)
      (fq2Mul Config.xi (fq2Add (fq2Add (fq2Add (fq2Add (fq2Mul a.c1 b.c5) (fq2Mul a.c2 b.c4)) (fq2Mul a.c3 b.c3))
        (fq2Mul a.c4 b.c2)) (fq2Mul a.c5 b.c1)))
    c1 := fq2Add (fq2Add (fq2Mul a.c0 b.c1) (fq2Mul a.c1 b.c0))
      (fq2Mul Config.xi (fq2Add (fq2Add (fq2Add (fq2Mul a.c2 b.c5) (fq2Mul a.c3 b.c4)) (fq2Mul a.c4 b.c3))
        (fq2Mul a.c5 b.c2)))
    c2 := fq2Add (fq2Add (fq2Add (fq2Mul a.c0 b.c2) (fq2Mul a.c1 b.c1)) (fq2Mul a.c2 b.c0))
      (fq2Mul Config.xi (fq2Add (fq2Add (fq2Mul a.c3 b.c5) (fq2Mul a.c4 b.c4)) (fq2Mul a.c5 b.c3)))
    c3 := fq2Add (fq2Add (fq2Add (fq2Add (fq2Mul a.c0 b.c3) (fq2Mul a.c1 b.c2)) (fq2Mul a.c2 b.c1)) (fq2Mul a.c3 b.c0))
      (fq2Mul Config.xi (fq2Add (fq2Mul a.c4 b.c5) (fq2Mul a.c5 b.c4)))
    c4 := fq2Add (fq2Add (fq2Add (fq2Add (fq2Add (fq2Mul a.c0 b.c4) (fq2Mul a.c1 b.c3)) (fq2Mul a.c2 b.c2))
        (fq2Mul a.c3 b.c1)) (fq2Mul a.c4 b.c0))
      (fq2Mul Config.xi (fq2Mul a.c5 b.c5))
    c5 := fq2Add (fq2Add (fq2Add (fq2Add (fq2Add (fq2Mul a.c0 b.c5) (fq2Mul a.c1 b.c4)) (fq2Mul a.c2 b.c3))
        (fq2Mul a.c3 b.c2)) (fq2Mul a.c4 b.c1)) (fq2Mul a.c5 b.c0) }

/-- `f^e` in `Fq12`. -/
def fq12Pow (f : Poly6 (Ext2 Nat)) (e : Nat) : Poly6 (Ext2 Nat) := ladder fq12Mul fq12One f (e.log2 + 1) e

/-! Registers hold Montgomery forms modulo `q` of what the rules compute on (10_state.md R21, R23, R25). -/

/-- An element of `Fq2` in the words that hold it. -/
def ext2Words (a : Ext2 Nat) : Ext2 Word := ⟨montWord .base a.re, montWord .base a.im⟩

/-- The element of `Fq2` two words hold. -/
def ext2Canon (a : Ext2 Word) : Ext2 Nat := ⟨canonWord .base a.re, canonWord .base a.im⟩

/-- An element of `Fq12` in the twelve words that hold it. -/
def accWords (a : Poly6 (Ext2 Nat)) : AccReg :=
  ⟨ext2Words a.c0, ext2Words a.c1, ext2Words a.c2, ext2Words a.c3, ext2Words a.c4, ext2Words a.c5⟩

/-- The element of `Fq12` that ACC holds. -/
def accCanon (a : AccReg) : Poly6 (Ext2 Nat) :=
  ⟨ext2Canon a.c0, ext2Canon a.c1, ext2Canon a.c2, ext2Canon a.c3, ext2Canon a.c4, ext2Canon a.c5⟩

/-- A G1 point in the words of a register. -/
def g1Words : Pt Nat → G1Reg
  | .inf => .inf
  | .aff x y => .aff (montWord .base x) (montWord .base y)

/-- The G1 point a register holds, in canonical coordinates. -/
def g1Canon : G1Reg → Pt Nat
  | .inf => .inf
  | .aff x y => .aff (canonWord .base x) (canonWord .base y)

/-- A G2 point in the words of a register. -/
def g2Words : Pt (Ext2 Nat) → G2Reg
  | .inf => .inf
  | .aff x y => .aff (ext2Words x) (ext2Words y)

/-- The G2 point a register holds, in canonical coordinates. -/
def g2Canon : G2Reg → Pt (Ext2 Nat)
  | .inf => .inf
  | .aff x y => .aff (ext2Canon x) (ext2Canon y)

end Sys2Proof.Machine
end

