-- ==== Sys2Proof/Machine/Group.lean ====
section
/-! DEFINITION. The two curves, their group law and scalar multiples (42_curve.md R160 to R164), and which register
contents are points of G1 and of G2 (10_state.md R24). Coordinates are canonical values. -/

namespace Sys2Proof.Machine

/-- The third point of a line of slope `lam` through `(x1, y1)` and a point with abscissa `x2`, reflected (R162). -/
def thirdPoint {F : Type} (K : CoordOps F) (lam x1 y1 x2 : F) : Pt F :=
  let x3 := K.sub (K.sub (K.mul lam lam) x1) x2
  .aff x3 (K.sub (K.mul lam (K.sub x1 x3)) y1)

/-- The slope of the tangent at `(x, y)`: `3*x*x * (2*y)^-1` (R162). -/
def tangent {F : Type} (K : CoordOps F) (x y : F) : F :=
  K.mul (K.mul K.three (K.mul x x)) (K.inv (K.mul K.two y))

/-- The slope of the chord: `(y2 - y1) * (x2 - x1)^-1` (R162). -/
def chord {F : Type} (K : CoordOps F) (x1 y1 x2 y2 : F) : F :=
  K.mul (K.sub y2 y1) (K.inv (K.sub x2 x1))

/-- The group law, one text for `G1Add` (R162) and `G2Add` (R163). -/
def ptAdd {F : Type} [DecidableEq F] (K : CoordOps F) : Pt F → Pt F → Pt F
  | .inf, S => S
  | .aff x1 y1, .inf => .aff x1 y1
  | .aff x1 y1, .aff x2 y2 =>
    if x1 = x2 then
      if y1 = y2 ∧ y1 ≠ K.zero then thirdPoint K (tangent K x1 y1) x1 y1 x2 else .inf
    else thirdPoint K (chord K x1 y1 x2 y2) x1 y1 x2

/-- The negative of a point, one text for `G1Neg` (R162) and `G2Neg` (R163). -/
def ptNeg {F : Type} (K : CoordOps F) : Pt F → Pt F
  | .inf => .inf
  | .aff x y => .aff x (K.neg y)

/-- The scalar multiple, one text for `G1Mul` and `G2Mul`: the double-and-add over the 256 bits of `k` that R164 gives. -/
def ptMul {F : Type} [DecidableEq F] (K : CoordOps F) (k : Nat) (P : Pt F) : Pt F :=
  ladder (ptAdd K) .inf P 256 k

/-- Whether `(x, y)` satisfies `y^2 = x^3 + b`. -/
def onCurve {F : Type} [DecidableEq F] (K : CoordOps F) (b x y : F) : Bool :=
  decide (K.mul y y = K.add (K.mul (K.mul x x) x) b)

/-- Whether `[r]P = INF` (41_move.md R145, R150). -/
def inSubgroup {F : Type} [DecidableEq F] (K : CoordOps F) (P : Pt F) : Bool :=
  decide (ptMul K Config.r P = .inf)

/-- A half of a coordinate is a Montgomery form modulo `q`: below `q` (10_state.md R21, R23). -/
def wordReduced (w : Word) : Bool := decide (w.toNat < Config.q)

/-- Both halves are below `q`. -/
def ext2Reduced (a : Ext2 Word) : Bool := wordReduced a.re && wordReduced a.im

/-- The contents R24 allows a `g` register: `INF`, or a reduced point of the G1 curve of order dividing `r`. -/
def g1Valid : G1Reg → Bool
  | .inf => true
  | .aff x y =>
    wordReduced x && wordReduced y &&
      onCurve fq Config.b1 (canonWord .base x) (canonWord .base y) && inSubgroup fq (g1Canon (.aff x y))

/-- The contents R24 allows an `h` register: `INF`, or a reduced point of the twist of order dividing `r`. -/
def g2Valid : G2Reg → Bool
  | .inf => true
  | .aff x y =>
    ext2Reduced x && ext2Reduced y &&
      onCurve fq2 Config.b2 (ext2Canon x) (ext2Canon y) && inSubgroup fq2 (g2Canon (.aff x y))

end Sys2Proof.Machine
end

