-- ==== Sys2Proof/Machine/Wire.lean ====
section
/-! DEFINITION. The wire formats of points (41_move.md R145, R146, R149 to R151): reading a candidate, validating it, and
spelling a point. Points here have canonical coordinates. -/

namespace Sys2Proof.Machine

/-- The lines of `ParseG1` before the subgroup line (41_move.md R145): coordinates below `q`, the all-zero spelling of
infinity, the curve equation. -/
def g1Candidate (s : List Byte) : Option (Pt Nat) :=
  let x := beAt s 0
  let y := beAt s 32
  if Config.q ≤ x ∨ Config.q ≤ y then none
  else if x = 0 ∧ y = 0 then some .inf
  else if onCurve fq Config.b1 x y then some (.aff x y) else none

/-- A candidate on its curve that is also in the subgroup of order `r`. -/
def subgroupChecked {F : Type} [DecidableEq F] (K : CoordOps F) : Option (Pt F) → Option (Pt F)
  | none => none
  | some .inf => some .inf
  | some (.aff x y) => if inSubgroup K (.aff x y) then some (.aff x y) else none

/-- `ParseG1(s)` of a 64-byte string (41_move.md R145); `none` is `Invalid`. -/
def parseG1 (s : List Byte) : Option (Pt Nat) := subgroupChecked fq (g1Candidate s)

/-- Two wire elements in ascending order as a coordinate, real half first (41_move.md R149). -/
def fromWire (ord : WireOrder) (e0 e1 : Nat) : Ext2 Nat :=
  match ord with
  | .c1First => ⟨e1, e0⟩
  | .c0First => ⟨e0, e1⟩

/-- The lines of `ParseG2` before the subgroup line (41_move.md R150). -/
def g2Candidate (ord : WireOrder) (s : List Byte) : Option (Pt (Ext2 Nat)) :=
  let e0 := beAt s 0
  let e1 := beAt s 32
  let e2 := beAt s 64
  let e3 := beAt s 96
  if Config.q ≤ e0 ∨ Config.q ≤ e1 ∨ Config.q ≤ e2 ∨ Config.q ≤ e3 then none
  else
    let x := fromWire ord e0 e1
    let y := fromWire ord e2 e3
    if x = fq2.zero ∧ y = fq2.zero then some .inf
    else if onCurve fq2 Config.b2 x y then some (.aff x y) else none

/-- `ParseG2(s)` of a 128-byte string (41_move.md R150); `none` is `Invalid`. -/
def parseG2 (ord : WireOrder) (s : List Byte) : Option (Pt (Ext2 Nat)) := subgroupChecked fq2 (g2Candidate ord s)

/-- `EncG1(P)`, 64 bytes (41_move.md R146). -/
def encG1 : Pt Nat → List Byte
  | .inf => List.replicate 64 0
  | .aff x y => bytes32 x ++ bytes32 y

/-- A coordinate on the wire, 64 bytes (41_move.md R151). -/
def toWire (ord : WireOrder) (c : Ext2 Nat) : List Byte :=
  match ord with
  | .c1First => bytes32 c.im ++ bytes32 c.re
  | .c0First => bytes32 c.re ++ bytes32 c.im

/-- `EncG2(P)`, 128 bytes (41_move.md R151). -/
def encG2 (ord : WireOrder) : Pt (Ext2 Nat) → List Byte
  | .inf => List.replicate 128 0
  | .aff x y => toWire ord x ++ toWire ord y

end Sys2Proof.Machine
end

