-- ==== Sys2Proof/Machine/Operands.lean ====
section
/-! DEFINITION. The operand forms: a field register read as an element of a field, with its range check (40_field.md
R120); a field register read as an integer (10_state.md R20); a point register; and a BUF region, with its address check
(41_move.md R140). -/

namespace Sys2Proof.Machine

/-- The raw value of `f[i]`: an unsigned 256-bit integer (10_state.md R20). -/
def State.raw (s : State) (i : Fin 16) : Nat := (s.f.get i).toNat

/-- The G1 point in `g[i]`. -/
def State.point1 (s : State) (i : Fin 8) : Pt Nat := g1Canon (s.g.get i)

/-- The G2 point in `h[i]`. -/
def State.point2 (s : State) (i : Fin 4) : Pt (Ext2 Nat) := g2Canon (s.h.get i)

/-- Read `f[i]` as an element of the field `fs`: `OutOfRange` unless its raw value is below the modulus (40_field.md R120). -/
def withElement (fs : FieldSel) (i : Fin 16) (s : State) (use : Nat → Result) : Result :=
  if s.raw i < modulus fs then use (s.raw i) else raise .outOfRange s

/-- Two elements of the field `fs`, tested in this order (40_field.md R120). -/
def withElements (fs : FieldSel) (i j : Fin 16) (s : State) (use : Nat → Nat → Result) : Result :=
  withElement fs i s fun a => withElement fs j s fun b => use a b

/-- A BUF region of `size` bytes at `addr`: `BadAddress` unless it lies wholly inside BUF, the sum taken without
wrap-around (41_move.md R140). -/
def withRegion (addr : BitVec 15) (size : Nat) (s : State) (use : Nat → Result) : Result :=
  if addr.toNat + size ≤ s.params.bufBytes then use addr.toNat else raise .badAddress s

end Sys2Proof.Machine
end

