-- ==== Sys2Proof/Machine/Curve.lean ====
section
/-! DEFINITION. The curve commands (42_curve.md): addition, scalar multiples, and the predicates on wire bytes in BUF. -/

namespace Sys2Proof.Machine

/-- G1ADD (R165). -/
def execG1add (rd ra rb : Fin 8) (s : State) : Result :=
  complete (s.setG rd (g1Words (ptAdd fq (s.point1 ra) (s.point1 rb))))

/-- G2ADD (R166). -/
def execG2add (rd ra rb : Fin 4) (s : State) : Result :=
  complete (s.setH rd (g2Words (ptAdd fq2 (s.point2 ra) (s.point2 rb))))

/-- G1SMUL (R167): the scalar is the raw integer in `f[rb]`. -/
def execG1smul (rd ra : Fin 8) (rb : Fin 16) (s : State) : Result :=
  complete (s.setG rd (g1Words (ptMul fq (s.raw rb) (s.point1 ra))))

/-- G2SMUL (R168). -/
def execG2smul (rd ra : Fin 4) (rb : Fin 16) (s : State) : Result :=
  complete (s.setH rd (g2Words (ptMul fq2 (s.raw rb) (s.point2 ra))))

/-- G1ONC (R169): coordinates below `q`, and infinity or on the curve. -/
def execG1onc (addr : BitVec 15) (s : State) : Result :=
  withRegion addr 64 s fun a => completeT (g1Candidate (s.buf.readBytes a 64)).isSome s

/-- G1SUBG (R170). -/
def execG1subg (addr : BitVec 15) (s : State) : Result :=
  withRegion addr 64 s fun a => completeT (parseG1 (s.buf.readBytes a 64)).isSome s

/-- G2ONC (R171). -/
def execG2onc (addr : BitVec 15) (s : State) : Result :=
  withRegion addr 128 s fun a => completeT (g2Candidate s.params.wireOrder (s.buf.readBytes a 128)).isSome s

/-- G2SUBG (R172). -/
def execG2subg (addr : BitVec 15) (s : State) : Result :=
  withRegion addr 128 s fun a => completeT (parseG2 s.params.wireOrder (s.buf.readBytes a 128)).isSome s

end Sys2Proof.Machine
end

