-- ==== Sys2Proof/Machine/Field.lean ====
section
/-! DEFINITION. The field commands (40_field.md). The registers hold Montgomery forms; sums and comparisons act on the forms
themselves, which R123 and R131 allow. -/

namespace Sys2Proof.Machine

/-- FADD (R123). -/
def execFadd (fs : FieldSel) (rd ra rb : Fin 16) (s : State) : Result :=
  withElements fs ra rb s fun a b => complete (s.setF rd (wordOf (addMod (modulus fs) a b)))

/-- FSUB (R124). -/
def execFsub (fs : FieldSel) (rd ra rb : Fin 16) (s : State) : Result :=
  withElements fs ra rb s fun a b => complete (s.setF rd (wordOf (subMod (modulus fs) a b)))

/-- FNEG (R125). -/
def execFneg (fs : FieldSel) (rd ra : Fin 16) (s : State) : Result :=
  withElement fs ra s fun a => complete (s.setF rd (wordOf (negMod (modulus fs) a)))

/-- FMUL (R126). -/
def execFmul (fs : FieldSel) (rd ra rb : Fin 16) (s : State) : Result :=
  withElements fs ra rb s fun a b => complete (s.setF rd (wordOf (montMul fs a b)))

/-- FSQR (R127). -/
def execFsqr (fs : FieldSel) (rd ra : Fin 16) (s : State) : Result :=
  withElement fs ra s fun a => complete (s.setF rd (wordOf (montMul fs a a)))

/-- FINV (R128): the `(p-2)`-th power, so 0 for 0, with T telling whether the operand was not zero. -/
def execFinv (fs : FieldSel) (rd ra : Fin 16) (s : State) : Result :=
  withElement fs ra s fun a =>
    completeT (a != 0) (s.setF rd (montWord fs (powMod (modulus fs) (fromMont fs a) (modulus fs - 2))))

/-- FPOW (R129): the base is an element, the exponent a raw integer without a range check. -/
def execFpow (fs : FieldSel) (rd ra rb : Fin 16) (s : State) : Result :=
  withElement fs ra s fun a =>
    complete (s.setF rd (montWord fs (powMod (modulus fs) (fromMont fs a) (s.raw rb))))

/-- FISZ (R130). -/
def execFisz (fs : FieldSel) (ra : Fin 16) (s : State) : Result :=
  withElement fs ra s fun a => completeT (a == 0) s

/-- FEQ (R131). -/
def execFeq (fs : FieldSel) (ra rb : Fin 16) (s : State) : Result :=
  withElements fs ra rb s fun a b => completeT (a == b) s

end Sys2Proof.Machine
end

