-- ==== Sys2Proof/Machine/Pairing.lean ====
section
/-! DEFINITION. The optimal ate pairing (44_pairing.md R191 to R194) and the three commands that build a product of pairings
in ACC (R196 to R198). -/

namespace Sys2Proof.Machine

/-- An element of `Fq12`, on canonical values. -/
abbrev Fq12 := Poly6 (Ext2 Nat)

/-- A twist point, in canonical coordinates. -/
abbrev TwistPt := Pt (Ext2 Nat)

/-- `Frob1` (R191); infinity, to which no rule applies it, stays. -/
def frob1 : TwistPt → TwistPt
  | .inf => .inf
  | .aff x y => .aff (fq2Mul (fq2Conj x) Config.g12) (fq2Mul (fq2Conj y) Config.g13)

/-- `Frob2` (R191). -/
def frob2 : TwistPt → TwistPt
  | .inf => .inf
  | .aff x y => .aff (fq2Mul x Config.g22) (fq2Mul y Config.g23)

/-- The line of slope `lam` through `(xT, yT)`, evaluated at `P = (xP, yP)` (R192). -/
def slopeLine (lam xT yT : Ext2 Nat) (xP yP : Nat) : Fq12 :=
  { c0 := ⟨yP, 0⟩
    c1 := fq2Neg (fq2Scale lam xP)
    c2 := ⟨0, 0⟩
    c3 := fq2Sub (fq2Mul lam xT) yT
    c4 := ⟨0, 0⟩
    c5 := ⟨0, 0⟩ }

/-- The vertical line at `xT`, evaluated at `P` (R192). -/
def verticalLine (xT : Ext2 Nat) (xP : Nat) : Fq12 :=
  ⟨⟨xP, 0⟩, ⟨0, 0⟩, fq2Neg xT, ⟨0, 0⟩, ⟨0, 0⟩, ⟨0, 0⟩⟩

/-- The line part of `Line(T, S, P)` (R192). Where `T` or `S` is infinity the rule gives no line: a free value. -/
def lineValue (T S : TwistPt) (xP yP : Nat) : Fq12 :=
  match T, S with
  | .aff xT yT, .aff xS yS =>
    if xT = xS then
      if yT = yS ∧ yT ≠ fq2.zero then slopeLine (tangent fq2 xT yT) xT yT xP yP else verticalLine xT xP
    else slopeLine (chord fq2 xT yT xS yS) xT yT xP yP
  | T, S => Config.freeLine T S xP yP

/-- The bits of `n` below its leading 1, the most significant first (R193). -/
def bitsBelowLeading (n : Nat) : List Bool := (List.range n.log2).reverse.map n.testBit

/-- The running pair of the Miller loop: `f` and `T`. -/
structure MillerAcc where
  f : Fq12
  T : TwistPt
deriving DecidableEq, Repr

/-- One factor: `f <- f * l`, `T <- T + S` with `(l, T + S) = Line(T, S, P)` (R193). -/
def millerAdd (xP yP : Nat) (m : MillerAcc) (S : TwistPt) : MillerAcc :=
  ⟨fq12Mul m.f (lineValue m.T S xP yP), ptAdd fq2 m.T S⟩

/-- One turn of the loop: a doubling, then an addition of `Q` where the bit is 1 (R193). -/
def millerTurn (xP yP : Nat) (Q : TwistPt) (m : MillerAcc) (b : Bool) : MillerAcc :=
  let d : MillerAcc := ⟨fq12Mul (fq12Mul m.f m.f) (lineValue m.T m.T xP yP), ptAdd fq2 m.T m.T⟩
  if b then millerAdd xP yP d Q else d

/-- `Miller(P, Q)` (R193). -/
def miller (P : Pt Nat) (Q : TwistPt) : Fq12 :=
  match P, Q with
  | .aff xP yP, .aff xQ yQ =>
    let q0 : TwistPt := .aff xQ yQ
    let loop := (bitsBelowLeading Config.loopCount).foldl (millerTurn xP yP q0) ⟨fq12One, q0⟩
    (millerAdd xP yP (millerAdd xP yP loop (frob1 q0)) (ptNeg fq2 (frob2 q0))).f
  | _, _ => fq12One

/-- `FinalExp(f) = f^E` (R194). -/
def finalExp (f : Fq12) : Fq12 := fq12Pow f Config.finalExponent

/-- The pairing `e(P, Q)` (R195). -/
def pairing (P : Pt Nat) (Q : TwistPt) : Fq12 := finalExp (miller P Q)

/-- Whether an element of `Fq12` is in `GT` (R190). -/
def inGT (z : Fq12) : Bool := decide (fq12Pow z Config.r = fq12One)

/-- ACCONE (R196). -/
def execAccone (s : State) : Result := complete (s.setAcc (accWords fq12One))

/-- MILLER (R197). `Miller` has a meaning on points of G1 and G2 only (R199): other register contents, which no state
that keeps 10_state.md R24 has, are refused. -/
def execMiller (ra : Fin 8) (rb : Fin 4) (s : State) : Result :=
  if g1Valid (s.g.get ra) && g2Valid (s.h.get rb) then
    complete (s.setAcc (accWords (fq12Mul (accCanon s.acc) (miller (s.point1 ra) (s.point2 rb)))))
  else .refused .pairingOffSubgroup

/-- FEXP (R198): T tells whether the new ACC is one. -/
def execFexp (s : State) : Result :=
  let z := finalExp (accCanon s.acc)
  completeT (decide (z = fq12One)) (s.setAcc (accWords z))

end Sys2Proof.Machine
end

