-- ==== Sys2Proof/Machine/Groth.lean ====
section
/-! DEFINITION. The Groth16 commands (45_groth16.md): the key image and its loading (R210, R212), the clearing of the key
(R213), and the verification of one proof (R211, R214). -/

namespace Sys2Proof.Machine

/-- `ParseG1` of the 64 bytes at `a`. -/
def parseG1At (m : Memory) (a : Nat) : Option (Pt Nat) := parseG1 (m.readBytes a 64)

/-- `ParseG2` of the 128 bytes at `a`. -/
def parseG2At (ord : WireOrder) (m : Memory) (a : Nat) : Option TwistPt := parseG2 ord (m.readBytes a 128)

/-- `ParseG1` of `n` points in a row from `a` on; `none` at the first invalid one. -/
def parseIc (m : Memory) : Nat → Nat → Option (List (Pt Nat))
  | _, 0 => some []
  | a, n + 1 =>
    match parseG1At m a with
    | none => none
    | some P =>
      match parseIc m (a + 64) n with
      | none => none
      | some Ps => some (P :: Ps)

/-- The points of the key image at `a` with `c` `IC` points, all of them valid, as the store that holds them (R210, R212). -/
def parseKeyPoints (p : Params) (m : Memory) (a c : Nat) : Option KeyStore :=
  match parseG1At m a, parseG2At p.wireOrder m (a + 64), parseG2At p.wireOrder m (a + 192),
      parseG2At p.wireOrder m (a + 320), parseIc m (a + 452) c with
  | some al, some be, some ga, some de, some ic =>
    some { valid := true, alpha := g1Words al, beta := g2Words be, gamma := g2Words ga, delta := g2Words de
           icn := c, ic := ic.map g1Words ++ List.replicate (p.icMax - c) .inf }
  | _, _, _, _, _ => none

/-- The checks of VKLOAD on the image of `L` bytes at `a`, in the order of R212: length, count, length against count,
capacity, then the points. -/
def parseKey (p : Params) (m : Memory) (a L : Nat) : Except Err KeyStore :=
  if L < 452 then .error .keyLoadFailed
  else
    let c := be (m.readBytes (a + 448) 4)
    if c = 0 then .error .keyLoadFailed
    else if L ≠ 452 + 64 * c then .error .keyLoadFailed
    else if p.icMax < c then .error .allocationFailed
    else
      match parseKeyPoints p m a c with
      | some k => .ok k
      | none => .error .keyLoadFailed

/-- VKLOAD (R212): after the address check the store is empty whatever follows, unless the whole image is accepted. -/
def execVkload (addr : BitVec 15) (s : State) : Result :=
  withRegion addr s.len.toNat s fun a =>
    match parseKey s.params s.buf a s.len.toNat with
    | .ok k => complete (s.setVk k)
    | .error e => raise e s.clearVk

/-- VKCLR (R213). -/
def execVkclr (s : State) : Result := complete s.clearVk

/-- The `n` public inputs from `a` on, as integers (R211). -/
def readInputs (m : Memory) : Nat → Nat → List Nat
  | _, 0 => []
  | a, n + 1 => be (m.readBytes a 32) :: readInputs m (a + 32) n

/-- `vk_x = ic[0] + sum x[i]*ic[i+1]` (R214). -/
def vkX (ic : List G1Reg) (xs : List Nat) : Pt Nat :=
  match ic with
  | [] => .inf
  | ic0 :: rest =>
    (xs.zip rest).foldl (fun v e => ptAdd fq v (ptMul fq e.1 (g1Canon e.2))) (g1Canon ic0)

/-- Whether every point of the store is in its subgroup (10_state.md R24, R28). -/
def KeyStore.pointsValid (k : KeyStore) : Bool :=
  g1Valid k.alpha && g2Valid k.beta && g2Valid k.gamma && g2Valid k.delta && k.ic.all g1Valid

/-- The product of the four Miller values of R214. -/
def groth16Product (k : KeyStore) (A : Pt Nat) (B : TwistPt) (C : Pt Nat) (xs : List Nat) : Fq12 :=
  fq12Mul (fq12Mul (fq12Mul (miller (ptNeg fq A) B) (miller (g1Canon k.alpha) (g2Canon k.beta)))
    (miller (vkX k.ic xs) (g2Canon k.gamma))) (miller C (g2Canon k.delta))

/-- Whether the engine accepts: the product of the four pairings is one (R214, phases Pairing and Compare). -/
def groth16Accepts (k : KeyStore) (A : Pt Nat) (B : TwistPt) (C : Pt Nat) (xs : List Nat) : Bool :=
  decide (finalExp (groth16Product k A B C xs) = fq12One)

/-- VERIFY (R214): the checks in the order of the rule, then T tells accept from reject. It writes nothing but T. A key
with a point outside its subgroup, which no state that keeps 10_state.md R24 holds, is refused where the pairing would
be computed (44_pairing.md R199). -/
def execVerify (n : BitVec 8) (addr : BitVec 15) (s : State) : Result :=
  withRegion addr (256 + 32 * n.toNat) s fun a =>
    if s.vk.valid then
      match parseG1At s.buf a, parseG2At s.params.wireOrder s.buf (a + 64), parseG1At s.buf (a + 192) with
      | some A, some B, some C =>
        let xs := readInputs s.buf (a + 256) n.toNat
        if xs.all (fun x => decide (x < Config.r)) then
          if n.toNat + 1 = s.vk.icn then
            if s.vk.pointsValid then completeT (groth16Accepts s.vk A B C xs) s
            else .refused .pairingOffSubgroup
          else raise .badInputs s
        else raise .outOfRange s
      | _, _, _ => raise .invalidPoint s
    else raise .vkNotInitialized s

end Sys2Proof.Machine
end

