-- ==== Sys2Proof/Machine/Move.lean ====
section
/-! DEFINITION. The move commands (41_move.md): loads and stores between BUF and the registers. -/

namespace Sys2Proof.Machine

/-- LDF (R141): a canonical value below the modulus, stored as its Montgomery form. -/
def execLdf (fs : FieldSel) (rt : Fin 16) (addr : BitVec 15) (s : State) : Result :=
  withRegion addr 32 s fun a =>
    let v := be (s.buf.readBytes a 32)
    if v < modulus fs then complete (s.setF rt (montWord fs v)) else raise .outOfRange s

/-- STF (R142). -/
def execStf (fs : FieldSel) (rt : Fin 16) (addr : BitVec 15) (s : State) : Result :=
  withRegion addr 32 s fun a =>
    withElement fs rt s fun v => complete (s.setBuf (s.buf.writeBytes a (bytes32 (fromMont fs v))))

/-- LDRAW (R143): no range check, no conversion. -/
def execLdraw (rt : Fin 16) (addr : BitVec 15) (s : State) : Result :=
  withRegion addr 32 s fun a => complete (s.setF rt (wordOf (be (s.buf.readBytes a 32))))

/-- STRAW (R144): no range check, no conversion. -/
def execStraw (rt : Fin 16) (addr : BitVec 15) (s : State) : Result :=
  withRegion addr 32 s fun a => complete (s.setBuf (s.buf.writeBytes a (bytes32 (s.raw rt))))

/-- LDG1 (R147). -/
def execLdg1 (rt : Fin 8) (addr : BitVec 15) (s : State) : Result :=
  withRegion addr 64 s fun a =>
    match parseG1 (s.buf.readBytes a 64) with
    | some P => complete (s.setG rt (g1Words P))
    | none => raise .invalidPoint s

/-- STG1 (R148). -/
def execStg1 (rt : Fin 8) (addr : BitVec 15) (s : State) : Result :=
  withRegion addr 64 s fun a => complete (s.setBuf (s.buf.writeBytes a (encG1 (s.point1 rt))))

/-- LDG2 (R152). -/
def execLdg2 (rt : Fin 4) (addr : BitVec 15) (s : State) : Result :=
  withRegion addr 128 s fun a =>
    match parseG2 s.params.wireOrder (s.buf.readBytes a 128) with
    | some P => complete (s.setH rt (g2Words P))
    | none => raise .invalidPoint s

/-- STG2 (R153). -/
def execStg2 (rt : Fin 4) (addr : BitVec 15) (s : State) : Result :=
  withRegion addr 128 s fun a =>
    complete (s.setBuf (s.buf.writeBytes a (encG2 s.params.wireOrder (s.point2 rt))))

end Sys2Proof.Machine
end

