-- ==== Sys2Proof/Machine/Poseidon.lean ====
section
/-! DEFINITION. The Poseidon permutation and hash over any record `POS` (43_poseidon.md R180, R182), and the two commands
that compute them (R181, R183). -/

namespace Sys2Proof.Machine

/-- The S-box: the power `x^ALPHA` modulo `r`. -/
def sbox (pos : Pos) (x : Nat) : Nat := powMod Config.r x pos.alpha

/-- Add the three round constants of round `rnd`, which start at position `3*rnd` of `RC`. -/
def addConstants (pos : Pos) (rnd : Nat) (s : Vec3 Nat) : Vec3 Nat :=
  ⟨addMod Config.r s.x0 (pos.rc.getD (3 * rnd) 0), addMod Config.r s.x1 (pos.rc.getD (3 * rnd + 1) 0),
   addMod Config.r s.x2 (pos.rc.getD (3 * rnd + 2) 0)⟩

/-- Whether round `rnd` is a full round: one of the first half of them, or after the partial rounds. -/
def fullRound (pos : Pos) (rnd : Nat) : Bool := decide (rnd < pos.rf / 2 ∨ pos.rf / 2 + pos.rp ≤ rnd)

/-- The S-box layer: on every element in a full round, on element 0 in a partial one. -/
def sboxLayer (pos : Pos) (rnd : Nat) (s : Vec3 Nat) : Vec3 Nat :=
  if fullRound pos rnd then ⟨sbox pos s.x0, sbox pos s.x1, sbox pos s.x2⟩ else ⟨sbox pos s.x0, s.x1, s.x2⟩

/-- One row of the matrix times the state, modulo `r`. -/
def mixRow (row s : Vec3 Nat) : Nat := (row.x0 * s.x0 + row.x1 * s.x1 + row.x2 * s.x2) % Config.r

/-- The mixing matrix, applied in every round. -/
def mix (pos : Pos) (s : Vec3 Nat) : Vec3 Nat := ⟨mixRow pos.mds.x0 s, mixRow pos.mds.x1 s, mixRow pos.mds.x2 s⟩

/-- Round `rnd`: add constants, S-box, mix. -/
def poseidonRound (pos : Pos) (rnd : Nat) (s : Vec3 Nat) : Vec3 Nat :=
  mix pos (sboxLayer pos rnd (addConstants pos rnd s))

/-- `n` rounds from round `rnd` on. -/
def poseidonRounds (pos : Pos) : Nat → Nat → Vec3 Nat → Vec3 Nat
  | 0, _, s => s
  | n + 1, rnd, s => poseidonRounds pos n (rnd + 1) (poseidonRound pos rnd s)

/-- `PoseidonPerm(s)` (R180). -/
def poseidonPerm (pos : Pos) (s : Vec3 Nat) : Vec3 Nat := poseidonRounds pos (pos.rf + pos.rp) 0 s

/-- `PoseidonHash(x0, x1)` (R182): capacity 0 in element 0, the result in element 0. -/
def poseidonHash (pos : Pos) (x0 x1 : Nat) : Nat := (poseidonPerm pos ⟨0, x0, x1⟩).x0

/-- PPERM (R181). An index that leaves no room for three registers makes the word illegal (30_encoding.md R94), so the
decoder gives no such term; as a meaning of the term it raises the same error. -/
def execPperm (rd ra : Fin 16) (s : State) : Result :=
  if startsTriple rd && startsTriple ra then
    withElement .scalar ra s fun a0 =>
      withElement .scalar (ra + 1) s fun a1 =>
        withElement .scalar (ra + 2) s fun a2 =>
          let out := poseidonPerm s.params.pos ⟨fromMont .scalar a0, fromMont .scalar a1, fromMont .scalar a2⟩
          complete (((s.setF rd (montWord .scalar out.x0)).setF (rd + 1) (montWord .scalar out.x1)).setF (rd + 2)
            (montWord .scalar out.x2))
  else raise .illegalCommand s

/-- PHASH (R183). -/
def execPhash (rd ra rb : Fin 16) (s : State) : Result :=
  withElements .scalar ra rb s fun a b =>
    complete (s.setF rd (montWord .scalar (poseidonHash s.params.pos (fromMont .scalar a) (fromMont .scalar b))))

end Sys2Proof.Machine
end

