-- ==== Sys2Proof/Machine/System.lean ====
section
/-! DEFINITION. The system commands (46_system.md): NOP and WIPE. -/

namespace Sys2Proof.Machine

/-- NOP (R230): the bookkeeping of a complete step and nothing else. -/
def execNop (s : State) : Result := complete s

/-- One part of WIPE: erased where its selector bit is 1 (R231). -/
def wipePart (on : Bool) (erase : State → State) (s : State) : State := if on then erase s else s

/-- WIPE (R231): five independent parts, each to its reset value (10_state.md R40). -/
def execWipe (sel : BitVec 5) (s : State) : Result :=
  complete
    (wipePart (sel.getLsbD 4) (fun s => s.setBuf [])
      (wipePart (sel.getLsbD 3) (fun s => s.setAcc (accWords fq12One))
        (wipePart (sel.getLsbD 2) (fun s => { s with h := Vector.replicate 4 .inf })
          (wipePart (sel.getLsbD 1) (fun s => { s with g := Vector.replicate 8 .inf })
            (wipePart (sel.getLsbD 0) (fun s => { s with f := Vector.replicate 16 0 }) s)))))

end Sys2Proof.Machine
end

