-- ==== Sys2Proof/Machine/Dispatch.lean ====
section
/-! DEFINITION. One arm for each of the 35 commands of 30_encoding.md R95. -/

namespace Sys2Proof.Machine

def exec (i : Instr) (s : State) : Host.Outcome State Fault Refusal :=
  match i with
  | .nop => Sys2Proof.Machine.execNop s
  | .fadd fs rd ra rb => Sys2Proof.Machine.execFadd fs rd ra rb s
  | .fsub fs rd ra rb => Sys2Proof.Machine.execFsub fs rd ra rb s
  | .fneg fs rd ra => Sys2Proof.Machine.execFneg fs rd ra s
  | .fmul fs rd ra rb => Sys2Proof.Machine.execFmul fs rd ra rb s
  | .fsqr fs rd ra => Sys2Proof.Machine.execFsqr fs rd ra s
  | .finv fs rd ra => Sys2Proof.Machine.execFinv fs rd ra s
  | .fpow fs rd ra rb => Sys2Proof.Machine.execFpow fs rd ra rb s
  | .fisz fs ra => Sys2Proof.Machine.execFisz fs ra s
  | .feq fs ra rb => Sys2Proof.Machine.execFeq fs ra rb s
  | .ldf fs rt addr => Sys2Proof.Machine.execLdf fs rt addr s
  | .stf fs rt addr => Sys2Proof.Machine.execStf fs rt addr s
  | .ldraw rt addr => Sys2Proof.Machine.execLdraw rt addr s
  | .straw rt addr => Sys2Proof.Machine.execStraw rt addr s
  | .ldg1 rt addr => Sys2Proof.Machine.execLdg1 rt addr s
  | .stg1 rt addr => Sys2Proof.Machine.execStg1 rt addr s
  | .ldg2 rt addr => Sys2Proof.Machine.execLdg2 rt addr s
  | .stg2 rt addr => Sys2Proof.Machine.execStg2 rt addr s
  | .g1add rd ra rb => Sys2Proof.Machine.execG1add rd ra rb s
  | .g2add rd ra rb => Sys2Proof.Machine.execG2add rd ra rb s
  | .g1smul rd ra rb => Sys2Proof.Machine.execG1smul rd ra rb s
  | .g2smul rd ra rb => Sys2Proof.Machine.execG2smul rd ra rb s
  | .g1onc addr => Sys2Proof.Machine.execG1onc addr s
  | .g1subg addr => Sys2Proof.Machine.execG1subg addr s
  | .g2onc addr => Sys2Proof.Machine.execG2onc addr s
  | .g2subg addr => Sys2Proof.Machine.execG2subg addr s
  | .accone => Sys2Proof.Machine.execAccone s
  | .miller ra rb => Sys2Proof.Machine.execMiller ra rb s
  | .fexp => Sys2Proof.Machine.execFexp s
  | .pperm rd ra => Sys2Proof.Machine.execPperm rd ra s
  | .phash rd ra rb => Sys2Proof.Machine.execPhash rd ra rb s
  | .vkload addr => Sys2Proof.Machine.execVkload addr s
  | .vkclr => Sys2Proof.Machine.execVkclr s
  | .verify n addr => Sys2Proof.Machine.execVerify n addr s
  | .wipe sel => Sys2Proof.Machine.execWipe sel s

end Sys2Proof.Machine
end

