-- ==== Sys2Proof/Machine/Engine.lean ====
section
/-! DEFINITION. The engine's complete step (20_memory.md R70), and one turn of the machine: the next input of the outside
world, or the engine's step where the host waits. -/

namespace Sys2Proof.Machine

/-- `Exec(CMD)` (20_memory.md R70): decode the word in CMD (30_encoding.md R97), then the command's rule; an illegal word
completes with `IllegalCommand` (R96). -/
def completeStep (s : State) : Result :=
  match decode s.cmd with
  | .ok i => exec i s
  | .error _ => raise .illegalCommand s

/-- The inputs still to come become `l`. -/
def State.setHost (s : State) (l : List HostEvent) : State := { s with host := l }

/-- The engine's turn: its complete step where `BUSY = 1`, the only state that enables it (20_memory.md R70). A wait that
finds `BUSY = 0` is over at once (assumption 14). -/
def waitTurn (s : State) : Result := if s.busy then completeStep s else .next s

/-- The reset input (70_reset_and_hazards.md R270): the state of R271 whatever the engine was doing. The parameters are the
engine's, and the outside world's further inputs are its own (assumption 20). -/
def resetInput (s : State) : Result := .next ((State.resetWith s.params).setHost s.host)

/-- One input, the rest of them already taken off. -/
def hostTurn (e : HostEvent) (s : State) : Result :=
  match e with
  | .read w addr => hostRead w addr s
  | .write w addr v => hostWrite w addr v s
  | .wait => waitTurn s
  | .reset => resetInput s

/-- One turn of the machine. With no input left a busy engine completes its command (00_scope.md R10), and an idle one has
no enabled step (60_exceptions.md R266). -/
def turn (s : State) : Result :=
  match s.host with
  | e :: rest => hostTurn e (s.setHost rest)
  | [] => if s.busy then completeStep s else .fault .idle

/-- The state in which `w` has just been written to CMD and accepted (10_state.md R34), and the engine moves next. -/
def State.withCommand (s : State) (w : Reg32) : State := (s.issue w).setHost (.wait :: s.host)

end Sys2Proof.Machine
end

