-- ==== Sys2Proof/Machine/Step.lean ====
section
/-! DEFINITION. The step of the machine, and the state from which the next step runs a given command word. -/

namespace Sys2Proof.Machine

/-- One step: the next input of the outside world, or the engine's complete step (00_scope.md R10). -/
def step (s : State) : Host.Outcome State Fault Refusal := turn s

/-- `s` with the command word `w` in CMD and in flight, the engine to move next: what the host's write of CMD leaves when
it is accepted (10_state.md R34). The engine fetches nothing (R26). -/
def State.withFetchWord (s : State) (nbits w : Nat) : State := s.withCommand (BitVec.ofNat 32 (w % 2 ^ nbits))

end Sys2Proof.Machine
end

