-- ==== Sys2Proof/Machine/Cios.lean ====
section
/-! DEFINITION. The limb-interleaved Montgomery multiplication that 40_field.md R121 gives as one way to compute
`MontMul_p`, on four 64-bit limbs. The machine computes with `montMul`; this is the second form of the same function. -/

namespace Sys2Proof.Machine

/-- One limb. -/
def limb : Nat := 2 ^ 64

/-- `-p^-1 mod 2^64` (R121). -/
def pinv : FieldSel → Nat
  | .base => 0x87D20782E4866389
  | .scalar => 0xC2E1F593EFFFFFFF

/-- Limb `i` of a number, the least significant first. -/
def limbOf (n i : Nat) : Nat := n / limb ^ i % limb

/-- The working limbs `t[0] .. t[5]`. -/
structure CiosState where
  t0 : Nat
  t1 : Nat
  t2 : Nat
  t3 : Nat
  t4 : Nat
  t5 : Nat
deriving DecidableEq, Repr

/-- The first inner loop and the carry into `t[4]`, `t[5]`: `t <- t + a*b[i]`. -/
def ciosAdd (a bi : Nat) (t : CiosState) : CiosState :=
  let s0 := t.t0 + limbOf a 0 * bi
  let s1 := t.t1 + limbOf a 1 * bi + s0 / limb
  let s2 := t.t2 + limbOf a 2 * bi + s1 / limb
  let s3 := t.t3 + limbOf a 3 * bi + s2 / limb
  let s4 := t.t4 + s3 / limb
  ⟨s0 % limb, s1 % limb, s2 % limb, s3 % limb, s4 % limb, s4 / limb⟩

/-- The reduction: `m` makes the lowest limb zero, and the limbs move down by one. -/
def ciosReduce (fs : FieldSel) (t : CiosState) : CiosState :=
  let p := modulus fs
  let m := t.t0 * pinv fs % limb
  let s0 := t.t0 + m * limbOf p 0
  let s1 := t.t1 + m * limbOf p 1 + s0 / limb
  let s2 := t.t2 + m * limbOf p 2 + s1 / limb
  let s3 := t.t3 + m * limbOf p 3 + s2 / limb
  let s4 := t.t4 + s3 / limb
  ⟨s1 % limb, s2 % limb, s3 % limb, s4 % limb, t.t5 + s4 / limb, t.t5⟩

/-- One turn of the outer loop, with limb `i` of `b`. -/
def ciosTurn (fs : FieldSel) (a b i : Nat) (t : CiosState) : CiosState := ciosReduce fs (ciosAdd a (limbOf b i) t)

/-- The limbs `t[4..0]` as an integer. -/
def CiosState.value (t : CiosState) : Nat :=
  t.t0 + t.t1 * limb + t.t2 * limb ^ 2 + t.t3 * limb ^ 3 + t.t4 * limb ^ 4

/-- The whole method (R121): four turns, then one subtraction of `p` where the result is not below it. -/
def cios (fs : FieldSel) (a b : Nat) : Nat :=
  let t := ciosTurn fs a b 3 (ciosTurn fs a b 2 (ciosTurn fs a b 1 (ciosTurn fs a b 0 ⟨0, 0, 0, 0, 0, 0⟩)))
  if modulus fs ≤ t.value then t.value - modulus fs else t.value

end Sys2Proof.Machine
end

