-- ==== Sys2Proof/Machine/Assembler.lean ====
section
/-! DEFINITION. The assembler of 30_encoding.md R99 and R100: one line of text to the commands or directives it stands for.
Text is a list of characters. -/

namespace Sys2Proof

/-- What a line stands for: a command, or a directive of the host (R99). A `.expect` line is a check of the program's
reader and no operation. -/
inductive AsmItem where
  | command (i : Instr)
  | buf (addr : Nat) (bytes : List Byte)
  | len (v : Nat)
  | expect
deriving DecidableEq, Repr

/-- A space between tokens. -/
def isBlank (c : Char) : Bool := c = ' ' || c = '\t'

/-- A token without the spaces around it. -/
def trimmed (s : List Char) : List Char := ((s.dropWhile isBlank).reverse.dropWhile isBlank).reverse

/-- A line without its comment: a `#` starts one. -/
def uncommented (s : List Char) : List Char := trimmed (s.takeWhile (· ≠ '#'))

/-- The value of a hexadecimal digit, of either case. -/
def hexDigit (c : Char) : Option Nat :=
  if '0' ≤ c ∧ c ≤ '9' then some (c.toNat - '0'.toNat)
  else if 'a' ≤ c ∧ c ≤ 'f' then some (c.toNat - 'a'.toNat + 10)
  else if 'A' ≤ c ∧ c ≤ 'F' then some (c.toNat - 'A'.toNat + 10)
  else none

/-- The number digits spell in a base, from the value `v` of the digits before them. -/
def digitsFrom (base : Nat) : Nat → List Char → Option Nat
  | v, [] => some v
  | v, c :: cs =>
    match hexDigit c with
    | none => none
    | some d => if d < base then digitsFrom base (v * base + d) cs else none

/-- A number, decimal or `0x` hexadecimal, below `bound`. -/
def numberBelow (bound : Nat) (s : List Char) : Option Nat :=
  let v :=
    match s with
    | [] => none
    | ['0', 'x'] => none
    | '0' :: 'x' :: cs => digitsFrom 16 0 cs
    | cs => digitsFrom 10 0 cs
  match v with
  | none => none
  | some v => if v < bound then some v else none

/-- A register name of a file of `n` registers: the file's letter, then the index in decimal. -/
def register (letter : Char) (n : Nat) (s : List Char) : Option (Fin n) :=
  (List.finRange n).find? fun i => s = letter :: Nat.toDigits 10 i.val

/-- `f0 .. f15`. -/
def fName (s : List Char) : Option (Fin 16) := register 'f' 16 s

/-- `g0 .. g7`. -/
def gName (s : List Char) : Option (Fin 8) := register 'g' 8 s

/-- `h0 .. h3`. -/
def hName (s : List Char) : Option (Fin 4) := register 'h' 4 s

/-- A BUF address operand. -/
def addrOperand (s : List Char) : Option (BitVec 15) := (numberBelow (2 ^ 15) s).map (BitVec.ofNat 15)

/-- The commands that take the suffix `.q` or `.r`. -/
def fieldCommand (fs : FieldSel) (mn : List Char) (args : List (List Char)) : Option Instr :=
  match String.ofList mn, args with
  | "fadd", [d, a, b] => do return .fadd fs (← fName d) (← fName a) (← fName b)
  | "fsub", [d, a, b] => do return .fsub fs (← fName d) (← fName a) (← fName b)
  | "fneg", [d, a] => do return .fneg fs (← fName d) (← fName a)
  | "fmul", [d, a, b] => do return .fmul fs (← fName d) (← fName a) (← fName b)
  | "fsqr", [d, a] => do return .fsqr fs (← fName d) (← fName a)
  | "finv", [d, a] => do return .finv fs (← fName d) (← fName a)
  | "fpow", [d, a, b] => do return .fpow fs (← fName d) (← fName a) (← fName b)
  | "fisz", [a] => do return .fisz fs (← fName a)
  | "feq", [a, b] => do return .feq fs (← fName a) (← fName b)
  | "ldf", [t, a] => do return .ldf fs (← fName t) (← addrOperand a)
  | "stf", [t, a] => do return .stf fs (← fName t) (← addrOperand a)
  | _, _ => none

/-- The commands without a suffix. -/
def plainCommand (mn : List Char) (args : List (List Char)) : Option Instr :=
  match String.ofList mn, args with
  | "nop", [] => some .nop
  | "ldraw", [t, a] => do return .ldraw (← fName t) (← addrOperand a)
  | "straw", [t, a] => do return .straw (← fName t) (← addrOperand a)
  | "ldg1", [t, a] => do return .ldg1 (← gName t) (← addrOperand a)
  | "stg1", [t, a] => do return .stg1 (← gName t) (← addrOperand a)
  | "ldg2", [t, a] => do return .ldg2 (← hName t) (← addrOperand a)
  | "stg2", [t, a] => do return .stg2 (← hName t) (← addrOperand a)
  | "g1add", [d, a, b] => do return .g1add (← gName d) (← gName a) (← gName b)
  | "g2add", [d, a, b] => do return .g2add (← hName d) (← hName a) (← hName b)
  | "g1smul", [d, a, b] => do return .g1smul (← gName d) (← gName a) (← fName b)
  | "g2smul", [d, a, b] => do return .g2smul (← hName d) (← hName a) (← fName b)
  | "g1onc", [a] => (addrOperand a).map .g1onc
  | "g1subg", [a] => (addrOperand a).map .g1subg
  | "g2onc", [a] => (addrOperand a).map .g2onc
  | "g2subg", [a] => (addrOperand a).map .g2subg
  | "accone", [] => some .accone
  | "miller", [a, b] => do return .miller (← gName a) (← hName b)
  | "fexp", [] => some .fexp
  | "pperm", [d, a] => do return .pperm (← fName d) (← fName a)
  | "phash", [d, a, b] => do return .phash (← fName d) (← fName a) (← fName b)
  | "vkload", [a] => (addrOperand a).map .vkload
  | "vkclr", [] => some .vkclr
  | "verify", [n, a] => do return .verify (BitVec.ofNat 8 (← numberBelow (2 ^ 8) n)) (← addrOperand a)
  | "wipe", [s] => (numberBelow (2 ^ 5) s).map fun v => .wipe (BitVec.ofNat 5 v)
  | _, _ => none

/-- The pseudo-instruction `wipeall` (R100). -/
def wipeall : List Instr := [.wipe 0x1f]

/-- The pseudo-instruction `pairing ga, hb` (R100). -/
def pairingSequence (a : Fin 8) (b : Fin 4) : List Instr := [.accone, .miller a b, .fexp]

/-- A command line with its suffix taken off, or a pseudo-instruction (R100), as the commands it stands for. -/
def commands (mn : List Char) (suffix : List Char) (args : List (List Char)) : Option (List Instr) :=
  match suffix with
  | ['.', 'q'] => (fieldCommand .base mn args).map fun i => [i]
  | ['.', 'r'] => (fieldCommand .scalar mn args).map fun i => [i]
  | [] =>
    match String.ofList mn, args with
    | "wipeall", [] => some wipeall
    | "pairing", [a, b] => do return pairingSequence (← gName a) (← hName b)
    | _, _ => (plainCommand mn args).map fun i => [i]
  | _ => none

/-- Pairs of hexadecimal digits as bytes. -/
def hexBytes : List Char → Option (List Byte)
  | [] => some []
  | [_] => none
  | a :: b :: cs =>
    match hexDigit a, hexDigit b, hexBytes cs with
    | some x, some y, some bs => some (BitVec.ofNat 8 (x * 16 + y) :: bs)
    | _, _, _ => none

/-- A directive line (R99). -/
def directive (mn : List Char) (args : List (List Char)) : Option (List AsmItem) :=
  match String.ofList mn, args with
  | ".buf", [a, bs] => do return [.buf (← numberBelow (2 ^ 15) a) (← hexBytes bs)]
  | ".len", [v] => do return [.len (← numberBelow (2 ^ 32) v)]
  | ".expect", _ => some [.expect]
  | _, _ => none

/-- The operands of a line: nothing, or tokens separated by commas. -/
def operandTokens (s : List Char) : List (List Char) :=
  if trimmed s = [] then [] else (s.splitOn ',').map trimmed

/-- One line (R99): nothing for a blank one, `none` for a line outside the syntax. -/
def assembleLine (line : List Char) : Option (List AsmItem) :=
  let s := uncommented line
  let word := s.takeWhile fun c => !isBlank c
  let args := operandTokens (s.drop word.length)
  match word with
  | [] => some []
  | '.' :: _ => directive word args
  | _ =>
    let mn := word.takeWhile (· ≠ '.')
    (commands mn (word.drop mn.length) args).map fun is => is.map AsmItem.command

/-- A program text: its lines in order. -/
def assemble : List String → Option (List AsmItem)
  | [] => some []
  | l :: ls =>
    match assembleLine l.toList, assemble ls with
    | some a, some b => some (a ++ b)
    | _, _ => none

end Sys2Proof
end

