-- ==== Sys2Proof/Machine/Driver.lean ====
section
/-! DEFINITION. The host's side: the operations a host performs for a command and for a program (70_reset_and_hazards.md
R280), for initialisation (R273), and for each call of the public API (R283). Each is a list of inputs for `State.host`, to
an engine whose window begins at the bus address `base`. -/

namespace Sys2Proof.Machine

/-- A 32-bit write of the control register at the offset `off` (20_memory.md R62). -/
def writeReg (base off : Nat) (v : Reg32) : HostEvent := .write .word (base + off) (v.setWidth 64)

/-- A 32-bit read of the control register at the offset `off` (R62). -/
def readReg (base off : Nat) : HostEvent := .read .word (base + off)

/-- Byte writes to BUF from `a` on, in ascending address order (R63). R283 does not say what a driver does with bytes that
do not fit. The model's choice (assumption 22): it checks nothing, so that a byte above BUF but inside the window is ignored
(R68), and one past the window is a write that the bus refuses as `outsideWindow`. -/
def writeBytesEvents (base : Nat) : Nat → List Byte → List HostEvent
  | _, [] => []
  | a, b :: bs => .write .byte (base + bufWindow + a) (b.setWidth 64) :: writeBytesEvents base (a + 1) bs

/-- Byte reads of BUF from `a` on, in ascending address order (R63), with no check of the range, as in `writeBytesEvents`
(assumption 22). -/
def readBytesEvents (base : Nat) : Nat → Nat → List HostEvent
  | _, 0 => []
  | a, n + 1 => .read .byte (base + bufWindow + a) :: readBytesEvents base (a + 1) n

/-- A write of LEN, where the command needs one (R280 (1)). -/
def lenEvents (base : Nat) : Option Reg32 → List HostEvent
  | none => []
  | some v => [writeReg base 0x10 v]

/-- One command under the discipline of R280 (2) and (3): write CMD, then wait for completion. -/
def issueEvents (base : Nat) (i : Instr) : List HostEvent := [writeReg base 0x0C (encode i), .wait]

/-- One item of a program text (30_encoding.md R99). -/
def itemEvents (base : Nat) : AsmItem → List HostEvent
  | .command i => issueEvents base i
  | .buf a bs => writeBytesEvents base a bs
  | .len v => lenEvents base (some (BitVec.ofNat 32 v))
  | .expect => []

/-- A program: a sequence of host operations (00_scope.md R11). -/
def programEvents (base : Nat) (items : List AsmItem) : List HostEvent := items.flatMap (itemEvents base)

/-- `init()`: R273 (1) to (3), with interrupts left off. -/
def initEvents (base : Nat) : List HostEvent :=
  [.wait, readReg base 0x00, readReg base 0x18, writeReg base 0x08 0x00000002]

/-- `vk_load(bytes)` with the image at `a` (R283). -/
def vkLoadEvents (base : Nat) (a : BitVec 15) (image : List Byte) : List HostEvent :=
  writeBytesEvents base a.toNat image ++ lenEvents base (some (BitVec.ofNat 32 image.length)) ++
    issueEvents base (.vkload a)

/-- `verify(Handle, proof_bytes, public_input_bytes)` with the proof at `a` (R283): a proof that is not 256 bytes long, or
inputs that are not whole 32-byte elements, are refused before any command. That more inputs than `n` can count are refused
likewise is the model's choice (assumption 22). -/
def verifyEvents (base : Nat) (a : BitVec 15) (proof inputs : List Byte) : Except Err (List HostEvent) :=
  if proof.length ≠ 256 ∨ inputs.length % 32 ≠ 0 ∨ 32 * 255 < inputs.length then .error .outOfRange
  else
    .ok (writeBytesEvents base a.toNat (proof ++ inputs) ++
      issueEvents base (.verify (BitVec.ofNat 8 (inputs.length / 32)) a))

/-- `poseidon_commit(score, secret)`: the two 32-byte values at `a`, the commitment at `b`, then `wipe 0x11` (R283). The
address `a + 32` is taken in the 15 bits of a command word, and wraps where it does not fit: R283 does not say what a driver
does there (assumption 22). -/
def commitEvents (base : Nat) (a b : BitVec 15) (score secret : List Byte) : List HostEvent :=
  writeBytesEvents base a.toNat (score ++ secret) ++ issueEvents base (.ldf .scalar 0 a) ++
    issueEvents base (.ldf .scalar 1 (a + 32)) ++ issueEvents base (.phash 2 0 1) ++ issueEvents base (.stf .scalar 2 b) ++
    readBytesEvents base b.toNat 32 ++ issueEvents base (.wipe 0x11)

/-- `cleanup()` (R283). -/
def cleanupEvents (base : Nat) : List HostEvent := issueEvents base .vkclr ++ issueEvents base (.wipe 0x1f)

end Sys2Proof.Machine
end

