-- ==== Sys2Proof/Machine/Table.lean ====
section
/-! DEFINITION. The machine-readable table of 30_encoding.md R101, `spec/opcode_table.json`: for each of the 35 commands a
mask and the bits a word must have under it. It is a second description of the encoding beside the decoder. -/

namespace Sys2Proof

/-- One row of the table. -/
structure TableRow where
  mnemonic  : String
  matchBits : Reg32
  maskBits  : Reg32
deriving DecidableEq, Repr

/-- Whether a word matches a row: `(w AND mask) = match`. -/
def TableRow.covers (row : TableRow) (w : Reg32) : Bool := decide (w &&& row.maskBits = row.matchBits)

/-- The rows of NOP and the field commands. -/
def fieldRows : List TableRow :=
  [⟨"NOP", 0x00000000#32, 0xFFFFFFFF#32⟩,
   ⟨"FADD", 0x10000000#32, 0xFF78421F#32⟩,
   ⟨"FSUB", 0x11000000#32, 0xFF78421F#32⟩,
   ⟨"FNEG", 0x12000000#32, 0xFF7843FF#32⟩,
   ⟨"FMUL", 0x13000000#32, 0xFF78421F#32⟩,
   ⟨"FSQR", 0x14000000#32, 0xFF7843FF#32⟩,
   ⟨"FINV", 0x15000000#32, 0xFF7843FF#32⟩,
   ⟨"FPOW", 0x16000000#32, 0xFF78421F#32⟩,
   ⟨"FISZ", 0x17000000#32, 0xFF7FC3FF#32⟩,
   ⟨"FEQ", 0x18000000#32, 0xFF7FC21F#32⟩]

/-- The rows of the move commands. -/
def moveRows : List TableRow :=
  [⟨"LDF", 0x20000000#32, 0xFF780000#32⟩,
   ⟨"STF", 0x21000000#32, 0xFF780000#32⟩,
   ⟨"LDRAW", 0x22000000#32, 0xFFF80000#32⟩,
   ⟨"STRAW", 0x23000000#32, 0xFFF80000#32⟩,
   ⟨"LDG1", 0x24000000#32, 0xFFFC0000#32⟩,
   ⟨"STG1", 0x25000000#32, 0xFFFC0000#32⟩,
   ⟨"LDG2", 0x26000000#32, 0xFFFE0000#32⟩,
   ⟨"STG2", 0x27000000#32, 0xFFFE0000#32⟩]

/-- The rows of the curve commands. -/
def curveRows : List TableRow :=
  [⟨"G1ADD", 0x30000000#32, 0xFFFC631F#32⟩,
   ⟨"G2ADD", 0x31000000#32, 0xFFFE739F#32⟩,
   ⟨"G1SMUL", 0x32000000#32, 0xFFFC621F#32⟩,
   ⟨"G2SMUL", 0x33000000#32, 0xFFFE721F#32⟩,
   ⟨"G1ONC", 0x34000000#32, 0xFFFF8000#32⟩,
   ⟨"G1SUBG", 0x35000000#32, 0xFFFF8000#32⟩,
   ⟨"G2ONC", 0x36000000#32, 0xFFFF8000#32⟩,
   ⟨"G2SUBG", 0x37000000#32, 0xFFFF8000#32⟩]

/-- The rows of the pairing commands. -/
def pairingRows : List TableRow :=
  [⟨"ACCONE", 0x40000000#32, 0xFFFFFFFF#32⟩,
   ⟨"MILLER", 0x41000000#32, 0xFFFFE39F#32⟩,
   ⟨"FEXP", 0x42000000#32, 0xFFFFFFFF#32⟩]

/-- The rows of the Poseidon, Groth16 and system commands. -/
def otherRows : List TableRow :=
  [⟨"PPERM", 0x50000000#32, 0xFFF843FF#32⟩,
   ⟨"PHASH", 0x51000000#32, 0xFFF8421F#32⟩,
   ⟨"VKLOAD", 0x60000000#32, 0xFFFF8000#32⟩,
   ⟨"VKCLR", 0x61000000#32, 0xFFFFFFFF#32⟩,
   ⟨"VERIFY", 0x62000000#32, 0xFF008000#32⟩,
   ⟨"WIPE", 0x70000000#32, 0xFFFFFFE0#32⟩]

/-- The whole table. -/
def opcodeTable : List TableRow := fieldRows ++ moveRows ++ curveRows ++ pairingRows ++ otherRows

/-- The rows a word matches. -/
def coveringRows (w : Reg32) : List TableRow := opcodeTable.filter fun row => row.covers w

/-- PPERM's test, which no mask expresses (R101): both indices leave room for three registers. -/
def ppermTest (w : Reg32) : Bool := decide (bits w 19 15 ≤ 13 ∧ bits w 14 10 ≤ 13)

/-- The mnemonic of a command (R95). -/
def Instr.mnemonic : Instr → String
  | .nop => "NOP"
  | .fadd _ _ _ _ => "FADD"
  | .fsub _ _ _ _ => "FSUB"
  | .fneg _ _ _ => "FNEG"
  | .fmul _ _ _ _ => "FMUL"
  | .fsqr _ _ _ => "FSQR"
  | .finv _ _ _ => "FINV"
  | .fpow _ _ _ _ => "FPOW"
  | .fisz _ _ => "FISZ"
  | .feq _ _ _ => "FEQ"
  | .ldf _ _ _ => "LDF"
  | .stf _ _ _ => "STF"
  | .ldraw _ _ => "LDRAW"
  | .straw _ _ => "STRAW"
  | .ldg1 _ _ => "LDG1"
  | .stg1 _ _ => "STG1"
  | .ldg2 _ _ => "LDG2"
  | .stg2 _ _ => "STG2"
  | .g1add _ _ _ => "G1ADD"
  | .g2add _ _ _ => "G2ADD"
  | .g1smul _ _ _ => "G1SMUL"
  | .g2smul _ _ _ => "G2SMUL"
  | .g1onc _ => "G1ONC"
  | .g1subg _ => "G1SUBG"
  | .g2onc _ => "G2ONC"
  | .g2subg _ => "G2SUBG"
  | .accone => "ACCONE"
  | .miller _ _ => "MILLER"
  | .fexp => "FEXP"
  | .pperm _ _ => "PPERM"
  | .phash _ _ _ => "PHASH"
  | .vkload _ => "VKLOAD"
  | .vkclr => "VKCLR"
  | .verify _ _ => "VERIFY"
  | .wipe _ => "WIPE"

end Sys2Proof
end

