-- ==== Sys2Proof/Safety.lean ====
section
/-! DEFINITION. The terms claims are stated in: the invariants of the machine, the inputs the interface has, what a safe step
is, and the two shapes of a completed command. -/

namespace Sys2Proof.Machine

/-- The state a command leaves that raised `e` (60_exceptions.md R243): T, ERR, BUSY and DONE are written, nothing else. -/
abbrev failed (e : Err) (s : State) : State := { s with t := false, err := e, busy := false, done := true }

/-- The bookkeeping of a command that completes without error (20_memory.md R70). -/
abbrev completed (s : State) : State := { s with err := .ok, busy := false, done := true }

/-- The two conditions of the key store (10_state.md R28). -/
abbrev KeyStore.wf (icMax : Nat) (k : KeyStore) : Prop :=
  k = .empty icMax ∨
  (k.valid = true ∧ 1 ≤ k.icn ∧ k.icn ≤ icMax ∧ k.ic.length = icMax ∧ ∀ P ∈ k.ic.drop k.icn, P = .inf)

/-- The shape every reachable state has: parameters in range, BUF in canonical form and inside its size, a key store in one
of its two conditions, and never BUSY and DONE together (10_state.md R32, R34). -/
abbrev State.wf (s : State) : Prop :=
  s.params.Wf ∧ s.buf.wf ∧ (∀ c ∈ s.buf, c.1 < s.params.bufBytes) ∧ s.vk.wf s.params.icMax ∧
  ¬(s.busy = true ∧ s.done = true)

/-- Both coordinates of a G1 register are below `q`. -/
def g1Reduced : G1Reg → Bool
  | .inf => true
  | .aff x y => wordReduced x && wordReduced y

/-- All four halves of a G2 register are below `q`. -/
def g2Reduced : G2Reg → Bool
  | .inf => true
  | .aff x y => ext2Reduced x && ext2Reduced y

/-- All twelve words of ACC are below `q`. -/
def accReduced (a : AccReg) : Bool :=
  ext2Reduced a.c0 && ext2Reduced a.c1 && ext2Reduced a.c2 && ext2Reduced a.c3 && ext2Reduced a.c4 && ext2Reduced a.c5

/-- All coordinates of the key store are below `q`. -/
def KeyStore.reduced (k : KeyStore) : Bool :=
  g1Reduced k.alpha && g2Reduced k.beta && g2Reduced k.gamma && g2Reduced k.delta && k.ic.all g1Reduced

/-- Every Montgomery form the engine holds in a typed place is reduced (10_state.md R21, R23, R25, R28; 40_field.md R120). -/
abbrev State.reduced (s : State) : Prop :=
  (∀ i : Fin 8, g1Reduced (s.g.get i) = true) ∧ (∀ i : Fin 4, g2Reduced (s.h.get i) = true) ∧
  accReduced s.acc = true ∧ s.vk.reduced = true

/-- The invariant of the point registers and of the key store (10_state.md R24). -/
abbrev State.pointsValid (s : State) : Prop :=
  (∀ i : Fin 8, g1Valid (s.g.get i) = true) ∧ (∀ i : Fin 4, g2Valid (s.h.get i) = true) ∧ s.vk.pointsValid = true

/-- The element of BUF at `a`, digit by digit: 32 bytes, the most significant first (20_memory.md R64). -/
def wireValue (m : Memory) (a : Nat) : Nat := ∑ k ∈ Finset.range 32, (m.read (a + k)).toNat * 256 ^ (31 - k)

/-- Byte `k` of `BYTES32(v)` (00_scope.md R13). -/
def wireByte (v k : Nat) : Byte := BitVec.ofNat 8 (v / 256 ^ (31 - k))

/-- The 32 bytes of `m` at `a` spell `v`. -/
abbrev spells (m : Memory) (a v : Nat) : Prop := ∀ k < 32, m.read (a + k) = wireByte v k

/-- Outside the `n` bytes from `a` on, `m'` reads as `m`. -/
abbrev sameOutside (m m' : Memory) (a n : Nat) : Prop := ∀ b, b < a ∨ a + n ≤ b → m'.read b = m.read b

/-- `Fq2` as Mathlib has it: `u^2 = -1 + 0*u` over `ZMod q` (00_scope.md R14). -/
abbrev Fq2 := QuadraticAlgebra (ZMod Config.q) (-1) 0

/-- The element of `Fq2` a pair of integers stands for. -/
def toFq2 (a : Ext2 Nat) : Fq2 := ⟨(a.re : ZMod Config.q), (a.im : ZMod Config.q)⟩

/-- The G1 point a register holds, over `ZMod q`. -/
def g1Element : G1Reg → Pt (ZMod Config.q)
  | .inf => .inf
  | .aff x y => .aff (canonWord .base x : ZMod Config.q) (canonWord .base y : ZMod Config.q)

/-- The G2 point a register holds, over `Fq2`. -/
def g2Element : G2Reg → Pt Fq2
  | .inf => .inf
  | .aff x y => .aff (toFq2 (ext2Canon x)) (toFq2 (ext2Canon y))

/-- The group law as a relation over a field, in the cases of 42_curve.md R162: slopes are told by the equations they solve,
not by a formula with an inverse. -/
def groupLaw {K : Type} [CommRing K] : Pt K → Pt K → Pt K → Prop
  | .inf, S, T => T = S
  | .aff x y, .inf, T => T = .aff x y
  | .aff x1 y1, .aff x2 y2, T =>
    (x1 = x2 ∧ ¬(y1 = y2 ∧ y1 ≠ 0) ∧ T = .inf) ∨
    ∃ lam x3 y3, T = .aff x3 y3 ∧ x3 = lam * lam - x1 - x2 ∧ y3 = lam * (x1 - x3) - y1 ∧
      ((x1 = x2 ∧ y1 = y2 ∧ y1 ≠ 0 ∧ lam * (2 * y1) = 3 * x1 * x1) ∨ (x1 ≠ x2 ∧ lam * (x2 - x1) = y2 - y1))

/-- The line of 44_pairing.md R192 through the finite points `(xT, yT)` and `(xS, yS)`, evaluated at `(xP, yP)`, by its six
coefficients: vertical where `S = -T`, else of a slope told by the equation it solves. -/
def lineLaw {K : Type} [CommRing K] (xT yT xS yS xP yP : K) (l : Poly6 K) : Prop :=
  (xT = xS ∧ ¬(yT = yS ∧ yT ≠ 0) ∧ l = ⟨xP, 0, -xT, 0, 0, 0⟩) ∨
  ∃ lam, l = ⟨yP, -(lam * xP), 0, lam * xT - yT, 0, 0⟩ ∧
    ((xT = xS ∧ yT = yS ∧ yT ≠ 0 ∧ lam * (2 * yT) = 3 * xT * xT) ∨ (xT ≠ xS ∧ lam * (xS - xT) = yS - yT))

/-- The six coefficients over `Fq2` of an element of `Fq12`. -/
def toFq12 (a : Fq12) : Poly6 Fq2 :=
  ⟨toFq2 a.c0, toFq2 a.c1, toFq2 a.c2, toFq2 a.c3, toFq2 a.c4, toFq2 a.c5⟩

/-- The number the leading `k + 1` of the 65 bits of `6x + 2` spell (44_pairing.md R193): after `k` turns of the Miller loop
the running point is that multiple of `Q`. -/
def loopPrefix (k : Nat) : Nat := (6 * 4965661367192848881 + 2) / 2 ^ (64 - k)

/-- A line that R192 draws through two finite points and that is not vertical. -/
abbrev properLine (T S : TwistPt) : Prop := T ≠ .inf ∧ S ≠ .inf ∧ ptAdd fq2 T S ≠ .inf

/-- The sum of `k` terms `P`, one after the other from infinity (42_curve.md R164). -/
def repeatedSum {F : Type} [DecidableEq F] (K : CoordOps F) (P : Pt F) (k : Nat) : Pt F := (fun Q => ptAdd K Q P)^[k] .inf

/-- A sequence of commands, each run on what the one before it left. -/
def execAll : List Instr → State → Result
  | [], s => .next s
  | i :: is, s =>
    match exec i s with
    | .next t => execAll is t
    | .fault e => .fault e
    | .refused e => .refused e

/-- An input the interface of an engine at `base` has: any but an access that 20_memory.md R61 or R62 leaves outside it. -/
abbrev HostEvent.inInterface (base : Nat) (e : HostEvent) : Prop :=
  match e with
  | .read w addr => base ≤ addr ∧ offsetRefusal w (addr - base) = none
  | .write w addr _ => base ≤ addr ∧ offsetRefusal w (addr - base) = none
  | .wait => True
  | .reset => True

/-- A safe step: there is a next state, or the run is over (00_scope.md R11). -/
abbrev State.safeStep (s : State) : Prop := (∃ t, step s = .next t) ∨ step s = .fault .idle

end Sys2Proof.Machine
end

