-- ==== Sys2Proof/Certificates/Slice0/Obligations.lean ====
section
/-! DEFINITION. The statements for the provers, from the numbered rules of spec/, file by file. A result statement concludes
with the state `exec` answers, written out: every field it does not name is as before, which is its frame. -/

section

open Sys2Proof Sys2Proof.Machine

/-! ## Encoding (30_encoding.md) -/

/-- R91, R95: the decoder reads from every command's word exactly that command, whatever its operands. -/
def Obligations.EncodedCommandsDecode : Prop :=
  ∀ i : Instr, i.wellFormed = true → decode (encode i) = .ok i

/-- R98: a word the decoder accepts is the one word of its command, and the command is well formed. -/
def Obligations.DecodedWordsEncode : Prop :=
  ∀ (w : Reg32) (i : Instr), decode w = .ok i → i.wellFormed = true ∧ encode i = w

/-- R101: a word is a command exactly when it matches that command's row of the table, and for PPERM passes its test; no two
rows match the same word. -/
def Obligations.TableRowsDecideTheCommand : Prop :=
  (∀ w : Reg32, (coveringRows w).length ≤ 1) ∧
  (∀ (w : Reg32) (i : Instr), decode w = .ok i →
    (coveringRows w).map TableRow.mnemonic = [i.mnemonic] ∧ (i.mnemonic = "PPERM" → ppermTest w = true)) ∧
  (∀ (w : Reg32) (e : DecodeError), decode w = .error e →
    coveringRows w = [] ∨ ((coveringRows w).map TableRow.mnemonic = ["PPERM"] ∧ ppermTest w = false))

/-- R95, the worked encodings: each word, written out there, is the command it stands for. -/
def Obligations.WrittenOutWordsDecode : Prop :=
  decode 0x13018440#32 = .ok (.fmul .base 3 1 2) ∧ decode 0x13818440#32 = .ok (.fmul .scalar 3 1 2) ∧
  decode 0x20808040#32 = .ok (.ldf .scalar 1 0x040#15) ∧ decode 0x26008100#32 = .ok (.ldg2 1 0x100#15) ∧
  decode 0x320100A0#32 = .ok (.g1smul 2 0 5) ∧ decode 0x41000C20#32 = .ok (.miller 3 1) ∧
  decode 0x62020300#32 = .ok (.verify 2#8 0x300#15) ∧ decode 0x7000001F#32 = .ok (.wipe 0x1f#5) ∧
  decode 0x00000000#32 = .ok .nop

/-- R96: a word that matches no row of the table, or fails PPERM's test, and so every word with an unused opcode, completes
as `IllegalCommand` and changes nothing else, in every state. -/
def Obligations.IllegalWordsRaiseIllegalCommand : Prop :=
  (∀ (s : State) (w : Reg32),
    (coveringRows w = [] ∨ ((coveringRows w).map TableRow.mnemonic = ["PPERM"] ∧ ppermTest w = false)) →
    completeStep { s with cmd := w } = .next (failed .illegalCommand { s with cmd := w })) ∧
  (∀ w : Reg32,
    (0x01 ≤ bits w 31 24 ∧ bits w 31 24 ≤ 0x0F) ∨ (0x19 ≤ bits w 31 24 ∧ bits w 31 24 ≤ 0x1F) ∨
    (0x28 ≤ bits w 31 24 ∧ bits w 31 24 ≤ 0x2F) ∨ (0x38 ≤ bits w 31 24 ∧ bits w 31 24 ≤ 0x3F) ∨
    (0x43 ≤ bits w 31 24 ∧ bits w 31 24 ≤ 0x4F) ∨ (0x52 ≤ bits w 31 24 ∧ bits w 31 24 ≤ 0x5F) ∨
    (0x63 ≤ bits w 31 24 ∧ bits w 31 24 ≤ 0x6F) ∨ 0x71 ≤ bits w 31 24 → coveringRows w = [])

/-! ## The step, reset (20_memory.md, 70_reset_and_hazards.md) -/

/-- R70 and the model's agenda (assumption 2): where the host waits, or has no input left, the step of a busy engine is the
command that CMD decodes to, or `IllegalCommand`; so a well-formed command given to `withFetchWord` is what the next step
runs. An idle engine with no input has no step (R266); a wait that finds it idle is over at once; every other input is a turn
of its own. -/
def Obligations.StepRunsTheDecodedCommand : Prop :=
  (∀ (s : State) (rest : List HostEvent), s.busy = true →
    s.host = .wait :: rest ∨ (s.host = [] ∧ rest = []) →
    (∀ i, decode s.cmd = .ok i → step s = exec i { s with host := rest }) ∧
    (∀ e, decode s.cmd = .error e → step s = .next (failed .illegalCommand { s with host := rest }))) ∧
  (∀ (s : State) (i : Instr), i.wellFormed = true →
    step (s.withFetchWord 32 (encode i).toNat) = exec i { s with cmd := encode i, busy := true, done := false }) ∧
  (∀ s : State, s.busy = false → s.host = [] → step s = .fault .idle) ∧
  (∀ (s : State) (rest : List HostEvent), s.busy = false → s.host = .wait :: rest →
    step s = .next { s with host := rest }) ∧
  (∀ (s : State) (rest : List HostEvent) (w : BusWidth) (addr : Nat) (v : BitVec 64),
    (s.host = .read w addr :: rest → step s = hostRead w addr { s with host := rest }) ∧
    (s.host = .write w addr v :: rest → step s = hostWrite w addr v { s with host := rest }))

/-- R40, R271: every piece of state at reset, with the words the control registers show. `host` and `readData` are the
model's own (assumptions 2 and 3). -/
def Obligations.ResetStateIsAsStated : Prop :=
  ∀ p : Params,
    let s := State.resetWith p
    (∀ i : Fin 16, s.f.get i = 0#256) ∧ (∀ i : Fin 8, s.g.get i = .inf) ∧ (∀ i : Fin 4, s.h.get i = .inf) ∧
    accCanon s.acc = fq12One ∧ s.t = false ∧
    (s.vk.valid = false ∧ s.vk.icn = 0 ∧ s.vk.alpha = .inf ∧ s.vk.beta = .inf ∧ s.vk.gamma = .inf ∧ s.vk.delta = .inf ∧
      ∀ P ∈ s.vk.ic, P = .inf) ∧
    (∀ a, s.buf.read a = 0#8) ∧ s.ie = false ∧ s.busy = true ∧ s.done = false ∧ s.ovr = false ∧ s.err = .ok ∧
    s.readControl 0x00 = 0x4B4D0100#32 ∧ s.readControl 0x04 = 0#32 ∧ s.readControl 0x08 = 0x00000001#32 ∧
    s.readControl 0x0C = 0#32 ∧ s.readControl 0x10 = 0#32 ∧ s.readControl 0x14 = 0#32 ∧ s.irq = false ∧
    (p.Wf → (s.readControl 0x18).toNat = p.icMax * 2 ^ 16 + p.bufBytes) ∧
    s.params = p ∧ State.reset = .resetWith Config.params

/-- R272, R270: the first complete step after reset is that of a NOP; while it is pending a CMD or LEN write is refused; and
the reset input takes every state, busy or not, to the reset state. That it keeps the parameters and the inputs still to come,
and that `readData` is 0 after it, is the model's choice (assumptions 20 and 3), no part of R270. -/
def Obligations.ResetAndInitialisation : Prop :=
  (∀ p : Params, completeStep (.resetWith p) = .next (completed (.resetWith p))) ∧
  (∀ (p : Params) (v : Reg32),
    (State.resetWith p).writeCmd v = { State.resetWith p with ovr := true } ∧
    (State.resetWith p).writeLen v = { State.resetWith p with ovr := true }) ∧
  (∀ (s : State) (rest : List HostEvent), s.host = .reset :: rest →
    step s = .next { State.resetWith s.params with host := rest })

/-! ## Field commands (40_field.md) -/

/-- R123: FADD; its word is of format R with opcode 0x10. -/
def Obligations.FaddAddsModulo : Prop :=
  ∀ (fs : FieldSel) (rd ra rb : Fin 16) (s : State),
    (encode (.fadd fs rd ra rb)).toNat =
      0x10 * 2 ^ 24 + fsBit fs * 2 ^ 23 + rd.val * 2 ^ 15 + ra.val * 2 ^ 10 + rb.val * 2 ^ 5 ∧
    (s.raw ra < modulus fs → s.raw rb < modulus fs →
      ∃ w : Word, exec (.fadd fs rd ra rb) s = .next (completed { s with f := s.f.set rd w }) ∧
        w.toNat = (if s.raw ra + s.raw rb < modulus fs then s.raw ra + s.raw rb
                   else s.raw ra + s.raw rb - modulus fs) ∧
        canonWord fs w = (fromMont fs (s.raw ra) + fromMont fs (s.raw rb)) % modulus fs) ∧
    (modulus fs ≤ s.raw ra ∨ modulus fs ≤ s.raw rb →
      exec (.fadd fs rd ra rb) s = .next (failed .outOfRange s))

/-- R124: FSUB; opcode 0x11. -/
def Obligations.FsubSubtractsModulo : Prop :=
  ∀ (fs : FieldSel) (rd ra rb : Fin 16) (s : State),
    (encode (.fsub fs rd ra rb)).toNat =
      0x11 * 2 ^ 24 + fsBit fs * 2 ^ 23 + rd.val * 2 ^ 15 + ra.val * 2 ^ 10 + rb.val * 2 ^ 5 ∧
    (s.raw ra < modulus fs → s.raw rb < modulus fs →
      ∃ w : Word, exec (.fsub fs rd ra rb) s = .next (completed { s with f := s.f.set rd w }) ∧
        w.toNat = (if s.raw rb ≤ s.raw ra then s.raw ra - s.raw rb else s.raw ra + modulus fs - s.raw rb) ∧
        (canonWord fs w + fromMont fs (s.raw rb)) % modulus fs = fromMont fs (s.raw ra)) ∧
    (modulus fs ≤ s.raw ra ∨ modulus fs ≤ s.raw rb →
      exec (.fsub fs rd ra rb) s = .next (failed .outOfRange s))

/-- R125: FNEG; opcode 0x12, `rb` zero. -/
def Obligations.FnegNegatesModulo : Prop :=
  ∀ (fs : FieldSel) (rd ra : Fin 16) (s : State),
    (encode (.fneg fs rd ra)).toNat = 0x12 * 2 ^ 24 + fsBit fs * 2 ^ 23 + rd.val * 2 ^ 15 + ra.val * 2 ^ 10 ∧
    (s.raw ra < modulus fs →
      ∃ w : Word, exec (.fneg fs rd ra) s = .next (completed { s with f := s.f.set rd w }) ∧
        w.toNat = (if s.raw ra = 0 then 0 else modulus fs - s.raw ra) ∧
        (canonWord fs w + fromMont fs (s.raw ra)) % modulus fs = 0) ∧
    (modulus fs ≤ s.raw ra → exec (.fneg fs rd ra) s = .next (failed .outOfRange s))

/-- R126, R127, R121: FMUL writes the integer below `p` that is congruent to `a * b * R^-1`, the form of the product of the
elements its operands are forms of; FSQR is FMUL with both sources `ra`, in every case. Opcodes 0x13 and 0x14. -/
def Obligations.FmulMultipliesMontgomeryForms : Prop :=
  (∀ (fs : FieldSel) (rd ra rb : Fin 16) (s : State),
    (encode (.fmul fs rd ra rb)).toNat =
      0x13 * 2 ^ 24 + fsBit fs * 2 ^ 23 + rd.val * 2 ^ 15 + ra.val * 2 ^ 10 + rb.val * 2 ^ 5 ∧
    (s.raw ra < modulus fs → s.raw rb < modulus fs →
      ∃ w : Word, exec (.fmul fs rd ra rb) s = .next (completed { s with f := s.f.set rd w }) ∧
        w.toNat < modulus fs ∧ w.toNat * 2 ^ 256 % modulus fs = s.raw ra * s.raw rb % modulus fs ∧
        canonWord fs w = fromMont fs (s.raw ra) * fromMont fs (s.raw rb) % modulus fs) ∧
    (modulus fs ≤ s.raw ra ∨ modulus fs ≤ s.raw rb →
      exec (.fmul fs rd ra rb) s = .next (failed .outOfRange s))) ∧
  (∀ (fs : FieldSel) (rd ra : Fin 16) (s : State),
    (encode (.fsqr fs rd ra)).toNat = 0x14 * 2 ^ 24 + fsBit fs * 2 ^ 23 + rd.val * 2 ^ 15 + ra.val * 2 ^ 10 ∧
    exec (.fsqr fs rd ra) s = exec (.fmul fs rd ra ra) s ∧
    (s.raw ra < modulus fs →
      ∃ w : Word, exec (.fsqr fs rd ra) s = .next (completed { s with f := s.f.set rd w })) ∧
    (modulus fs ≤ s.raw ra → exec (.fsqr fs rd ra) s = .next (failed .outOfRange s)))

/-- R128: FINV writes the form of the `(p-2)`-th power, which is the inverse of an operand that is not zero, and zero for
zero; T tells which. -/
def Obligations.FinvInvertsOrGivesZero : Prop :=
  ∀ (fs : FieldSel) (rd ra : Fin 16) (s : State),
    (encode (.finv fs rd ra)).toNat = 0x15 * 2 ^ 24 + fsBit fs * 2 ^ 23 + rd.val * 2 ^ 15 + ra.val * 2 ^ 10 ∧
    (s.raw ra < modulus fs →
      ∃ w : Word, exec (.finv fs rd ra) s =
          .next (completed { s with f := s.f.set rd w, t := decide (s.raw ra ≠ 0) }) ∧
        w.toNat < modulus fs ∧
        canonWord fs w = fromMont fs (s.raw ra) ^ (modulus fs - 2) % modulus fs ∧
        (s.raw ra = 0 → w = 0#256) ∧
        (s.raw ra ≠ 0 → canonWord fs w * fromMont fs (s.raw ra) % modulus fs = 1 ∧
          w.toNat * s.raw ra % modulus fs = 2 ^ 256 * 2 ^ 256 % modulus fs)) ∧
    (modulus fs ≤ s.raw ra → exec (.finv fs rd ra) s = .next (failed .outOfRange s))

/-- R129: FPOW. The exponent is the raw integer, without a range check; the power with exponent 0 is one. -/
def Obligations.FpowRaisesToARawExponent : Prop :=
  ∀ (fs : FieldSel) (rd ra rb : Fin 16) (s : State),
    (s.raw ra < modulus fs →
      ∃ w : Word, exec (.fpow fs rd ra rb) s = .next (completed { s with f := s.f.set rd w }) ∧
        w.toNat < modulus fs ∧
        canonWord fs w = fromMont fs (s.raw ra) ^ s.raw rb % modulus fs ∧
        (s.raw rb = 0 → w.toNat = 2 ^ 256 % modulus fs) ∧
        (s.raw ra = 0 → s.raw rb ≠ 0 → w = 0#256)) ∧
    (modulus fs ≤ s.raw ra → exec (.fpow fs rd ra rb) s = .next (failed .outOfRange s))

/-- R130, R131: FISZ and FEQ write T and no register, and T is the answer about the elements the registers are forms of. -/
def Obligations.FieldPredicatesWriteT : Prop :=
  (∀ (fs : FieldSel) (ra : Fin 16) (s : State),
    (encode (.fisz fs ra)).toNat = 0x17 * 2 ^ 24 + fsBit fs * 2 ^ 23 + ra.val * 2 ^ 10 ∧
    (s.raw ra < modulus fs →
      exec (.fisz fs ra) s = .next (completed { s with t := decide (s.raw ra = 0) }) ∧
      (s.raw ra = 0 ↔ fromMont fs (s.raw ra) = 0)) ∧
    (modulus fs ≤ s.raw ra → exec (.fisz fs ra) s = .next (failed .outOfRange s))) ∧
  (∀ (fs : FieldSel) (ra rb : Fin 16) (s : State),
    (encode (.feq fs ra rb)).toNat = 0x18 * 2 ^ 24 + fsBit fs * 2 ^ 23 + ra.val * 2 ^ 10 + rb.val * 2 ^ 5 ∧
    (s.raw ra < modulus fs → s.raw rb < modulus fs →
      exec (.feq fs ra rb) s = .next (completed { s with t := decide (s.raw ra = s.raw rb) }) ∧
      (s.raw ra = s.raw rb ↔ fromMont fs (s.raw ra) = fromMont fs (s.raw rb))) ∧
    (modulus fs ≤ s.raw ra ∨ modulus fs ≤ s.raw rb →
      exec (.feq fs ra rb) s = .next (failed .outOfRange s)))

/-- R122: the conversions are inverse bijections of `[0, p)`, and both are Montgomery products. -/
def Obligations.MontgomeryConversions : Prop :=
  ∀ (fs : FieldSel) (v : Nat), v < modulus fs →
    toMont fs v < modulus fs ∧ fromMont fs v < modulus fs ∧ fromMont fs (toMont fs v) = v ∧
    toMont fs (fromMont fs v) = v ∧ toMont fs v = montMul fs v (2 ^ 256 * 2 ^ 256 % modulus fs) ∧
    fromMont fs v = montMul fs v 1 ∧ toMont fs 0 = 0 ∧ toMont fs 1 = 2 ^ 256 % modulus fs

/-- R121: the limb-interleaved method computes `MontMul_p` on all reduced operands. -/
def Obligations.CiosComputesMontMul : Prop :=
  ∀ (fs : FieldSel) (a b : Nat), a < modulus fs → b < modulus fs → cios fs a b = montMul fs a b

/-! ## Move commands (41_move.md) -/

/-- R140: a BUF access that does not lie wholly inside BUF raises `BadAddress` and does nothing else, for each of the
fourteen commands with an address, whatever else would stop it. -/
def Obligations.AddressesOutsideBufRaiseBadAddress : Prop :=
  ∀ (s : State) (addr : BitVec 15),
    (s.params.bufBytes < addr.toNat + 32 →
      (∀ fs rt, exec (.ldf fs rt addr) s = .next (failed .badAddress s)) ∧
      (∀ fs rt, exec (.stf fs rt addr) s = .next (failed .badAddress s)) ∧
      (∀ rt, exec (.ldraw rt addr) s = .next (failed .badAddress s)) ∧
      (∀ rt, exec (.straw rt addr) s = .next (failed .badAddress s))) ∧
    (s.params.bufBytes < addr.toNat + 64 →
      (∀ rt, exec (.ldg1 rt addr) s = .next (failed .badAddress s)) ∧
      (∀ rt, exec (.stg1 rt addr) s = .next (failed .badAddress s)) ∧
      exec (.g1onc addr) s = .next (failed .badAddress s) ∧ exec (.g1subg addr) s = .next (failed .badAddress s)) ∧
    (s.params.bufBytes < addr.toNat + 128 →
      (∀ rt, exec (.ldg2 rt addr) s = .next (failed .badAddress s)) ∧
      (∀ rt, exec (.stg2 rt addr) s = .next (failed .badAddress s)) ∧
      exec (.g2onc addr) s = .next (failed .badAddress s) ∧ exec (.g2subg addr) s = .next (failed .badAddress s)) ∧
    (∀ n : BitVec 8, s.params.bufBytes < addr.toNat + 256 + 32 * n.toNat →
      exec (.verify n addr) s = .next (failed .badAddress s)) ∧
    (s.params.bufBytes < addr.toNat + s.len.toNat → exec (.vkload addr) s = .next (failed .badAddress s))

/-- R141, R143: LDF loads the 32 bytes at `addr`, most significant first, as the Montgomery form of a value below the
modulus, else raises `OutOfRange`; LDRAW loads them as they are; both raise `BadAddress` for bytes outside BUF. Format M,
opcodes 0x20 and 0x22. -/
def Obligations.LoadsReadBigEndianElements : Prop :=
  ∀ (rt : Fin 16) (addr : BitVec 15) (s : State),
    (∀ fs,
      (encode (.ldf fs rt addr)).toNat = 0x20 * 2 ^ 24 + fsBit fs * 2 ^ 23 + rt.val * 2 ^ 15 + addr.toNat ∧
      (addr.toNat + 32 ≤ s.params.bufBytes → wireValue s.buf addr.toNat < modulus fs →
        ∃ w : Word, exec (.ldf fs rt addr) s = .next (completed { s with f := s.f.set rt w }) ∧
          w.toNat = wireValue s.buf addr.toNat * 2 ^ 256 % modulus fs) ∧
      (addr.toNat + 32 ≤ s.params.bufBytes → modulus fs ≤ wireValue s.buf addr.toNat →
        exec (.ldf fs rt addr) s = .next (failed .outOfRange s)) ∧
      (s.params.bufBytes < addr.toNat + 32 → exec (.ldf fs rt addr) s = .next (failed .badAddress s))) ∧
    (encode (.ldraw rt addr)).toNat = 0x22 * 2 ^ 24 + rt.val * 2 ^ 15 + addr.toNat ∧
    (addr.toNat + 32 ≤ s.params.bufBytes →
      ∃ w : Word, exec (.ldraw rt addr) s = .next (completed { s with f := s.f.set rt w }) ∧
        w.toNat = wireValue s.buf addr.toNat) ∧
    (s.params.bufBytes < addr.toNat + 32 → exec (.ldraw rt addr) s = .next (failed .badAddress s))

/-- R142, R144: STF writes the canonical value and STRAW the raw value as 32 big-endian bytes at `addr`, and no other byte;
STF refuses a register that is not below the modulus; both raise `BadAddress` for bytes outside BUF. Format M, opcodes 0x21
and 0x23. -/
def Obligations.StoresWriteBigEndianElements : Prop :=
  ∀ (rt : Fin 16) (addr : BitVec 15) (s : State), s.buf.wf →
    (∀ fs,
      (encode (.stf fs rt addr)).toNat = 0x21 * 2 ^ 24 + fsBit fs * 2 ^ 23 + rt.val * 2 ^ 15 + addr.toNat ∧
      (addr.toNat + 32 ≤ s.params.bufBytes → s.raw rt < modulus fs →
        ∃ m : Memory, exec (.stf fs rt addr) s = .next (completed { s with buf := m }) ∧
          spells m addr.toNat (fromMont fs (s.raw rt)) ∧ sameOutside s.buf m addr.toNat 32) ∧
      (addr.toNat + 32 ≤ s.params.bufBytes → modulus fs ≤ s.raw rt →
        exec (.stf fs rt addr) s = .next (failed .outOfRange s)) ∧
      (s.params.bufBytes < addr.toNat + 32 → exec (.stf fs rt addr) s = .next (failed .badAddress s))) ∧
    (encode (.straw rt addr)).toNat = 0x23 * 2 ^ 24 + rt.val * 2 ^ 15 + addr.toNat ∧
    (addr.toNat + 32 ≤ s.params.bufBytes →
      ∃ m : Memory, exec (.straw rt addr) s = .next (completed { s with buf := m }) ∧
        spells m addr.toNat (s.raw rt) ∧ sameOutside s.buf m addr.toNat 32) ∧
    (s.params.bufBytes < addr.toNat + 32 → exec (.straw rt addr) s = .next (failed .badAddress s))

/-- R142, corner case: STF after LDF with the same field writes back the bytes that were loaded. -/
def Obligations.StfRestoresWhatLdfLoaded : Prop :=
  ∀ (fs : FieldSel) (rt : Fin 16) (addr : BitVec 15) (s : State), s.buf.wf →
    addr.toNat + 32 ≤ s.params.bufBytes → wireValue s.buf addr.toNat < modulus fs →
    ∃ t u, exec (.ldf fs rt addr) s = .next t ∧ exec (.stf fs rt addr) t = .next u ∧ t.err = .ok ∧ u.err = .ok ∧
      ∀ a, u.buf.read a = s.buf.read a

/-- R145, R147: LDG1 loads infinity from zero bytes, and the Montgomery forms of an affine pair below `q` that solves the
curve equation and that `r` takes to infinity; every other string raises `InvalidPoint` and leaves the register. -/
def Obligations.Ldg1LoadsValidPoints : Prop :=
  ∀ (rt : Fin 8) (addr : BitVec 15) (s : State), addr.toNat + 64 ≤ s.params.bufBytes →
    let x := wireValue s.buf addr.toNat
    let y := wireValue s.buf (addr.toNat + 32)
    let onTheCurve := x < Config.q ∧ y < Config.q ∧ y * y % Config.q = (x * x * x + 3) % Config.q
    (x = 0 ∧ y = 0 → exec (.ldg1 rt addr) s = .next (completed { s with g := s.g.set rt .inf })) ∧
    (onTheCurve ∧ ptMul fq Config.r (.aff x y) = .inf →
      ∃ wx wy : Word, exec (.ldg1 rt addr) s = .next (completed { s with g := s.g.set rt (.aff wx wy) }) ∧
        wx.toNat = x * 2 ^ 256 % Config.q ∧ wy.toNat = y * 2 ^ 256 % Config.q) ∧
    (¬(x = 0 ∧ y = 0) → ¬(onTheCurve ∧ ptMul fq Config.r (.aff x y) = .inf) →
      exec (.ldg1 rt addr) s = .next (failed .invalidPoint s))

/-- R149, R150, R152: LDG2, with the halves of a coordinate in the wire order of the engine. -/
def Obligations.Ldg2LoadsValidPoints : Prop :=
  ∀ (rt : Fin 4) (addr : BitVec 15) (s : State), addr.toNat + 128 ≤ s.params.bufBytes →
    let e := fun k => wireValue s.buf (addr.toNat + 32 * k)
    let x : Ext2 Nat := if s.params.wireOrder = .c1First then ⟨e 1, e 0⟩ else ⟨e 0, e 1⟩
    let y : Ext2 Nat := if s.params.wireOrder = .c1First then ⟨e 3, e 2⟩ else ⟨e 2, e 3⟩
    let onTheTwist := (∀ k < 4, e k < Config.q) ∧
      toFq2 y * toFq2 y = toFq2 x * toFq2 x * toFq2 x + toFq2 Config.b2
    ((∀ k < 4, e k = 0) → exec (.ldg2 rt addr) s = .next (completed { s with h := s.h.set rt .inf })) ∧
    (onTheTwist ∧ ptMul fq2 Config.r (.aff x y) = .inf →
      ∃ wx wy : Ext2 Word, exec (.ldg2 rt addr) s = .next (completed { s with h := s.h.set rt (.aff wx wy) }) ∧
        wx.re.toNat = x.re * 2 ^ 256 % Config.q ∧ wx.im.toNat = x.im * 2 ^ 256 % Config.q ∧
        wy.re.toNat = y.re * 2 ^ 256 % Config.q ∧ wy.im.toNat = y.im * 2 ^ 256 % Config.q) ∧
    (¬(∀ k < 4, e k = 0) → ¬(onTheTwist ∧ ptMul fq2 Config.r (.aff x y) = .inf) →
      exec (.ldg2 rt addr) s = .next (failed .invalidPoint s))

/-- R146, R148, R151, R153: STG1 and STG2 write the wire form of the point, zero bytes for infinity, and no other byte. -/
def Obligations.PointStoresWriteTheWireForm : Prop :=
  (∀ (rt : Fin 8) (addr : BitVec 15) (s : State), s.buf.wf → addr.toNat + 64 ≤ s.params.bufBytes →
    ∃ m : Memory, exec (.stg1 rt addr) s = .next (completed { s with buf := m }) ∧ sameOutside s.buf m addr.toNat 64 ∧
      (s.g.get rt = .inf → ∀ k < 64, m.read (addr.toNat + k) = 0#8) ∧
      (∀ x y, s.g.get rt = .aff x y →
        spells m addr.toNat (canonWord .base x) ∧ spells m (addr.toNat + 32) (canonWord .base y))) ∧
  (∀ (rt : Fin 4) (addr : BitVec 15) (s : State), s.buf.wf → addr.toNat + 128 ≤ s.params.bufBytes →
    ∃ m : Memory, exec (.stg2 rt addr) s = .next (completed { s with buf := m }) ∧ sameOutside s.buf m addr.toNat 128 ∧
      (s.h.get rt = .inf → ∀ k < 128, m.read (addr.toNat + k) = 0#8) ∧
      (∀ x y, s.h.get rt = .aff x y → s.params.wireOrder = .c1First →
        spells m addr.toNat (canonWord .base x.im) ∧ spells m (addr.toNat + 32) (canonWord .base x.re) ∧
        spells m (addr.toNat + 64) (canonWord .base y.im) ∧ spells m (addr.toNat + 96) (canonWord .base y.re)) ∧
      (∀ x y, s.h.get rt = .aff x y → s.params.wireOrder = .c0First →
        spells m addr.toNat (canonWord .base x.re) ∧ spells m (addr.toNat + 32) (canonWord .base x.im) ∧
        spells m (addr.toNat + 64) (canonWord .base y.re) ∧ spells m (addr.toNat + 96) (canonWord .base y.im)))

/-- R146, R151: a point a register can hold (10_state.md R24), stored and loaded back, is the same point bit for bit. -/
def Obligations.StoredPointsLoadBack : Prop :=
  (∀ (rt rt' : Fin 8) (addr : BitVec 15) (s : State), s.buf.wf → addr.toNat + 64 ≤ s.params.bufBytes →
    g1Valid (s.g.get rt) = true →
    ∃ t u, exec (.stg1 rt addr) s = .next t ∧ exec (.ldg1 rt' addr) t = .next u ∧ u.err = .ok ∧
      u.g.get rt' = s.g.get rt) ∧
  (∀ (rt rt' : Fin 4) (addr : BitVec 15) (s : State), s.buf.wf → addr.toNat + 128 ≤ s.params.bufBytes →
    g2Valid (s.h.get rt) = true →
    ∃ t u, exec (.stg2 rt addr) s = .next t ∧ exec (.ldg2 rt' addr) t = .next u ∧ u.err = .ok ∧
      u.h.get rt' = s.h.get rt)

/-! ## Curve commands (42_curve.md) -/

/-- R162, R165: G1ADD is the group law over `Fq`; infinity returns the other operand bit for bit. -/
def Obligations.G1addIsTheGroupLaw : Prop :=
  ∀ (rd ra rb : Fin 8) (s : State),
    ∃ P : G1Reg, exec (.g1add rd ra rb) s = .next (completed { s with g := s.g.set rd P }) ∧ g1Reduced P = true ∧
      groupLaw (g1Element (s.g.get ra)) (g1Element (s.g.get rb)) (g1Element P) ∧
      (s.g.get ra = .inf → g1Reduced (s.g.get rb) = true → P = s.g.get rb) ∧
      (s.g.get rb = .inf → g1Reduced (s.g.get ra) = true → P = s.g.get ra)

/-- R163, R166: G2ADD is the group law over `Fq2`; infinity returns the other operand bit for bit. -/
def Obligations.G2addIsTheGroupLaw : Prop :=
  ∀ (rd ra rb : Fin 4) (s : State),
    ∃ P : G2Reg, exec (.g2add rd ra rb) s = .next (completed { s with h := s.h.set rd P }) ∧ g2Reduced P = true ∧
      groupLaw (g2Element (s.h.get ra)) (g2Element (s.h.get rb)) (g2Element P) ∧
      (s.h.get ra = .inf → g2Reduced (s.h.get rb) = true → P = s.h.get rb) ∧
      (s.h.get rb = .inf → g2Reduced (s.h.get ra) = true → P = s.h.get ra)

/-- R164, R167, R168: G1SMUL and G2SMUL complete in every state; on a point a register can hold (10_state.md R24) the result
is that point added to itself as often as the raw scalar says; scalar 0 and the point at infinity give infinity. -/
def Obligations.ScalarMultiplesAreRepeatedSums : Prop :=
  (∀ (rd ra : Fin 8) (rb : Fin 16) (s : State),
    ∃ P : G1Reg, exec (.g1smul rd ra rb) s = .next (completed { s with g := s.g.set rd P }) ∧
      (g1Valid (s.g.get ra) = true → P = g1Words (repeatedSum fq (s.point1 ra) (s.raw rb))) ∧
      (s.raw rb = 0 → P = .inf) ∧ (s.g.get ra = .inf → P = .inf)) ∧
  (∀ (rd ra : Fin 4) (rb : Fin 16) (s : State),
    ∃ P : G2Reg, exec (.g2smul rd ra rb) s = .next (completed { s with h := s.h.set rd P }) ∧
      (g2Valid (s.h.get ra) = true → P = g2Words (repeatedSum fq2 (s.point2 ra) (s.raw rb))) ∧
      (s.raw rb = 0 → P = .inf) ∧ (s.h.get ra = .inf → P = .inf))

/-- R164, R167, R216: on a point a register can hold, scalars that agree modulo `r` do the same; `r` gives infinity, `r + 1`
the point itself, and `r - 1` its negative. -/
def Obligations.ScalarsActModuloTheOrder : Prop :=
  (∀ (rd ra : Fin 8) (rb rb' : Fin 16) (s : State), g1Valid (s.g.get ra) = true →
    (s.raw rb % Config.r = s.raw rb' % Config.r → exec (.g1smul rd ra rb) s = exec (.g1smul rd ra rb') s) ∧
    (s.raw rb = Config.r → exec (.g1smul rd ra rb) s = .next (completed { s with g := s.g.set rd .inf })) ∧
    (s.raw rb = Config.r + 1 →
      exec (.g1smul rd ra rb) s = .next (completed { s with g := s.g.set rd (s.g.get ra) })) ∧
    (s.raw rb = Config.r - 1 →
      exec (.g1smul rd ra rb) s =
        .next (completed { s with g := s.g.set rd (g1Words (ptNeg fq (s.point1 ra))) }))) ∧
  (∀ (rd ra : Fin 4) (rb rb' : Fin 16) (s : State), g2Valid (s.h.get ra) = true →
    (s.raw rb % Config.r = s.raw rb' % Config.r → exec (.g2smul rd ra rb) s = exec (.g2smul rd ra rb') s) ∧
    (s.raw rb = Config.r → exec (.g2smul rd ra rb) s = .next (completed { s with h := s.h.set rd .inf })) ∧
    (s.raw rb = Config.r + 1 →
      exec (.g2smul rd ra rb) s = .next (completed { s with h := s.h.set rd (s.h.get ra) })) ∧
    (s.raw rb = Config.r - 1 →
      exec (.g2smul rd ra rb) s =
        .next (completed { s with h := s.h.set rd (g2Words (ptNeg fq2 (s.point2 ra))) })))

/-- R169, R171: G1ONC and G2ONC answer in T whether the bytes at `addr` are coordinates below `q` that are all zero or solve
the curve equation; a malformed candidate is an answer, not an error. -/
def Obligations.OnCurvePredicates : Prop :=
  (∀ (addr : BitVec 15) (s : State), addr.toNat + 64 ≤ s.params.bufBytes →
    let x := wireValue s.buf addr.toNat
    let y := wireValue s.buf (addr.toNat + 32)
    ∃ b : Bool, exec (.g1onc addr) s = .next (completed { s with t := b }) ∧
      (b = true ↔ x < Config.q ∧ y < Config.q ∧
        ((x = 0 ∧ y = 0) ∨ y * y % Config.q = (x * x * x + 3) % Config.q))) ∧
  (∀ (addr : BitVec 15) (s : State), addr.toNat + 128 ≤ s.params.bufBytes →
    let e := fun k => wireValue s.buf (addr.toNat + 32 * k)
    let x : Ext2 Nat := if s.params.wireOrder = .c1First then ⟨e 1, e 0⟩ else ⟨e 0, e 1⟩
    let y : Ext2 Nat := if s.params.wireOrder = .c1First then ⟨e 3, e 2⟩ else ⟨e 2, e 3⟩
    ∃ b : Bool, exec (.g2onc addr) s = .next (completed { s with t := b }) ∧
      (b = true ↔ (∀ k < 4, e k < Config.q) ∧
        ((∀ k < 4, e k = 0) ∨ toFq2 y * toFq2 y = toFq2 x * toFq2 x * toFq2 x + toFq2 Config.b2)))

/-- R170, R172: exactly the candidates with T = 1 under G1SUBG and G2SUBG are accepted by LDG1 and LDG2. -/
def Obligations.SubgroupPredicatesMatchTheLoads : Prop :=
  (∀ (addr : BitVec 15) (s : State), addr.toNat + 64 ≤ s.params.bufBytes →
    ∃ b : Bool, exec (.g1subg addr) s = .next (completed { s with t := b }) ∧
      ∀ rt, ∃ t, exec (.ldg1 rt addr) s = .next t ∧ (b = true ↔ t.err = .ok) ∧ (b = false ↔ t.err = .invalidPoint)) ∧
  (∀ (addr : BitVec 15) (s : State), addr.toNat + 128 ≤ s.params.bufBytes →
    ∃ b : Bool, exec (.g2subg addr) s = .next (completed { s with t := b }) ∧
      ∀ rt, ∃ t, exec (.ldg2 rt addr) s = .next t ∧ (b = true ↔ t.err = .ok) ∧ (b = false ↔ t.err = .invalidPoint))

/-- R160, R170: on G1 the subgroup test never rejects a point of the curve, since the whole group has order `r`; so G1SUBG
does what G1ONC does, in every state. -/
def Obligations.G1SubgroupTestIsTheCurveTest : Prop :=
  ∀ (addr : BitVec 15) (s : State), exec (.g1subg addr) s = exec (.g1onc addr) s

/-! ## Poseidon commands (43_poseidon.md) -/

/-- R180, for every record `POS` of the shape R9 gives: the permutation is its rounds in order, and a round adds three
constants, raises all elements (in a full round) or element 0 (in a partial one) to `ALPHA`, and applies the matrix. -/
def Obligations.PoseidonRoundsAsSpecified : Prop :=
  ∀ (pos : Pos) (s : Vec3 Nat), pos.Wf →
    poseidonPerm pos s = (List.range (pos.rf + pos.rp)).foldl (fun st rnd => poseidonRound pos rnd st) s ∧
    ∀ rnd < pos.rf + pos.rp,
      let full := rnd < pos.rf / 2 ∨ pos.rf / 2 + pos.rp ≤ rnd
      let c := fun k => ((pos.rc.getD (3 * rnd + k) 0 : Nat) : ZMod Config.r)
      let u0 := ((s.x0 : ZMod Config.r) + c 0) ^ pos.alpha
      let u1 := if full then ((s.x1 : ZMod Config.r) + c 1) ^ pos.alpha else (s.x1 : ZMod Config.r) + c 1
      let u2 := if full then ((s.x2 : ZMod Config.r) + c 2) ^ pos.alpha else (s.x2 : ZMod Config.r) + c 2
      let row := fun m : Vec3 Nat => (m.x0 : ZMod Config.r) * u0 + (m.x1 : ZMod Config.r) * u1 + (m.x2 : ZMod Config.r) * u2
      let out := poseidonRound pos rnd s
      (out.x0 : ZMod Config.r) = row pos.mds.x0 ∧ (out.x1 : ZMod Config.r) = row pos.mds.x1 ∧
      (out.x2 : ZMod Config.r) = row pos.mds.x2 ∧ out.x0 < Config.r ∧ out.x1 < Config.r ∧ out.x2 < Config.r

/-- R181, R94: PPERM reads all three sources before it writes, so overlapping ranges are as any other; an operand not below
`r` raises `OutOfRange`; an index that leaves no room for three registers is `IllegalCommand`. -/
def Obligations.PpermPermutesThreeRegisters : Prop :=
  ∀ (rd ra : Fin 16) (s : State),
    (rd.val ≤ 13 → ra.val ≤ 13 →
      s.raw ra < Config.r → s.raw (ra + 1) < Config.r → s.raw (ra + 2) < Config.r →
      ∃ f' : Vector Word 16, exec (.pperm rd ra) s = .next (completed { s with f := f' }) ∧
        (let out := poseidonPerm s.params.pos
          ⟨fromMont .scalar (s.raw ra), fromMont .scalar (s.raw (ra + 1)), fromMont .scalar (s.raw (ra + 2))⟩
        (f'.get rd).toNat = toMont .scalar out.x0 ∧ (f'.get (rd + 1)).toNat = toMont .scalar out.x1 ∧
        (f'.get (rd + 2)).toNat = toMont .scalar out.x2) ∧
        ∀ j : Fin 16, j.val < rd.val ∨ rd.val + 3 ≤ j.val → f'.get j = s.f.get j) ∧
    (rd.val ≤ 13 → ra.val ≤ 13 →
      Config.r ≤ s.raw ra ∨ Config.r ≤ s.raw (ra + 1) ∨ Config.r ≤ s.raw (ra + 2) →
      exec (.pperm rd ra) s = .next (failed .outOfRange s)) ∧
    (13 < rd.val ∨ 13 < ra.val →
      exec (.pperm rd ra) s = .next (failed .illegalCommand s) ∧ decode (encode (.pperm rd ra)) = .error .indexOutOfRange)

/-- R182, R183: PHASH writes element 0 of the permutation of `(0, x0, x1)`, in Montgomery form. -/
def Obligations.PhashHashesTwoElements : Prop :=
  ∀ (rd ra rb : Fin 16) (s : State),
    (s.raw ra < Config.r → s.raw rb < Config.r →
      ∃ w : Word, exec (.phash rd ra rb) s = .next (completed { s with f := s.f.set rd w }) ∧
        w.toNat = toMont .scalar
          (poseidonPerm s.params.pos ⟨0, fromMont .scalar (s.raw ra), fromMont .scalar (s.raw rb)⟩).x0) ∧
    (Config.r ≤ s.raw ra ∨ Config.r ≤ s.raw rb →
      exec (.phash rd ra rb) s = .next (failed .outOfRange s))

/-! ## Pairing commands (44_pairing.md) -/

/-- R194, R196, R198: ACCONE makes ACC one; FEXP raises it to `E`, with `E * r = q^12 - 1`, and T tells whether the new ACC
is one; after ACCONE alone that is so. -/
def Obligations.AcconeAndFexp : Prop :=
  Config.finalExponent * Config.r = Config.q ^ 12 - 1 ∧
  (∀ s : State, ∃ a : AccReg, exec .accone s = .next (completed { s with acc := a }) ∧
    accReduced a = true ∧ accCanon a = fq12One) ∧
  (∀ s : State, ∃ (a : AccReg) (b : Bool), exec .fexp s = .next (completed { s with acc := a, t := b }) ∧
    accReduced a = true ∧
    accCanon a = (fun z => fq12Mul z (accCanon s.acc))^[Config.finalExponent] fq12One ∧
    (b = true ↔ accCanon a = fq12One)) ∧
  (∀ s : State, ∃ t, execAll [.accone, .fexp] s = .next t ∧ t.t = true ∧ t.err = .ok ∧ accCanon t.acc = fq12One)

/-- R192, R193, R197, R199: a line is told by its coefficients; the Miller value of two finite valid points is the product of
the lines, over the bits of `6x + 2` below the leading 1 and the two closing lines, through multiples of `Q` and its Frobenius
images; MILLER multiplies it into ACC; infinity on either side leaves the element; the order of pairs does not matter;
register contents that are no points of the groups are refused, not computed. -/
def Obligations.MillerMultipliesOnePairing : Prop :=
  (∀ (xT yT xS yS : Ext2 Nat) (xP yP : Nat), (∀ c ∈ [xT, yT, xS, yS], c.re < Config.q ∧ c.im < Config.q) →
    lineLaw (toFq2 xT) (toFq2 yT) (toFq2 xS) (toFq2 yS) (toFq2 ⟨xP, 0⟩) (toFq2 ⟨yP, 0⟩)
      (toFq12 (lineValue (.aff xT yT) (.aff xS yS) xP yP))) ∧
  (∀ (ra : Fin 8) (rb : Fin 4) (s : State) (xP yP : Nat) (xQ yQ : Ext2 Nat),
    g1Valid (s.g.get ra) = true → g2Valid (s.h.get rb) = true → s.point1 ra = .aff xP yP → s.point2 rb = .aff xQ yQ →
    let Q := Pt.aff xQ yQ
    let mul := fun k => ptMul fq2 k Q
    let line := fun T S => lineValue T S xP yP
    ∃ F : Nat → Fq12, F 0 = fq12One ∧
      (∀ k < 64,
        let d := fq12Mul (fq12Mul (F k) (F k)) (line (mul (loopPrefix k)) (mul (loopPrefix k)))
        F (k + 1) = if loopPrefix (k + 1) % 2 = 1 then fq12Mul d (line (mul (2 * loopPrefix k)) Q) else d) ∧
      miller (.aff xP yP) Q =
        fq12Mul (fq12Mul (F 64) (line (mul (loopPrefix 64)) (frob1 Q)))
          (line (ptAdd fq2 (mul (loopPrefix 64)) (frob1 Q)) (ptNeg fq2 (frob2 Q)))) ∧
  (∀ (ra ra' : Fin 8) (rb rb' : Fin 4) (s : State),
    execAll [.miller ra rb, .miller ra' rb'] s = execAll [.miller ra' rb', .miller ra rb] s) ∧
  ∀ (ra : Fin 8) (rb : Fin 4) (s : State),
    (g1Valid (s.g.get ra) = true → g2Valid (s.h.get rb) = true →
      ∃ a : AccReg, exec (.miller ra rb) s = .next (completed { s with acc := a }) ∧ accReduced a = true ∧
        accCanon a = fq12Mul (accCanon s.acc) (miller (s.point1 ra) (s.point2 rb)) ∧
        (s.g.get ra = .inf ∨ s.h.get rb = .inf → accCanon a = accCanon s.acc)) ∧
    (g1Valid (s.g.get ra) = false ∨ g2Valid (s.h.get rb) = false →
      exec (.miller ra rb) s = .refused .pairingOffSubgroup)

/-- R195: one final exponentiation serves a product of Miller values; a pairing with infinity is one. So VERIFY's product of
four Miller values is one after `E` exactly when the product of the four pairings is (R216 (a)). -/
def Obligations.FinalExponentiationIsMultiplicative : Prop :=
  (∀ a b : Fq12, finalExp (fq12Mul a b) = fq12Mul (finalExp a) (finalExp b)) ∧
  (∀ (P : Pt Nat) (Q : TwistPt), P = .inf ∨ Q = .inf → pairing P Q = fq12One) ∧
  (∀ (k : KeyStore) (A : Pt Nat) (B : TwistPt) (C : Pt Nat) (xs : List Nat),
    groth16Accepts k A B C xs = true ↔
      fq12Mul (fq12Mul (fq12Mul (pairing (ptNeg fq A) B) (pairing (g1Canon k.alpha) (g2Canon k.beta)))
        (pairing (vkX k.ic xs) (g2Canon k.gamma))) (pairing C (g2Canon k.delta)) = fq12One)

/-- R191, R192: both Frobenius maps multiply the coordinates, or their conjugates, by the constants, which are the powers of
`xi` that the rule names, and send points of the twist to points of the twist; and on a point a register can hold
(10_state.md R24) every line of the Miller function goes through finite points and none is vertical. -/
def Obligations.FrobeniusKeepsTheTwist : Prop :=
  (∀ x y : Ext2 Nat,
    let conj := fun a : Ext2 Nat => (⟨(a.re : ZMod Config.q), -(a.im : ZMod Config.q)⟩ : Fq2)
    (∃ x' y', frob1 (.aff x y) = .aff x' y' ∧ toFq2 x' = conj x * toFq2 Config.g12 ∧
      toFq2 y' = conj y * toFq2 Config.g13 ∧
      (onCurve fq2 Config.b2 x y = true → onCurve fq2 Config.b2 x' y' = true)) ∧
    (∃ x' y', frob2 (.aff x y) = .aff x' y' ∧ toFq2 x' = toFq2 x * toFq2 Config.g22 ∧
      toFq2 y' = toFq2 y * toFq2 Config.g23 ∧
      (onCurve fq2 Config.b2 x y = true → onCurve fq2 Config.b2 x' y' = true))) ∧
  (toFq2 Config.g12 = toFq2 Config.xi ^ ((Config.q - 1) / 3) ∧
    toFq2 Config.g13 = toFq2 Config.xi ^ ((Config.q - 1) / 2) ∧
    toFq2 Config.g22 = toFq2 Config.xi ^ ((Config.q ^ 2 - 1) / 3) ∧
    toFq2 Config.g23 = toFq2 Config.xi ^ ((Config.q ^ 2 - 1) / 2) ∧ toFq2 Config.g23 = -1) ∧
  (∀ (rb : Fin 4) (s : State) (xQ yQ : Ext2 Nat), g2Valid (s.h.get rb) = true → s.point2 rb = .aff xQ yQ →
    let Q := Pt.aff xQ yQ
    let mul := fun k => ptMul fq2 k Q
    (∀ k < 64, properLine (mul (loopPrefix k)) (mul (loopPrefix k)) ∧
      (loopPrefix (k + 1) % 2 = 1 → properLine (mul (2 * loopPrefix k)) Q)) ∧
    properLine (mul (loopPrefix 64)) (frob1 Q) ∧
    properLine (ptAdd fq2 (mul (loopPrefix 64)) (frob1 Q)) (ptNeg fq2 (frob2 Q)))

/-! ## Groth16 commands (45_groth16.md) -/

/-- R210, R212: VKLOAD of a well-formed image stores the whole key. -/
def Obligations.VkloadStoresTheWholeKey : Prop :=
  ∀ (addr : BitVec 15) (s : State) (c : Nat) (al : Pt Nat) (be ga de : TwistPt) (ic : Nat → Pt Nat),
    addr.toNat + s.len.toNat ≤ s.params.bufBytes → s.len.toNat = 452 + 64 * c →
    c = (∑ k ∈ Finset.range 4, (s.buf.read (addr.toNat + 448 + k)).toNat * 256 ^ (3 - k)) → 1 ≤ c →
    c ≤ s.params.icMax →
    parseG1At s.buf addr.toNat = some al → parseG2At s.params.wireOrder s.buf (addr.toNat + 64) = some be →
    parseG2At s.params.wireOrder s.buf (addr.toNat + 192) = some ga →
    parseG2At s.params.wireOrder s.buf (addr.toNat + 320) = some de →
    (∀ i < c, parseG1At s.buf (addr.toNat + 452 + 64 * i) = some (ic i)) →
    ∃ k : KeyStore, exec (.vkload addr) s = .next (completed { s with vk := k }) ∧ k.valid = true ∧
      k.alpha = g1Words al ∧ k.beta = g2Words be ∧ k.gamma = g2Words ga ∧ k.delta = g2Words de ∧ k.icn = c ∧
      k.ic.length = s.params.icMax ∧ (∀ i < c, k.ic[i]? = some (g1Words (ic i))) ∧
      (∀ i, c ≤ i → i < s.params.icMax → k.ic[i]? = some .inf)

/-- R212, R243, 90_conflicts.md C3: a VKLOAD whose image is refused leaves the store empty, whatever it held, and reports the
first failed check; one that is refused for its address leaves the store. -/
def Obligations.VkloadFailureClearsTheKey : Prop :=
  ∀ (addr : BitVec 15) (s : State),
    let L := s.len.toNat
    let c := ∑ k ∈ Finset.range 4, (s.buf.read (addr.toNat + 448 + k)).toNat * 256 ^ (3 - k)
    let empty := KeyStore.empty s.params.icMax
    let fails := fun e => exec (.vkload addr) s = .next (failed e { s with vk := empty })
    (s.params.bufBytes < addr.toNat + L → exec (.vkload addr) s = .next (failed .badAddress s)) ∧
    (addr.toNat + L ≤ s.params.bufBytes →
      (L < 452 → fails .keyLoadFailed) ∧
      (452 ≤ L → c = 0 → fails .keyLoadFailed) ∧
      (452 ≤ L → c ≠ 0 → L ≠ 452 + 64 * c → fails .keyLoadFailed) ∧
      (L = 452 + 64 * c → c ≠ 0 → s.params.icMax < c → fails .allocationFailed) ∧
      (L = 452 + 64 * c → c ≠ 0 → c ≤ s.params.icMax →
        parseG1At s.buf addr.toNat = none ∨ parseG2At s.params.wireOrder s.buf (addr.toNat + 64) = none ∨
        parseG2At s.params.wireOrder s.buf (addr.toNat + 192) = none ∨
        parseG2At s.params.wireOrder s.buf (addr.toNat + 320) = none ∨
        (∃ i < c, parseG1At s.buf (addr.toNat + 452 + 64 * i) = none) → fails .keyLoadFailed))

/-- R214, R242: VERIFY's checks, in order; each failure leaves everything but T, ERR, BUSY and DONE. -/
def Obligations.VerifyChecksInOrder : Prop :=
  ∀ (n : BitVec 8) (addr : BitVec 15) (s : State), addr.toNat + 256 + 32 * n.toNat ≤ s.params.bufBytes →
    let A := parseG1At s.buf addr.toNat
    let B := parseG2At s.params.wireOrder s.buf (addr.toNat + 64)
    let C := parseG1At s.buf (addr.toNat + 192)
    let x := fun i => wireValue s.buf (addr.toNat + 256 + 32 * i)
    let fails := fun e => exec (.verify n addr) s = .next (failed e s)
    (s.vk.valid = false → fails .vkNotInitialized) ∧
    (s.vk.valid = true → A = none ∨ B = none ∨ C = none → fails .invalidPoint) ∧
    (s.vk.valid = true → A ≠ none → B ≠ none → C ≠ none → (∃ i < n.toNat, Config.r ≤ x i) → fails .outOfRange) ∧
    (s.vk.valid = true → A ≠ none → B ≠ none → C ≠ none → (∀ i < n.toNat, x i < Config.r) →
      n.toNat + 1 ≠ s.vk.icn → fails .badInputs)

/-- R214, R244: VERIFY of a well-formed proof against a loaded key writes T and nothing else, and T is 1 exactly when the
final exponentiation of the four Miller values is one. -/
def Obligations.VerifyDecidesThePairingEquation : Prop :=
  ∀ (n : BitVec 8) (addr : BitVec 15) (s : State) (A : Pt Nat) (B : TwistPt) (C : Pt Nat),
    addr.toNat + 256 + 32 * n.toNat ≤ s.params.bufBytes → s.vk.valid = true →
    parseG1At s.buf addr.toNat = some A → parseG2At s.params.wireOrder s.buf (addr.toNat + 64) = some B →
    parseG1At s.buf (addr.toNat + 192) = some C →
    (∀ i < n.toNat, wireValue s.buf (addr.toNat + 256 + 32 * i) < Config.r) → n.toNat + 1 = s.vk.icn →
    s.vk.pointsValid = true →
    let ic := fun i => g1Canon (s.vk.ic.getD i .inf)
    let vk_x := (List.range n.toNat).foldl
      (fun v i => ptAdd fq v (ptMul fq (wireValue s.buf (addr.toNat + 256 + 32 * i)) (ic (i + 1)))) (ic 0)
    let m := fq12Mul (fq12Mul (fq12Mul (miller (ptNeg fq A) B) (miller (g1Canon s.vk.alpha) (g2Canon s.vk.beta)))
      (miller vk_x (g2Canon s.vk.gamma))) (miller C (g2Canon s.vk.delta))
    ∃ b : Bool, exec (.verify n addr) s = .next (completed { s with t := b }) ∧ (b = true ↔ finalExp m = fq12One)

/-- R216 (b): with the points of a VERIFY in registers, `accone`, four `miller` and `fexp` give the same T. -/
def Obligations.VisiblePairingsReproduceVerify : Prop :=
  ∀ (n : BitVec 8) (addr : BitVec 15) (s u : State) (A : Pt Nat) (B : TwistPt) (C : Pt Nat),
    addr.toNat + 256 + 32 * n.toNat ≤ s.params.bufBytes → s.vk.valid = true → s.vk.pointsValid = true →
    parseG1At s.buf addr.toNat = some A → parseG2At s.params.wireOrder s.buf (addr.toNat + 64) = some B →
    parseG1At s.buf (addr.toNat + 192) = some C →
    (∀ i < n.toNat, wireValue s.buf (addr.toNat + 256 + 32 * i) < Config.r) → n.toNat + 1 = s.vk.icn →
    u.pointsValid → u.g.get 0 = g1Words (ptNeg fq A) → u.h.get 0 = g2Words B → u.g.get 1 = s.vk.alpha →
    u.h.get 1 = s.vk.beta → u.point1 2 = vkX s.vk.ic (readInputs s.buf (addr.toNat + 256) n.toNat) →
    u.h.get 2 = s.vk.gamma → u.g.get 3 = g1Words C → u.h.get 3 = s.vk.delta →
    ∃ t v, exec (.verify n addr) s = .next t ∧
      execAll [.accone, .miller 0 0, .miller 1 1, .miller 2 2, .miller 3 3, .fexp] u = .next v ∧
      t.t = v.t ∧ t.err = .ok ∧ v.err = .ok

/-! ## System commands (46_system.md), and VKCLR -/

/-- R213, R230: VKCLR empties the store, NOP does nothing, beyond the bookkeeping of a complete step; clearing an empty store
changes nothing; each has one spelling, and `0x00000001` is no NOP. -/
def Obligations.VkclrAndNop : Prop :=
  (∀ w : Reg32, decode w = .ok .nop ↔ w = 0x00000000#32) ∧ (∀ w : Reg32, decode w = .ok .vkclr ↔ w = 0x61000000#32) ∧
  (∀ s : State, ∃ k : KeyStore, exec .vkclr s = .next (completed { s with vk := k }) ∧ k = .empty s.params.icMax ∧
    k.valid = false ∧ k.icn = 0 ∧ k.alpha = .inf ∧ k.beta = .inf ∧ k.gamma = .inf ∧ k.delta = .inf ∧
    ∀ P ∈ k.ic, P = .inf) ∧
  (∀ s : State, s.vk = .empty s.params.icMax → exec .vkclr s = exec .nop s) ∧
  (∀ s : State, exec .nop s = .next (completed s)) ∧
  (∀ s : State, completeStep { s with cmd := 0x00000001#32 } =
    .next (failed .illegalCommand { s with cmd := 0x00000001#32 }))

/-- R231: WIPE takes each selected part to its reset value and leaves the others; T, VK and the control registers stay.
R270: `wipe 0x1f` and then `vkclr` bring all data state to its reset value. -/
def Obligations.WipeErasesSelectedParts : Prop :=
  (∀ (sel : BitVec 5) (s : State), ∃ t, exec (.wipe sel) s = .next (completed t) ∧
    (∀ i : Fin 16, t.f.get i = if sel.getLsbD 0 then 0#256 else s.f.get i) ∧
    (∀ i : Fin 8, t.g.get i = if sel.getLsbD 1 then .inf else s.g.get i) ∧
    (∀ i : Fin 4, t.h.get i = if sel.getLsbD 2 then .inf else s.h.get i) ∧
    (if sel.getLsbD 3 then accCanon t.acc = fq12One ∧ accReduced t.acc = true else t.acc = s.acc) ∧
    (∀ a, t.buf.read a = if sel.getLsbD 4 then 0#8 else s.buf.read a) ∧
    t = { s with f := t.f, g := t.g, h := t.h, acc := t.acc, buf := t.buf }) ∧
  (∀ s : State,
    let r := State.resetWith s.params
    execAll [.wipe 0x1f#5, .vkclr] s =
      .next (completed { s with f := r.f, g := r.g, h := r.h, acc := r.acc, vk := r.vk, buf := r.buf }))

/-! ## Errors and the flag (60_exceptions.md, 10_state.md) -/

/-- R243: whatever raises an error, T is cleared, ERR holds the code, BUSY falls, DONE rises, and nothing else changes, but
that the store is empty after a VKLOAD whose error is not `BadAddress`; an illegal word raises `IllegalCommand`. -/
def Obligations.ErrorsLeaveEverythingElse : Prop :=
  (∀ (i : Instr) (s t : State), exec i s = .next t → t.err ≠ .ok →
    ((∃ addr, i = .vkload addr) → t.err ≠ .badAddress → t = failed t.err { s with vk := .empty s.params.icMax }) ∧
    ((∀ addr, i ≠ .vkload addr) ∨ t.err = .badAddress → t = failed t.err s)) ∧
  (∀ (s : State) (e : DecodeError), decode s.cmd = .error e → completeStep s = .next (failed .illegalCommand s))

/-- R241: which command can raise which error. -/
def Obligations.ErrorsByCommand : Prop :=
  ∀ (i : Instr) (s t : State), i.wellFormed = true → exec i s = .next t →
    (t.err = .outOfRange → i.mnemonic ∈ ["FADD", "FSUB", "FNEG", "FMUL", "FSQR", "FINV", "FPOW", "FISZ", "FEQ", "LDF",
      "STF", "PPERM", "PHASH", "VERIFY"]) ∧
    (t.err = .invalidPoint → i.mnemonic ∈ ["LDG1", "LDG2", "VERIFY"]) ∧
    (t.err = .badInputs → i.mnemonic = "VERIFY") ∧ (t.err = .vkNotInitialized → i.mnemonic = "VERIFY") ∧
    (t.err = .keyLoadFailed → i.mnemonic = "VKLOAD") ∧ (t.err = .allocationFailed → i.mnemonic = "VKLOAD") ∧
    (t.err = .badAddress → i.mnemonic ∈ ["LDF", "STF", "LDRAW", "STRAW", "LDG1", "STG1", "LDG2", "STG2", "G1ONC",
      "G1SUBG", "G2ONC", "G2SUBG", "VKLOAD", "VERIFY"]) ∧
    t.err ≠ .illegalCommand

/-- R27: every command that completes with an error clears T; of those that complete without one, only the listed ones write
it. -/
def Obligations.FlagWriters : Prop :=
  ∀ (i : Instr) (s t : State), exec i s = .next t →
    (t.err ≠ .ok → t.t = false) ∧
    (t.err = .ok → t.t = s.t ∨
      i.mnemonic ∈ ["FISZ", "FEQ", "FINV", "G1ONC", "G1SUBG", "G2ONC", "G2SUBG", "FEXP", "VERIFY"])

/-- R20, R21, R23, R25, R28, R29: each register file, ACC, the key store and BUF is written by no command but those its
rule lists, and no command writes a register of the host's side, the parameters, or the inputs still to come. -/
def Obligations.StateWriters : Prop :=
  ∀ (i : Instr) (s t : State), exec i s = .next t →
    (t.f = s.f ∨ i.mnemonic ∈ ["FADD", "FSUB", "FNEG", "FMUL", "FSQR", "FINV", "FPOW", "LDF", "LDRAW", "PPERM", "PHASH",
      "WIPE"]) ∧
    (t.g = s.g ∨ i.mnemonic ∈ ["G1ADD", "G1SMUL", "LDG1", "WIPE"]) ∧
    (t.h = s.h ∨ i.mnemonic ∈ ["G2ADD", "G2SMUL", "LDG2", "WIPE"]) ∧
    (t.acc = s.acc ∨ i.mnemonic ∈ ["ACCONE", "MILLER", "FEXP", "WIPE"]) ∧
    (t.vk = s.vk ∨ i.mnemonic ∈ ["VKLOAD", "VKCLR"]) ∧
    (t.buf = s.buf ∨ i.mnemonic ∈ ["STF", "STRAW", "STG1", "STG2", "WIPE"]) ∧
    t.cmd = s.cmd ∧ t.len = s.len ∧ t.ie = s.ie ∧ t.ovr = s.ovr ∧ t.params = s.params ∧ t.host = s.host ∧
    t.readData = s.readData ∧ t.busy = false ∧ t.done = true

/-- R70: from every state whose points are valid (10_state.md R24), whatever the word in CMD, the complete step is taken; it
ends the command and raises the interrupt line where it is enabled (60_exceptions.md R246). -/
def Obligations.CompleteStepIsTotal : Prop :=
  ∀ s : State, s.pointsValid →
    ∃ t, completeStep s = .next t ∧ t.busy = false ∧ t.done = true ∧ t.cmd = s.cmd ∧ t.irq = s.ie

/-! ## Invariants (10_state.md) -/

/-- R28, R29, R32, R34: the shape of a state, kept by every step: parameters in range, BUF in canonical form and inside its
size, the store in one of its two conditions, never BUSY with DONE. -/
def Obligations.StepKeepsTheShape : Prop :=
  ∀ s t : State, s.wf → step s = .next t → t.wf

/-- R24: every point register and every point of the key store holds infinity or a point of its curve of order dividing `r`,
and every step keeps that; ACC stays reduced (R25). -/
def Obligations.StepKeepsPointsValid : Prop :=
  ∀ s t : State, s.pointsValid → accReduced s.acc = true → step s = .next t →
    t.pointsValid ∧ accReduced t.acc = true

/-- R24, R40: both invariants hold at reset, for all parameters in range; the model's own, with the sizes it
chose and POS and BASE left open, are in range (assumptions 1, 4 and 24). -/
def Obligations.ResetMeetsTheInvariants : Prop :=
  (∀ p : Params, p.Wf → (State.resetWith p).wf) ∧
  (∀ p : Params, (State.resetWith p).pointsValid ∧ accReduced (State.resetWith p).acc = true) ∧ State.reset.wf

/-! ## The host's side (10_state.md, 20_memory.md) -/

/-- R34, R35, R69: a write of CMD to an idle engine starts the command, and a write of LEN sets it; to a busy engine each is
discarded and sets OVR; reads return the held words at any time; the bits of the data above 31 are not carried. -/
def Obligations.CommandAndLengthRegisters : Prop :=
  ∀ (s : State) (rest : List HostEvent) (v : BitVec 64),
    (s.host = .write .word (s.params.base + 0x0C) v :: rest →
      (s.busy = false → step s = .next { s with host := rest, cmd := v.setWidth 32, busy := true, done := false }) ∧
      (s.busy = true → step s = .next { s with host := rest, ovr := true })) ∧
    (s.host = .write .word (s.params.base + 0x10) v :: rest →
      (s.busy = false → step s = .next { s with host := rest, len := v.setWidth 32 }) ∧
      (s.busy = true → step s = .next { s with host := rest, ovr := true })) ∧
    (s.host = .read .word (s.params.base + 0x0C) :: rest →
      step s = .next { s with host := rest, readData := s.cmd.setWidth 64 }) ∧
    (s.host = .read .word (s.params.base + 0x10) :: rest →
      step s = .next { s with host := rest, readData := s.len.setWidth 64 })

/-- R30 to R33, R36, R37, R39, R68, R71: the other control registers, busy or not. The bits of STATUS; DONE and OVR are
cleared by writing 1 and nothing else of STATUS is written; CTRL holds IE alone; ID, VKICN and CFG are read only; every other
aligned offset reads 0 and ignores writes. -/
def Obligations.ControlAndStatusRegisters : Prop :=
  (∀ s : State,
    (∀ k < 32, s.status.getLsbD k =
      (if k = 0 then s.busy else if k = 1 then s.done else if k = 2 then s.t else if k = 3 then s.vk.valid
       else if k = 4 then s.ovr else if 8 ≤ k ∧ k < 16 then s.err.code.getLsbD (k - 8) else false)) ∧
    s.irq = (s.status.getLsbD 1 && s.ctrl.getLsbD 0)) ∧
  (∀ (s : State) (rest : List HostEvent) (off : Nat) (v : BitVec 64), off < 0x8000 → off % 4 = 0 →
    (s.host = .read .word (s.params.base + off) :: rest →
      ∃ d : Reg32, step s = .next { s with host := rest, readData := d.setWidth 64 } ∧
        (off = 0x00 → d = 0x4B4D0100#32) ∧ (off = 0x04 → d.toNat = if s.ie then 1 else 0) ∧
        (off = 0x08 → d = s.status) ∧ (off = 0x14 → s.vk.icn < 2 ^ 32 → d.toNat = s.vk.icn) ∧
        (off = 0x18 → s.params.Wf → d.toNat = s.params.icMax * 2 ^ 16 + s.params.bufBytes) ∧
        (0x1C ≤ off → d = 0#32)) ∧
    (s.host = .write .word (s.params.base + off) v :: rest →
      (off = 0x04 → step s = .next { s with host := rest, ie := v.getLsbD 0 }) ∧
      (off = 0x08 →
        step s = .next { s with host := rest, done := (s.done && !v.getLsbD 1), ovr := (s.ovr && !v.getLsbD 4) }) ∧
      (off = 0x00 ∨ 0x14 ≤ off → step s = .next { s with host := rest })))

/-- R63, R65, R68, R69: an access of 1, 2, 4 or 8 bytes to the BUF window, wholly inside the window, is its byte accesses in
ascending order, the lowest address in the lowest lane. Idle: a read returns the bytes and changes nothing, a write writes
them and nothing else. Busy: a read returns zero and a write is discarded, and OVR is set if any byte is in BUF. Offsets
above BUF read 0 and ignore writes with no effect. That an access of 2, 4 or 8 bytes is one step, with no complete step between
its bytes, is the model's (assumption 12): R63 says that it is not atomic as a whole. -/
def Obligations.HostBufAccesses : Prop :=
  ∀ (s : State) (rest : List HostEvent) (w : BusWidth) (a : Nat) (v : BitVec 64), s.buf.wf →
    0x8000 + a + w.bytes ≤ 0x10000 →
    let addr := s.params.base + (0x8000 + a)
    let touched := a < s.params.bufBytes
    let seen := fun k => if a + k < s.params.bufBytes then (s.buf.read (a + k)).toNat else 0
    (s.host = .read w addr :: rest →
      (s.busy = false →
        let d := BitVec.ofNat 64 (∑ k ∈ Finset.range w.bytes, seen k * 256 ^ k)
        step s = .next { s with host := rest, readData := d }) ∧
      (s.busy = true →
        step s = .next { s with host := rest, readData := 0#64, ovr := (s.ovr || decide touched) })) ∧
    (s.host = .write w addr v :: rest →
      (s.busy = false → ∃ m : Memory, step s = .next { s with host := rest, buf := m } ∧
        ∀ b, m.read b = if a ≤ b ∧ b < a + w.bytes ∧ b < s.params.bufBytes
          then BitVec.ofNat 8 (v.toNat / 256 ^ (b - a)) else s.buf.read b) ∧
      (s.busy = true → step s = .next { s with host := rest, ovr := (s.ovr || decide touched) }))

/-- R69, R74 (c): while the engine is busy the host changes nothing a command reads or writes, and what it reads does not
depend on the registers, on ACC, on BUF or on the points of the key. -/
def Obligations.BusyEngineIsIsolated : Prop :=
  (∀ (s t : State) (e : HostEvent) (rest : List HostEvent), s.busy = true → s.host = e :: rest → e ≠ .wait →
    e ≠ .reset → step s = .next t →
    t.f = s.f ∧ t.g = s.g ∧ t.h = s.h ∧ t.acc = s.acc ∧ t.t = s.t ∧ t.vk = s.vk ∧ t.buf = s.buf ∧ t.cmd = s.cmd ∧
    t.len = s.len ∧ t.busy = true ∧ t.err = s.err ∧ t.params = s.params) ∧
  (∀ (s s' t t' : State) (e : HostEvent) (rest : List HostEvent), s.busy = true → s.host = e :: rest → e ≠ .wait →
    e ≠ .reset →
    (let key := { s'.vk with valid := s.vk.valid, icn := s.vk.icn }
    s' = { s with f := s'.f, g := s'.g, h := s'.h, acc := s'.acc, buf := s'.buf, vk := key }) →
    step s = .next t → step s' = .next t' →
    t.readData = t'.readData ∧ t.ie = t'.ie ∧ t.done = t'.done ∧ t.ovr = t'.ovr)

/-- R280: the host discipline runs a command: from an idle engine, the input bytes written to BUF, LEN written or not, the
word written to CMD and the wait together take the machine to what the command makes of the state with those bytes and that
length, and nothing is refused. R283: `vk_load` is that discipline, with the image's length in LEN. -/
def Obligations.DisciplineRunsTheCommand : Prop :=
  (∀ (s : State) (a : Nat) (bytes : List Byte) (len : Option Reg32) (i : Instr) (rest : List HostEvent),
    s.busy = false → i.wellFormed = true → s.params.Wf → a + bytes.length ≤ s.params.bufBytes →
    s.host = writeBytesEvents s.params.base a bytes ++ lenEvents s.params.base len ++ issueEvents s.params.base i ++ rest →
    core.run (bytes.length + len.toList.length + 2) s =
      exec i { s with buf := s.buf.writeBytes a bytes, len := len.getD s.len, cmd := encode i, busy := true
                      done := false, host := rest }) ∧
  (∀ (s : State) (a : BitVec 15) (image : List Byte) (rest : List HostEvent),
    s.busy = false → s.params.Wf → a.toNat + image.length ≤ s.params.bufBytes →
    s.host = vkLoadEvents s.params.base a image ++ rest →
    core.run (image.length + 3) s =
      exec (.vkload a) { s with buf := s.buf.writeBytes a.toNat image, len := BitVec.ofNat 32 image.length
                                cmd := encode (.vkload a), busy := true, done := false, host := rest })

/-- R62: a control access that is not an aligned 32-bit one is refused by name. The refusal of an access below `BASE` or past
the window's end is the model's choice (assumption 13; R61 says only that the engine fixes nothing there). Every other input
is answered by a next state where the points are valid. A step ends a run, by the model's own fault `idle` (assumption 2;
R266 says that an idle engine has no step), only where no input is left. -/
def Obligations.InterfaceInputsAreAnswered : Prop :=
  (∀ (s : State) (rest : List HostEvent) (w : BusWidth) (off : Nat) (v : BitVec 64),
    let addr := s.params.base + off
    (off < 0x8000 → ¬(w = .word ∧ off % 4 = 0) →
      (s.host = .read w addr :: rest → step s = .refused .controlAccess) ∧
      (s.host = .write w addr v :: rest → step s = .refused .controlAccess)) ∧
    (0x8000 ≤ off → 0x10000 < off + w.bytes →
      (s.host = .read w addr :: rest → step s = .refused .outsideWindow) ∧
      (s.host = .write w addr v :: rest → step s = .refused .outsideWindow))) ∧
  (∀ (s : State) (rest : List HostEvent) (w : BusWidth) (addr : Nat) (v : BitVec 64), addr < s.params.base →
    (s.host = .read w addr :: rest → step s = .refused .outsideWindow) ∧
    (s.host = .write w addr v :: rest → step s = .refused .outsideWindow)) ∧
  (∀ s : State, s.pointsValid → (∀ e ∈ s.host, e.inInterface s.params.base) → s.safeStep) ∧
  (∀ s : State, step s = .fault .idle ↔ s.host = [] ∧ s.busy = false)

end
end

