-- ==== Sys2Proof/Laws/Arith.lean ====
section
/-! SUPPORT. The ladder computes powers, the Montgomery conversions are inverse bijections below the modulus, and the moduli
are what 00_scope.md R7 says of them. -/

namespace Sys2Proof.Machine

/-! ## The constants -/

theorem modulus_pos (fs : FieldSel) : 1 < modulus fs := by cases fs <;> decide

theorem modulus_lt_radix (fs : FieldSel) : modulus fs < Config.radix := by cases fs <;> decide

theorem modulus_twice (fs : FieldSel) : 2 * modulus fs < 2 ^ 255 := by cases fs <;> decide

/-- `r < q < 2^254` (00_scope.md R7). -/
theorem r_lt_q : Config.r < Config.q := by decide

/-- `R * R^-1 = 1` modulo either prime (95_test_vectors.md section 2.1). -/
theorem radix_mul_rInv (fs : FieldSel) : Config.radix * rInv fs % modulus fs = 1 := by cases fs <;> decide

/-- A residue fits a register. -/
theorem toNat_wordOf {n : Nat} (h : n < Config.radix) : (wordOf n).toNat = n := by
  simp only [wordOf, BitVec.toNat_ofNat]
  exact Nat.mod_eq_of_lt h

theorem toNat_wordOf_mod (fs : FieldSel) (n : Nat) : (wordOf (n % modulus fs)).toNat = n % modulus fs :=
  toNat_wordOf (lt_trans (Nat.mod_lt _ (by have := modulus_pos fs; omega)) (modulus_lt_radix fs))

/-! ## Residues -/

theorem subMod_lt {p : Nat} (hp : 0 < p) (a b : Nat) : subMod p a b < p := Nat.mod_lt _ hp

theorem negMod_lt {p : Nat} (hp : 0 < p) (a : Nat) : negMod p a < p := Nat.mod_lt _ hp

/-- FSUB's two cases (40_field.md R124). -/
theorem subMod_eq {p a b : Nat} (ha : a < p) (hb : b < p) : subMod p a b = if b ≤ a then a - b else a + p - b := by
  unfold subMod
  rw [Nat.mod_eq_of_lt hb]
  split
  · rw [show a + (p - b) = (a - b) + p by omega, Nat.add_mod_right, Nat.mod_eq_of_lt (by omega)]
  · rw [Nat.mod_eq_of_lt (by omega)]; omega

/-- FNEG's two cases (40_field.md R125). -/
theorem negMod_eq {p a : Nat} (ha : a < p) : negMod p a = if a = 0 then 0 else p - a := by
  unfold negMod
  rw [Nat.mod_eq_of_lt ha]
  split
  · simp_all
  · exact Nat.mod_eq_of_lt (by omega)

/-! The residue operations are those of `ZMod p`. -/

theorem cast_mod (p a : Nat) : ((a % p : Nat) : ZMod p) = a := by simp

theorem cast_addMod (p a b : Nat) : ((addMod p a b : Nat) : ZMod p) = a + b := by simp [addMod]

theorem cast_mulMod (p a b : Nat) : ((mulMod p a b : Nat) : ZMod p) = a * b := by simp [mulMod]

theorem cast_subMod {p : Nat} (hp : 0 < p) (a b : Nat) : ((subMod p a b : Nat) : ZMod p) = a - b := by
  have hb : b % p ≤ p := (Nat.mod_lt b hp).le
  rw [subMod, cast_mod, Nat.cast_add, Nat.cast_sub hb, cast_mod]
  simp [sub_eq_add_neg]

theorem cast_negMod {p : Nat} (hp : 0 < p) (a : Nat) : ((negMod p a : Nat) : ZMod p) = -a := by
  have ha : a % p ≤ p := (Nat.mod_lt a hp).le
  rw [negMod, cast_mod, Nat.cast_sub ha, cast_mod]
  simp

/-- Two residues are equal when they are equal in `ZMod p`. -/
theorem eq_of_cast_eq {p a b : Nat} (ha : a < p) (hb : b < p) (h : (a : ZMod p) = b) : a = b := by
  have := (ZMod.natCast_eq_natCast_iff' a b p).mp h
  rwa [Nat.mod_eq_of_lt ha, Nat.mod_eq_of_lt hb] at this

/-! ## Powers -/

theorem ladder_zero_bits {α : Type} (op : α → α → α) (unit x : α) (k : Nat) : ladder op unit x 0 k = unit := rfl

/-- One step of the ladder. -/
theorem ladder_succ {α : Type} (op : α → α → α) (unit x : α) (n k : Nat) :
    ladder op unit x (n + 1) k =
      if k % 2 = 1 then op (op (ladder op unit x n (k / 2)) (ladder op unit x n (k / 2))) x
      else op (ladder op unit x n (k / 2)) (ladder op unit x n (k / 2)) := rfl

/-- The ladder over residues is the power by the low bits of the exponent. -/
theorem ladder_mulMod {p : Nat} (hp : 1 < p) (b n k : Nat) :
    ladder (mulMod p) 1 b n k = b ^ (k % 2 ^ n) % p := by
  induction n generalizing k with
  | zero => simp [ladder, Nat.mod_one, Nat.mod_eq_of_lt hp]
  | succ n ih =>
    have hk : k % 2 ^ (n + 1) = 2 * (k / 2 % 2 ^ n) + k % 2 := by
      rw [pow_succ', Nat.mod_mul]; omega
    rw [ladder_succ, ih, hk]
    rcases Nat.mod_two_eq_zero_or_one k with h | h
    · rw [if_neg (by omega), h, mulMod, ← Nat.mul_mod, ← pow_add]; congr 2; omega
    · rw [if_pos h, h, mulMod, mulMod, ← Nat.mul_mod, ← pow_add, ← Nat.mul_mod_mod, Nat.mod_mul_mod, Nat.mul_mod_mod]
      congr 1
      rw [pow_succ]
      congr 2
      omega

/-- `powMod` is the power (40_field.md R129). -/
theorem powMod_eq {p : Nat} (hp : 1 < p) (b e : Nat) : powMod p b e = b ^ e % p := by
  rw [powMod, ladder_mulMod hp, Nat.mod_eq_of_lt (Nat.lt_log2_self)]

/-! ## Montgomery forms (40_field.md R121, R122) -/

theorem toMont_lt (fs : FieldSel) (v : Nat) : toMont fs v < modulus fs :=
  Nat.mod_lt _ (by have := modulus_pos fs; omega)

theorem fromMont_lt (fs : FieldSel) (a : Nat) : fromMont fs a < modulus fs :=
  Nat.mod_lt _ (by have := modulus_pos fs; omega)

theorem montMul_lt (fs : FieldSel) (a b : Nat) : montMul fs a b < modulus fs :=
  Nat.mod_lt _ (by have := modulus_pos fs; omega)

theorem fromMont_toMont {fs : FieldSel} {v : Nat} (h : v < modulus fs) : fromMont fs (toMont fs v) = v := by
  rw [fromMont, toMont, Nat.mod_mul_mod, Nat.mul_assoc, ← Nat.mul_mod_mod, radix_mul_rInv, Nat.mul_one,
    Nat.mod_eq_of_lt h]

theorem toMont_fromMont {fs : FieldSel} {a : Nat} (h : a < modulus fs) : toMont fs (fromMont fs a) = a := by
  rw [fromMont, toMont, Nat.mod_mul_mod, Nat.mul_assoc, Nat.mul_comm (rInv fs), ← Nat.mul_mod_mod, radix_mul_rInv,
    Nat.mul_one, Nat.mod_eq_of_lt h]

/-- `MontMul_p(a, b)` is the residue congruent to `a * b * R^-1`. -/
theorem montMul_radix (fs : FieldSel) (a b : Nat) : montMul fs a b * Config.radix % modulus fs = a * b % modulus fs := by
  rw [montMul, Nat.mod_mul_mod, Nat.mul_assoc, Nat.mul_comm (rInv fs), ← Nat.mul_mod_mod, radix_mul_rInv, Nat.mul_one]

@[simp] theorem toNat_montWord (fs : FieldSel) (v : Nat) : (montWord fs v).toNat = toMont fs v :=
  toNat_wordOf (lt_trans (toMont_lt fs v) (modulus_lt_radix fs))

theorem canonWord_montWord {fs : FieldSel} {v : Nat} (h : v < modulus fs) : canonWord fs (montWord fs v) = v := by
  rw [canonWord, toNat_montWord, fromMont_toMont h]

theorem montWord_canonWord {fs : FieldSel} {w : Word} (h : w.toNat < modulus fs) : montWord fs (canonWord fs w) = w := by
  apply BitVec.eq_of_toNat_eq
  rw [toNat_montWord, canonWord, toMont_fromMont h]

end Sys2Proof.Machine
end

