-- ==== Sys2Proof/Laws/Primes.lean ====
section
/-! SUPPORT. The two moduli are prime (00_scope.md R7), by certificates: a generator of the units, and the prime factors of
`p - 1`, each with a certificate of its own. -/

namespace Sys2Proof.Machine

/-- A number is prime if some `a` has order `p - 1`, shown on the prime factors `fs` of `p - 1`. -/
theorem prime_of_factors {p a : Nat} {fs : List Nat} (hp : 1 < p) (hprod : fs.prod = p - 1) (hprime : ∀ f ∈ fs, f.Prime)
    (hone : powMod p a (p - 1) = 1) (hne : ∀ f ∈ fs, powMod p a ((p - 1) / f) ≠ 1) : p.Prime := by
  have hpow : ∀ e : Nat, ((a : ZMod p) ^ e = 1 ↔ powMod p a e = 1) := by
    intro e
    rw [powMod_eq hp, ← Nat.cast_pow, ← Nat.cast_one (R := ZMod p), ZMod.natCast_eq_natCast_iff', Nat.mod_eq_of_lt hp]
  refine lucas_primality p (a : ZMod p) ((hpow _).mpr hone) fun d hd hdvd => ?_
  rw [← hprod] at hdvd
  obtain ⟨f, hf, hdf⟩ := (Prime.dvd_prod_iff hd.prime).mp hdvd
  have hdf' : d = f := (Nat.prime_dvd_prime_iff_eq hd (hprime f hf)).mp hdf
  subst hdf'
  exact fun h => hne d hf ((hpow _).mp h)

theorem prime_4562087 : Nat.Prime 4562087 :=
  prime_of_factors (a := 5) (fs := [2, 17, 109, 1231]) (by decide) (by decide +kernel)
    (by simp only [List.forall_mem_cons]; exact ⟨by norm_num, by norm_num, by norm_num, by norm_num, by simp⟩)
    (by decide +kernel) (by decide +kernel)

theorem prime_1853641 : Nat.Prime 1853641 :=
  prime_of_factors (a := 17) (fs := [2, 2, 2, 3, 3, 5, 19, 271]) (by decide) (by decide +kernel)
    (by simp only [List.forall_mem_cons]; exact ⟨by norm_num, by norm_num, by norm_num, by norm_num, by norm_num, by norm_num, by norm_num, by norm_num, by simp⟩)
    (by decide +kernel) (by decide +kernel)

theorem prime_1263766531 : Nat.Prime 1263766531 :=
  prime_of_factors (a := 10) (fs := [2, 3, 5, 13, 911, 3557]) (by decide) (by decide +kernel)
    (by simp only [List.forall_mem_cons]; exact ⟨by norm_num, by norm_num, by norm_num, by norm_num, by norm_num, by norm_num, by simp⟩)
    (by decide +kernel) (by decide +kernel)

theorem prime_35385462869 : Nat.Prime 35385462869 :=
  prime_of_factors (a := 2) (fs := [2, 2, 7, 1263766531]) (by decide) (by decide +kernel)
    (by simp only [List.forall_mem_cons]; exact ⟨by norm_num, by norm_num, by norm_num, prime_1263766531, by simp⟩)
    (by decide +kernel) (by decide +kernel)

theorem prime_2480874801745591 : Nat.Prime 2480874801745591 :=
  prime_of_factors (a := 6) (fs := [2, 3, 3, 5, 19, 41, 35385462869]) (by decide) (by decide +kernel)
    (by simp only [List.forall_mem_cons]; exact ⟨by norm_num, by norm_num, by norm_num, by norm_num, by norm_num, by norm_num, prime_35385462869, by simp⟩)
    (by decide +kernel) (by decide +kernel)

theorem prime_13327 : Nat.Prime 13327 :=
  prime_of_factors (a := 3) (fs := [2, 3, 2221]) (by decide) (by decide +kernel)
    (by simp only [List.forall_mem_cons]; exact ⟨by norm_num, by norm_num, by norm_num, by simp⟩)
    (by decide +kernel) (by decide +kernel)

theorem prime_173171039 : Nat.Prime 173171039 :=
  prime_of_factors (a := 13) (fs := [2, 73, 89, 13327]) (by decide) (by decide +kernel)
    (by simp only [List.forall_mem_cons]; exact ⟨by norm_num, by norm_num, by norm_num, prime_13327, by simp⟩)
    (by decide +kernel) (by decide +kernel)

theorem prime_13427688667394608761327070753331941386769 : Nat.Prime 13427688667394608761327070753331941386769 :=
  prime_of_factors (a := 17) (fs := [2, 2, 2, 2, 3, 7, 11, 1853641, 4562087, 173171039, 2480874801745591]) (by decide) (by decide +kernel)
    (by simp only [List.forall_mem_cons]; exact ⟨by norm_num, by norm_num, by norm_num, by norm_num, by norm_num, by norm_num, by norm_num, prime_1853641, prime_4562087, prime_173171039, prime_2480874801745591, by simp⟩)
    (by decide +kernel) (by decide +kernel)

theorem prime_327599 : Nat.Prime 327599 :=
  prime_of_factors (a := 19) (fs := [2, 19, 37, 233]) (by decide) (by decide +kernel)
    (by simp only [List.forall_mem_cons]; exact ⟨by norm_num, by norm_num, by norm_num, by norm_num, by simp⟩)
    (by decide +kernel) (by decide +kernel)

theorem prime_11465965001 : Nat.Prime 11465965001 :=
  prime_of_factors (a := 3) (fs := [2, 2, 2, 5, 5, 5, 5, 7, 327599]) (by decide) (by decide +kernel)
    (by simp only [List.forall_mem_cons]; exact ⟨by norm_num, by norm_num, by norm_num, by norm_num, by norm_num, by norm_num, by norm_num, by norm_num, prime_327599, by simp⟩)
    (by decide +kernel) (by decide +kernel)

theorem prime_5501 : Nat.Prime 5501 :=
  prime_of_factors (a := 2) (fs := [2, 2, 5, 5, 5, 11]) (by decide) (by decide +kernel)
    (by simp only [List.forall_mem_cons]; exact ⟨by norm_num, by norm_num, by norm_num, by norm_num, by norm_num, by norm_num, by simp⟩)
    (by decide +kernel) (by decide +kernel)

theorem prime_11003 : Nat.Prime 11003 :=
  prime_of_factors (a := 2) (fs := [2, 5501]) (by decide) (by decide +kernel)
    (by simp only [List.forall_mem_cons]; exact ⟨by norm_num, prime_5501, by simp⟩)
    (by decide +kernel) (by decide +kernel)

theorem prime_405928799 : Nat.Prime 405928799 :=
  prime_of_factors (a := 22) (fs := [2, 11, 3691, 4999]) (by decide) (by decide +kernel)
    (by simp only [List.forall_mem_cons]; exact ⟨by norm_num, by norm_num, by norm_num, by norm_num, by simp⟩)
    (by decide +kernel) (by decide +kernel)

/-- The base field order is prime (00_scope.md R7). -/
theorem q_prime : Nat.Prime Config.q :=
  prime_of_factors (a := 3) (fs := [2, 3, 3, 13, 29, 67, 229, 311, 983, 11003, 405928799, 11465965001, 13427688667394608761327070753331941386769]) (by decide) (by decide +kernel)
    (by simp only [List.forall_mem_cons]; exact ⟨by norm_num, by norm_num, by norm_num, by norm_num, by norm_num, by norm_num, by norm_num, by norm_num, by norm_num, prime_11003, prime_405928799, prime_11465965001, prime_13427688667394608761327070753331941386769, by simp⟩)
    (by decide +kernel) (by decide +kernel)

theorem prime_20963 : Nat.Prime 20963 :=
  prime_of_factors (a := 2) (fs := [2, 47, 223]) (by decide) (by decide +kernel)
    (by simp only [List.forall_mem_cons]; exact ⟨by norm_num, by norm_num, by norm_num, by simp⟩)
    (by decide +kernel) (by decide +kernel)

theorem prime_41927 : Nat.Prime 41927 :=
  prime_of_factors (a := 5) (fs := [2, 20963]) (by decide) (by decide +kernel)
    (by simp only [List.forall_mem_cons]; exact ⟨by norm_num, prime_20963, by simp⟩)
    (by decide +kernel) (by decide +kernel)

theorem prime_1593227 : Nat.Prime 1593227 :=
  prime_of_factors (a := 2) (fs := [2, 19, 41927]) (by decide) (by decide +kernel)
    (by simp only [List.forall_mem_cons]; exact ⟨by norm_num, by norm_num, prime_41927, by simp⟩)
    (by decide +kernel) (by decide +kernel)

theorem prime_639533339 : Nat.Prime 639533339 :=
  prime_of_factors (a := 2) (fs := [2, 229, 853, 1637]) (by decide) (by decide +kernel)
    (by simp only [List.forall_mem_cons]; exact ⟨by norm_num, by norm_num, by norm_num, by norm_num, by simp⟩)
    (by decide +kernel) (by decide +kernel)

theorem prime_65865678001877903 : Nat.Prime 65865678001877903 :=
  prime_of_factors (a := 5) (fs := [2, 83, 379, 1637, 639533339]) (by decide) (by decide +kernel)
    (by simp only [List.forall_mem_cons]; exact ⟨by norm_num, by norm_num, by norm_num, by norm_num, prime_639533339, by simp⟩)
    (by decide +kernel) (by decide +kernel)

theorem prime_13818364434197438864469338081 : Nat.Prime 13818364434197438864469338081 :=
  prime_of_factors (a := 3) (fs := [2, 2, 2, 2, 2, 5, 823, 1593227, 65865678001877903]) (by decide) (by decide +kernel)
    (by simp only [List.forall_mem_cons]; exact ⟨by norm_num, by norm_num, by norm_num, by norm_num, by norm_num, by norm_num, by norm_num, prime_1593227, prime_65865678001877903, by simp⟩)
    (by decide +kernel) (by decide +kernel)

theorem prime_237073 : Nat.Prime 237073 :=
  prime_of_factors (a := 15) (fs := [2, 2, 2, 2, 3, 11, 449]) (by decide) (by decide +kernel)
    (by simp only [List.forall_mem_cons]; exact ⟨by norm_num, by norm_num, by norm_num, by norm_num, by norm_num, by norm_num, by norm_num, by simp⟩)
    (by decide +kernel) (by decide +kernel)

theorem prime_93001 : Nat.Prime 93001 :=
  prime_of_factors (a := 14) (fs := [2, 2, 2, 3, 5, 5, 5, 31]) (by decide) (by decide +kernel)
    (by simp only [List.forall_mem_cons]; exact ⟨by norm_num, by norm_num, by norm_num, by norm_num, by norm_num, by norm_num, by norm_num, by norm_num, by simp⟩)
    (by decide +kernel) (by decide +kernel)

theorem prime_12048837557 : Nat.Prime 12048837557 :=
  prime_of_factors (a := 2) (fs := [2, 2, 7, 7, 661, 93001]) (by decide) (by decide +kernel)
    (by simp only [List.forall_mem_cons]; exact ⟨by norm_num, by norm_num, by norm_num, by norm_num, by norm_num, prime_93001, by simp⟩)
    (by decide +kernel) (by decide +kernel)

theorem prime_5156902474397 : Nat.Prime 5156902474397 :=
  prime_of_factors (a := 2) (fs := [2, 2, 107, 12048837557]) (by decide) (by decide +kernel)
    (by simp only [List.forall_mem_cons]; exact ⟨by norm_num, by norm_num, by norm_num, prime_12048837557, by simp⟩)
    (by decide +kernel) (by decide +kernel)

theorem prime_1670836401704629 : Nat.Prime 1670836401704629 :=
  prime_of_factors (a := 2) (fs := [2, 2, 3, 3, 3, 3, 5156902474397]) (by decide) (by decide +kernel)
    (by simp only [List.forall_mem_cons]; exact ⟨by norm_num, by norm_num, by norm_num, by norm_num, by norm_num, by norm_num, prime_5156902474397, by simp⟩)
    (by decide +kernel) (by decide +kernel)

/-- The scalar field order is prime (00_scope.md R7). -/
theorem r_prime : Nat.Prime Config.r :=
  prime_of_factors (a := 5) (fs := [2, 2, 2, 2, 2, 2, 2, 2, 2, 2, 2, 2, 2, 2, 2, 2, 2, 2, 2, 2, 2, 2, 2, 2, 2, 2, 2, 2, 3, 3, 13, 29, 983, 11003, 237073, 405928799, 1670836401704629, 13818364434197438864469338081]) (by decide) (by decide +kernel)
    (by simp only [List.forall_mem_cons]; exact ⟨by norm_num, by norm_num, by norm_num, by norm_num, by norm_num, by norm_num, by norm_num, by norm_num, by norm_num, by norm_num, by norm_num, by norm_num, by norm_num, by norm_num, by norm_num, by norm_num, by norm_num, by norm_num, by norm_num, by norm_num, by norm_num, by norm_num, by norm_num, by norm_num, by norm_num, by norm_num, by norm_num, by norm_num, by norm_num, by norm_num, by norm_num, by norm_num, by norm_num, prime_11003, prime_237073, prime_405928799, prime_1670836401704629, prime_13818364434197438864469338081, by simp⟩)
    (by decide +kernel) (by decide +kernel)

end Sys2Proof.Machine
end

