-- ==== Sys2Proof/Laws/Tower.lean ====
section
/-! SUPPORT. The operations on canonical values are those of the fields they stand for: `Fq2` inside Mathlib's quadratic
algebra over `ZMod q`, and the commutative ring laws of the `Fq12` product. -/

namespace Sys2Proof.Machine

open Config (q)

theorem q_pos : 0 < q := by decide

/-- Both halves are canonical. -/
abbrev Canonical2 (a : Ext2 Nat) : Prop := a.re < q ∧ a.im < q

theorem toFq2_injective {a b : Ext2 Nat} (ha : Canonical2 a) (hb : Canonical2 b) (h : toFq2 a = toFq2 b) : a = b := by
  obtain ⟨a0, a1⟩ := a
  obtain ⟨b0, b1⟩ := b
  have h0 : (a0 : ZMod q) = b0 := congrArg QuadraticAlgebra.re h
  have h1 : (a1 : ZMod q) = b1 := congrArg QuadraticAlgebra.im h
  have e0 : a0 = b0 := eq_of_cast_eq ha.1 hb.1 h0
  have e1 : a1 = b1 := eq_of_cast_eq ha.2 hb.2 h1
  rw [e0, e1]

@[simp] theorem toFq2_add (a b : Ext2 Nat) : toFq2 (fq2Add a b) = toFq2 a + toFq2 b := by
  ext <;> simp [toFq2, fq2Add, cast_addMod]

@[simp] theorem toFq2_sub (a b : Ext2 Nat) : toFq2 (fq2Sub a b) = toFq2 a - toFq2 b := by
  ext <;> simp [toFq2, fq2Sub, cast_subMod q_pos]

@[simp] theorem toFq2_neg (a : Ext2 Nat) : toFq2 (fq2Neg a) = -toFq2 a := by
  ext <;> simp [toFq2, fq2Neg, cast_negMod q_pos]

@[simp] theorem toFq2_mul (a b : Ext2 Nat) : toFq2 (fq2Mul a b) = toFq2 a * toFq2 b := by
  ext
  · simp [toFq2, fq2Mul, cast_subMod q_pos, sub_eq_add_neg]
  · simp [toFq2, fq2Mul, cast_addMod]

theorem canonical_fq2Add (a b : Ext2 Nat) : Canonical2 (fq2Add a b) := ⟨Nat.mod_lt _ q_pos, Nat.mod_lt _ q_pos⟩

theorem canonical_fq2Sub (a b : Ext2 Nat) : Canonical2 (fq2Sub a b) := ⟨Nat.mod_lt _ q_pos, Nat.mod_lt _ q_pos⟩

theorem canonical_fq2Neg (a : Ext2 Nat) : Canonical2 (fq2Neg a) := ⟨Nat.mod_lt _ q_pos, Nat.mod_lt _ q_pos⟩

theorem canonical_fq2Mul (a b : Ext2 Nat) : Canonical2 (fq2Mul a b) := ⟨Nat.mod_lt _ q_pos, Nat.mod_lt _ q_pos⟩

/-! ## `Fq12` -/

/-- All six coefficients are canonical. -/
abbrev Canonical12 (a : Poly6 (Ext2 Nat)) : Prop :=
  Canonical2 a.c0 ∧ Canonical2 a.c1 ∧ Canonical2 a.c2 ∧ Canonical2 a.c3 ∧ Canonical2 a.c4 ∧ Canonical2 a.c5

theorem canonical_fq12One : Canonical12 fq12One := by decide

theorem canonical_fq12Mul (a b : Poly6 (Ext2 Nat)) : Canonical12 (fq12Mul a b) :=
  ⟨canonical_fq2Add _ _, canonical_fq2Add _ _, canonical_fq2Add _ _, canonical_fq2Add _ _, canonical_fq2Add _ _,
    canonical_fq2Add _ _⟩

/-- Equal coefficients in `Fq2` make equal canonical elements. -/
theorem fq12_eq_of_toFq2 {a b : Poly6 (Ext2 Nat)} (ha : Canonical12 a) (hb : Canonical12 b)
    (h0 : toFq2 a.c0 = toFq2 b.c0) (h1 : toFq2 a.c1 = toFq2 b.c1) (h2 : toFq2 a.c2 = toFq2 b.c2)
    (h3 : toFq2 a.c3 = toFq2 b.c3) (h4 : toFq2 a.c4 = toFq2 b.c4) (h5 : toFq2 a.c5 = toFq2 b.c5) : a = b := by
  obtain ⟨a0, a1, a2, a3, a4, a5⟩ := a
  obtain ⟨b0, b1, b2, b3, b4, b5⟩ := b
  obtain ⟨ha0, ha1, ha2, ha3, ha4, ha5⟩ := ha
  obtain ⟨hb0, hb1, hb2, hb3, hb4, hb5⟩ := hb
  congr
  · exact toFq2_injective ha0 hb0 h0
  · exact toFq2_injective ha1 hb1 h1
  · exact toFq2_injective ha2 hb2 h2
  · exact toFq2_injective ha3 hb3 h3
  · exact toFq2_injective ha4 hb4 h4
  · exact toFq2_injective ha5 hb5 h5

theorem fq12Mul_comm (a b : Poly6 (Ext2 Nat)) : fq12Mul a b = fq12Mul b a := by
  apply fq12_eq_of_toFq2 (canonical_fq12Mul _ _) (canonical_fq12Mul _ _) <;>
    simp only [fq12Mul, toFq2_add, toFq2_mul] <;> ring

theorem fq12Mul_assoc (a b c : Poly6 (Ext2 Nat)) : fq12Mul (fq12Mul a b) c = fq12Mul a (fq12Mul b c) := by
  apply fq12_eq_of_toFq2 (canonical_fq12Mul _ _) (canonical_fq12Mul _ _) <;>
    simp only [fq12Mul, toFq2_add, toFq2_mul] <;> ring

theorem toFq2_zero : toFq2 ⟨0, 0⟩ = 0 := by ext <;> simp [toFq2]

theorem toFq2_one : toFq2 ⟨1, 0⟩ = 1 := by
  ext
  · exact Nat.cast_one
  · exact Nat.cast_zero

theorem fq12Mul_one {a : Poly6 (Ext2 Nat)} (ha : Canonical12 a) : fq12Mul a fq12One = a := by
  apply fq12_eq_of_toFq2 (canonical_fq12Mul _ _) ha <;>
    simp only [fq12Mul, fq12One, toFq2_add, toFq2_mul, toFq2_zero, toFq2_one] <;> ring

/-! ## Powers -/

/-- `x` taken `k` times, one after the other, from `unit`. -/
theorem iterate_op {α : Type} {op : α → α → α} {unit x : α} {C : α → Prop} (hC : ∀ a b, C (op a b)) (hu : C unit)
    (hone : ∀ a, C a → op a unit = a) (hassoc : ∀ a b c, op (op a b) c = op a (op b c)) (m n : Nat) :
    op ((fun z => op z x)^[m] unit) ((fun z => op z x)^[n] unit) = (fun z => op z x)^[m + n] unit := by
  induction n with
  | zero =>
    refine hone _ ?_
    cases m with
    | zero => exact hu
    | succ m => rw [Function.iterate_succ_apply']; exact hC _ _
  | succ n ih => rw [Function.iterate_succ_apply', ← hassoc, ih, Nat.add_succ, Function.iterate_succ_apply']

/-- The ladder is repeated multiplication, for an associative operation with a unit. -/
theorem ladder_eq_iterate {α : Type} {op : α → α → α} {unit x : α} {C : α → Prop} (hC : ∀ a b, C (op a b)) (hu : C unit)
    (hone : ∀ a, C a → op a unit = a) (hassoc : ∀ a b c, op (op a b) c = op a (op b c)) (n k : Nat) :
    ladder op unit x n k = (fun z => op z x)^[k % 2 ^ n] unit := by
  induction n generalizing k with
  | zero => simp [ladder, Nat.mod_one]
  | succ n ih =>
    have hk : k % 2 ^ (n + 1) = k / 2 % 2 ^ n + k / 2 % 2 ^ n + k % 2 := by
      rw [pow_succ', Nat.mod_mul]; omega
    rw [ladder_succ, ih, iterate_op hC hu hone hassoc, hk]
    split
    · next h => rw [h, Function.iterate_succ_apply']
    · next h => rw [show k % 2 = 0 by omega, Nat.add_zero]

theorem fq12Pow_eq_iterate (f : Poly6 (Ext2 Nat)) (e : Nat) : fq12Pow f e = (fun z => fq12Mul z f)^[e] fq12One := by
  rw [fq12Pow, ladder_eq_iterate (C := Canonical12) canonical_fq12Mul canonical_fq12One (fun a => fq12Mul_one)
    fq12Mul_assoc, Nat.mod_eq_of_lt Nat.lt_log2_self]

theorem fq12Pow_one (e : Nat) : fq12Pow fq12One e = fq12One := by
  rw [fq12Pow_eq_iterate]
  induction e with
  | zero => rfl
  | succ e ih => rw [Function.iterate_succ_apply', ih, fq12Mul_one canonical_fq12One]

/-! ## Registers -/

theorem ext2Canon_ext2Words {a : Ext2 Nat} (h : Canonical2 a) : ext2Canon (ext2Words a) = a := by
  obtain ⟨x, y⟩ := a
  simp only [ext2Canon, ext2Words]
  rw [canonWord_montWord (fs := .base) h.1, canonWord_montWord (fs := .base) h.2]

theorem accCanon_accWords {a : Poly6 (Ext2 Nat)} (h : Canonical12 a) : accCanon (accWords a) = a := by
  obtain ⟨a0, a1, a2, a3, a4, a5⟩ := a
  obtain ⟨h0, h1, h2, h3, h4, h5⟩ := h
  simp only [accCanon, accWords, ext2Canon_ext2Words h0, ext2Canon_ext2Words h1, ext2Canon_ext2Words h2,
    ext2Canon_ext2Words h3, ext2Canon_ext2Words h4, ext2Canon_ext2Words h5]

end Sys2Proof.Machine
end

