-- ==== Sys2Proof/Laws/Curve.lean ====
section
/-! SUPPORT. The model's group law is that of an elliptic curve: points of the model stand for points of Mathlib's curve
`y^2 = x^3 + b` over a field, sums for sums and the ladder for multiples. From that: what is closed under addition, and the
laws of scalar multiples (42_curve.md R162 to R164). -/

namespace Sys2Proof.Machine

/-- A coordinate field of the model, read as a field of Mathlib: canonical values stand for elements, one each. -/
structure FieldModel {F : Type} (K : CoordOps F) (E : Type) [Field E] where
  canon : F → Prop
  val : F → E
  val_inj : ∀ {a b}, canon a → canon b → val a = val b → a = b
  canon_sub : ∀ a b, canon (K.sub a b)
  canon_zero : canon K.zero
  val_zero : val K.zero = 0
  val_two : val K.two = 2
  val_three : val K.three = 3
  val_add : ∀ a b, val (K.add a b) = val a + val b
  val_sub : ∀ a b, val (K.sub a b) = val a - val b
  val_neg : ∀ a, val (K.neg a) = -val a
  canon_neg : ∀ a, canon (K.neg a)
  canon_mul : ∀ a b, canon (K.mul a b)
  canon_add : ∀ a b, canon (K.add a b)
  val_mul : ∀ a b, val (K.mul a b) = val a * val b
  val_inv : ∀ a, val (K.inv a) = (val a)⁻¹
  two_ne : (2 : E) ≠ 0
  three_ne : (3 : E) ≠ 0

section

variable {F E : Type} [Field E] {K : CoordOps F} (M : FieldModel K E) {b : F}

/-- The curve `y^2 = x^3 + b`. -/
def shortCurve (b : E) : WeierstrassCurve.Affine E := ⟨0, 0, 0, 0, b⟩

theorem shortCurve_Δ (b : E) : (shortCurve b).Δ = -(432 * b ^ 2) := by
  simp [shortCurve, WeierstrassCurve.Δ, WeierstrassCurve.b₂, WeierstrassCurve.b₄, WeierstrassCurve.b₆,
    WeierstrassCurve.b₈]
  ring

theorem shortCurve_equation {b x y : E} : (shortCurve b).Equation x y ↔ y * y = x * x * x + b := by
  rw [WeierstrassCurve.Affine.equation_iff]
  simp [shortCurve]
  constructor <;> intro h <;> linear_combination h

theorem shortCurve_negY {b x y : E} : (shortCurve b).negY x y = -y := by
  simp [shortCurve, WeierstrassCurve.Affine.negY]

/-- `P` stands for the point `Q` of the curve. -/
inductive Stands (b : F) : Pt F → (shortCurve (M.val b)).Point → Prop
  | inf : Stands b .inf .zero
  | aff {x y : F} (hx : M.canon x) (hy : M.canon y) (n : (shortCurve (M.val b)).Nonsingular (M.val x) (M.val y)) :
      Stands b (.aff x y) (.some _ _ n)

variable {M}

theorem stands_inf : Stands M b .inf 0 := .inf

theorem stands_right_unique {P : Pt F} {Q Q' : (shortCurve (M.val b)).Point} (h : Stands M b P Q) (h' : Stands M b P Q') :
    Q = Q' := by
  cases h <;> cases h' <;> rfl

theorem stands_left_unique {P P' : Pt F} {Q : (shortCurve (M.val b)).Point} (h : Stands M b P Q) (h' : Stands M b P' Q) :
    P = P' := by
  rcases h with _ | ⟨hx, hy, n⟩
  · generalize hQ : (WeierstrassCurve.Affine.Point.zero : (shortCurve (M.val b)).Point) = Q at h'
    cases h' with
    | inf => rfl
    | aff hx hy n => cases hQ
  · generalize hQ : (WeierstrassCurve.Affine.Point.some _ _ n : (shortCurve (M.val b)).Point) = Q at h'
    cases h' with
    | inf => cases hQ
    | aff hx' hy' n' =>
      obtain ⟨h1, h2⟩ := (WeierstrassCurve.Affine.Point.some.injEq _ _ _ _ _ _).mp hQ
      rw [M.val_inj hx hx' h1, M.val_inj hy hy' h2]

/-- An affine pair with the coordinates of a point stands for it. -/
theorem stands_of_val {x y : F} {x' y' : E} (n : (shortCurve (M.val b)).Nonsingular x' y') (hx : M.canon x) (hy : M.canon y)
    (h1 : M.val x = x') (h2 : M.val y = y') : Stands M b (.aff x y) (.some _ _ n) := by
  subst h1 h2
  exact .aff hx hy n

theorem stands_neg {P : Pt F} {Q : (shortCurve (M.val b)).Point} (h : Stands M b P Q) : Stands M b (ptNeg K P) (-Q) := by
  cases h with
  | inf => exact .inf
  | aff hx hy n =>
    rw [WeierstrassCurve.Affine.Point.neg_some]
    exact stands_of_val _ hx (M.canon_neg _) rfl (by rw [M.val_neg, shortCurve_negY])

variable [DecidableEq F]

/-- The curve equation on canonical values is the curve's. -/
theorem onCurve_iff {x y : F} : onCurve K b x y = true ↔ (shortCurve (M.val b)).Equation (M.val x) (M.val y) := by
  rw [shortCurve_equation, onCurve, decide_eq_true_iff]
  constructor
  · intro h; simpa [M.val_mul, M.val_add] using congrArg M.val h
  · intro h
    exact M.val_inj (M.canon_mul _ _) (M.canon_add _ _) (by simpa [M.val_mul, M.val_add] using h)

/-- A canonical solution of the equation stands for a point of a curve that is not singular. -/
theorem exists_stands (hb : M.val b ≠ 0) {x y : F} (hx : M.canon x) (hy : M.canon y) (h : onCurve K b x y = true) :
    ∃ Q, Stands M b (.aff x y) Q := by
  have hΔ : (shortCurve (M.val b)).Δ ≠ 0 := by
    rw [shortCurve_Δ, show (432 : E) = 2 ^ 4 * 3 ^ 3 by norm_num]
    exact neg_ne_zero.mpr (mul_ne_zero (mul_ne_zero (pow_ne_zero _ M.two_ne) (pow_ne_zero _ M.three_ne)) (pow_ne_zero _ hb))
  exact ⟨_, .aff hx hy (((shortCurve (M.val b)).equation_iff_nonsingular_of_Δ_ne_zero hΔ).mp (onCurve_iff.mp h))⟩

theorem onCurve_of_stands {x y : F} {Q : (shortCurve (M.val b)).Point} (h : Stands M b (.aff x y) Q) :
    M.canon x ∧ M.canon y ∧ onCurve K b x y = true := by
  cases h with
  | aff hx hy n => exact ⟨hx, hy, onCurve_iff.mpr n.1⟩

variable [DecidableEq E]

/-- The model's sum stands for the sum (42_curve.md R162). -/
theorem stands_add {P S : Pt F} {Q T : (shortCurve (M.val b)).Point} (h : Stands M b P Q) (h' : Stands M b S T) :
    Stands M b (ptAdd K P S) (Q + T) := by
  rcases h with _ | ⟨cx1, cy1, n1⟩
  · rw [← WeierstrassCurve.Affine.Point.zero_def, zero_add]; exact h'
  · rcases h' with _ | ⟨cx2, cy2, n2⟩
    · rw [← WeierstrassCurve.Affine.Point.zero_def, add_zero]; exact .aff cx1 cy1 n1
    · rename_i x1 y1 x2 y2
      simp only [ptAdd]
      split
      · rename_i hx
        subst hx
        split
        · rename_i hy
          obtain ⟨rfl, hy0⟩ := hy
          have hv : M.val y1 ≠ 0 := fun h0 => hy0 (M.val_inj cy1 M.canon_zero (h0.trans M.val_zero.symm))
          have h2v : M.val y1 + M.val y1 ≠ 0 := by rw [← two_mul]; exact mul_ne_zero M.two_ne hv
          have hne : M.val y1 ≠ (shortCurve (M.val b)).negY (M.val x1) (M.val y1) := by
            rw [shortCurve_negY]; exact fun h => h2v (by linear_combination h)
          rw [WeierstrassCurve.Affine.Point.add_of_Y_ne hne]
          have hl : M.val (tangent K x1 y1) = (shortCurve (M.val b)).slope (M.val x1) (M.val x1) (M.val y1) (M.val y1) := by
            rw [WeierstrassCurve.Affine.slope_of_Y_ne rfl hne, shortCurve_negY, tangent]
            simp only [M.val_mul, M.val_inv, M.val_two, M.val_three, shortCurve]
            rw [div_eq_mul_inv, sub_neg_eq_add, two_mul]
            ring
          refine stands_of_val _ (M.canon_sub _ _) (M.canon_sub _ _) ?_ ?_ <;>
            simp only [M.val_sub, M.val_mul, hl, WeierstrassCurve.Affine.addX, WeierstrassCurve.Affine.addY,
              WeierstrassCurve.Affine.negY, WeierstrassCurve.Affine.negAddY] <;>
            simp only [shortCurve] <;> ring
        · rename_i hy
          have hyy : M.val y1 = (shortCurve (M.val b)).negY (M.val x1) (M.val y2) := by
            rcases WeierstrassCurve.Affine.Y_eq_of_X_eq n1.1 n2.1 rfl with e | e
            · have e' := M.val_inj cy1 cy2 e
              subst e'
              have h0 : y1 = K.zero := by by_contra hne; exact hy ⟨rfl, hne⟩
              rw [shortCurve_negY, h0, M.val_zero, neg_zero]
            · exact e
          rw [WeierstrassCurve.Affine.Point.add_of_Y_eq rfl hyy]
          exact .inf
      · rename_i hx
        have hv : M.val x1 ≠ M.val x2 := fun h0 => hx (M.val_inj cx1 cx2 h0)
        rw [WeierstrassCurve.Affine.Point.add_of_X_ne hv]
        have hl : M.val (chord K x1 y1 x2 y2) = (shortCurve (M.val b)).slope (M.val x1) (M.val x2) (M.val y1) (M.val y2) := by
          rw [WeierstrassCurve.Affine.slope_of_X_ne hv, chord]
          simp only [M.val_mul, M.val_inv, M.val_sub]
          rw [div_eq_mul_inv, ← neg_sub (M.val x2) (M.val x1), inv_neg]
          ring
        refine stands_of_val _ (M.canon_sub _ _) (M.canon_sub _ _) ?_ ?_ <;>
          simp only [M.val_sub, M.val_mul, hl, WeierstrassCurve.Affine.addX, WeierstrassCurve.Affine.addY,
            WeierstrassCurve.Affine.negY, WeierstrassCurve.Affine.negAddY] <;>
          simp only [shortCurve] <;> ring

theorem stands_ladder {P : Pt F} {Q : (shortCurve (M.val b)).Point} (h : Stands M b P Q) (n k : Nat) :
    Stands M b (ladder (ptAdd K) .inf P n k) ((k % 2 ^ n) • Q) := by
  induction n generalizing k with
  | zero => simpa [ladder, Nat.mod_one] using (stands_inf (M := M) (b := b))
  | succ n ih =>
    have hk : k % 2 ^ (n + 1) = k / 2 % 2 ^ n + k / 2 % 2 ^ n + k % 2 := by rw [pow_succ', Nat.mod_mul]; omega
    rw [ladder_succ, hk]
    rcases Nat.mod_two_eq_zero_or_one k with h2 | h2
    · rw [if_neg (by omega), h2, add_zero, add_nsmul]; exact stands_add (ih _) (ih _)
    · rw [if_pos h2, h2, add_nsmul, add_nsmul, one_nsmul]; exact stands_add (stands_add (ih _) (ih _)) h

/-- The scalar multiple stands for the multiple (42_curve.md R164). -/
theorem stands_mul {P : Pt F} {Q : (shortCurve (M.val b)).Point} (h : Stands M b P Q) {k : Nat} (hk : k < 2 ^ 256) :
    Stands M b (ptMul K k P) (k • Q) := by
  simpa only [ptMul, Nat.mod_eq_of_lt hk] using stands_ladder h 256 k

theorem stands_iterate {P : Pt F} {Q : (shortCurve (M.val b)).Point} (h : Stands M b P Q) (k : Nat) :
    Stands M b ((fun S => ptAdd K S P)^[k] .inf) (k • Q) := by
  induction k with
  | zero => simpa using (stands_inf (M := M) (b := b))
  | succ k ih => rw [Function.iterate_succ_apply', succ_nsmul]; exact stands_add ih h

theorem r_lt_scalar : Config.r < 2 ^ 256 := by decide

theorem inSubgroup_iff {P : Pt F} {Q : (shortCurve (M.val b)).Point} (h : Stands M b P Q) :
    inSubgroup K P = true ↔ Config.r • Q = 0 := by
  have hm := stands_mul h r_lt_scalar
  rw [inSubgroup, decide_eq_true_iff]
  generalize Config.r = r at hm ⊢
  constructor
  · intro hr
    rw [hr] at hm
    exact stands_right_unique hm stands_inf
  · intro hr
    rw [hr] at hm
    exact stands_left_unique hm stands_inf

/-- The points R24 allows, in canonical coordinates: infinity, or a canonical solution of the equation that `r` takes to
infinity. -/
def Good (M : FieldModel K E) (b : F) (P : Pt F) : Prop := ∃ Q, Stands M b P Q ∧ Config.r • Q = 0

omit [DecidableEq F] in
theorem good_inf : Good M b .inf := ⟨0, stands_inf, by rw [smul_zero]⟩

theorem good_aff (hb : M.val b ≠ 0) {x y : F} :
    Good M b (.aff x y) ↔ M.canon x ∧ M.canon y ∧ onCurve K b x y = true ∧ inSubgroup K (.aff x y) = true := by
  constructor
  · rintro ⟨Q, h, hr⟩
    obtain ⟨hx, hy, hc⟩ := onCurve_of_stands h
    exact ⟨hx, hy, hc, (inSubgroup_iff h).mpr hr⟩
  · rintro ⟨hx, hy, hc, hs⟩
    obtain ⟨Q, h⟩ := exists_stands hb hx hy hc
    exact ⟨Q, h, (inSubgroup_iff h).mp hs⟩

/-- The subgroup is closed under addition (10_state.md R24). -/
theorem good_add {P S : Pt F} (h : Good M b P) (h' : Good M b S) : Good M b (ptAdd K P S) := by
  obtain ⟨Q, h, hr⟩ := h
  obtain ⟨T, h', hr'⟩ := h'
  exact ⟨Q + T, stands_add h h', by rw [smul_add, hr, hr', add_zero]⟩

omit [DecidableEq F] in
theorem good_neg {P : Pt F} (h : Good M b P) : Good M b (ptNeg K P) := by
  obtain ⟨Q, h, hr⟩ := h
  exact ⟨-Q, stands_neg h, by rw [smul_neg, hr, neg_zero]⟩

theorem good_mul {P : Pt F} (h : Good M b P) {k : Nat} (hk : k < 2 ^ 256) : Good M b (ptMul K k P) := by
  obtain ⟨Q, h, hr⟩ := h
  exact ⟨k • Q, stands_mul h hk, by rw [smul_comm, hr, smul_zero]⟩

/-- Double-and-add is repeated addition (42_curve.md R164). -/
theorem ptMul_eq_iterate {P : Pt F} (h : Good M b P) {k : Nat} (hk : k < 2 ^ 256) :
    ptMul K k P = (fun S => ptAdd K S P)^[k] .inf := by
  obtain ⟨Q, h, _⟩ := h
  exact stands_left_unique (stands_mul h hk) (stands_iterate h k)

/-- Multiples of a point add up. -/
theorem ptMul_add_ptMul {P : Pt F} (h : Good M b P) {k l : Nat} (hkl : k + l < 2 ^ 256) :
    ptAdd K (ptMul K k P) (ptMul K l P) = ptMul K (k + l) P := by
  obtain ⟨Q, h, _⟩ := h
  have hs := stands_mul h hkl
  rw [add_nsmul] at hs
  exact stands_left_unique (stands_add (stands_mul h (by omega)) (stands_mul h (by omega))) hs

/-- Scalars act modulo `r` (42_curve.md R164). -/
theorem ptMul_mod {P : Pt F} (h : Good M b P) {k l : Nat} (hk : k < 2 ^ 256) (hl : l < 2 ^ 256)
    (hkl : k % Config.r = l % Config.r) : ptMul K k P = ptMul K l P := by
  obtain ⟨Q, h, hr⟩ := h
  have key : ∀ n : Nat, n • Q = (n % Config.r) • Q := by
    generalize Config.r = r at hr
    intro n
    conv_lhs => rw [← Nat.div_add_mod n r]
    rw [add_nsmul, mul_nsmul, hr, smul_zero, zero_add]
  refine stands_left_unique (stands_mul h hk) ?_
  rw [key k, hkl, ← key l]
  exact stands_mul h hl

theorem ptMul_r_add {P : Pt F} (h : Good M b P) {k : Nat} (hk : Config.r + k < 2 ^ 256) :
    ptMul K (Config.r + k) P = ptMul K k P :=
  ptMul_mod h hk (by omega) (Nat.add_mod_left _ _)

theorem ptMul_one {P : Pt F} (h : Good M b P) : ptMul K 1 P = P := by
  obtain ⟨Q, h, _⟩ := h
  exact stands_left_unique (by simpa using stands_mul h (k := 1) (by norm_num)) h

/-- The negative is the multiple by `r - 1` (45_groth16.md R216). -/
theorem ptMul_pred_r {P : Pt F} (h : Good M b P) {k : Nat} (hk : k + 1 = Config.r) : ptMul K k P = ptNeg K P := by
  have hlt : k < 2 ^ 256 := by have := r_lt_scalar; omega
  obtain ⟨Q, h, hr⟩ := h
  refine stands_left_unique (stands_mul h hlt) ?_
  have : k • Q = -Q := by
    rw [← hk, add_nsmul, one_nsmul] at hr
    exact eq_neg_of_add_eq_zero_left hr
  rw [this]
  exact stands_neg h

end

theorem ladder_inf {F : Type} [DecidableEq F] {K : CoordOps F} (n k : Nat) : ladder (ptAdd K) .inf .inf n k = .inf := by
  induction n generalizing k with
  | zero => rfl
  | succ n ih => rw [ladder_succ, ih]; simp [ptAdd]

/-- Every multiple of infinity is infinity, for any scalar. -/
theorem ptMul_inf {F : Type} [DecidableEq F] {K : CoordOps F} (k : Nat) : ptMul K k .inf = .inf := ladder_inf 256 k

theorem ladder_zero {F : Type} [DecidableEq F] {K : CoordOps F} (P : Pt F) (n : Nat) : ladder (ptAdd K) .inf P n 0 = .inf := by
  induction n with
  | zero => rfl
  | succ n ih => rw [ladder_succ, Nat.zero_div, ih]; rfl

/-- The multiple by 0 is infinity, of any pair of coordinates. -/
theorem ptMul_zero {F : Type} [DecidableEq F] {K : CoordOps F} (P : Pt F) : ptMul K 0 P = .inf := ladder_zero P 256

/-! ## The two coordinate fields -/

/-- `q` is prime, as the form in which field operations modulo `q` take it. -/
theorem fact_q : Fact (Nat.Prime Config.q) := ⟨q_prime⟩

theorem cast_invMod (a : Nat) : haveI := fact_q; ((invMod Config.q a : Nat) : ZMod Config.q) = (a : ZMod Config.q)⁻¹ := by
  have := fact_q
  rw [invMod, powMod_eq q_prime.one_lt, cast_mod, Nat.cast_pow]
  by_cases h : (a : ZMod Config.q) = 0
  · rw [h, inv_zero, zero_pow (by decide)]
  · refine eq_inv_of_mul_eq_one_left ?_
    rw [← pow_succ, show Config.q - 2 + 1 = Config.q - 1 from by have := q_prime.two_le; omega]
    exact ZMod.pow_card_sub_one_eq_one h

theorem small_ne_zero {n : Nat} (h : 0 < n) (hq : n < Config.q) : ((n : Nat) : ZMod Config.q) ≠ 0 := by
  rw [Ne, ZMod.natCast_eq_zero_iff]
  exact fun hd => absurd (Nat.le_of_dvd h hd) (by omega)

/-- `Fq` as the integers modulo `q`. -/
def fqModel : haveI := fact_q; FieldModel fq (ZMod Config.q) :=
  haveI := fact_q
  { canon := fun a => a < Config.q
    val := fun a => (a : ZMod Config.q)
    val_inj := eq_of_cast_eq
    canon_sub := fun a b => subMod_lt q_pos a b
    canon_zero := q_pos
    val_zero := Nat.cast_zero
    val_two := Nat.cast_ofNat
    val_three := Nat.cast_ofNat
    val_add := cast_addMod _
    val_sub := cast_subMod q_pos
    val_neg := cast_negMod q_pos
    canon_neg := negMod_lt q_pos
    canon_mul := fun _ _ => Nat.mod_lt _ q_pos
    canon_add := fun _ _ => Nat.mod_lt _ q_pos
    val_mul := cast_mulMod _
    val_inv := cast_invMod
    two_ne := small_ne_zero (n := 2) (by norm_num) (by decide)
    three_ne := small_ne_zero (n := 3) (by norm_num) (by decide) }

/-- -1 is no square modulo `q`, so `Fq2` is a field (00_scope.md R14). -/
theorem fact_fq2 : Fact (∀ x : ZMod Config.q, x ^ 2 ≠ -1 + 0 * x) := by
  have := fact_q
  refine ⟨fun x hx => ?_⟩
  rw [zero_mul, add_zero] at hx
  exact ZMod.mod_four_ne_three_of_sq_eq_neg_one hx (by decide)

theorem toFq2_inv (a : Ext2 Nat) : haveI := fact_q; haveI := fact_fq2; toFq2 (fq2Inv a) = (toFq2 a)⁻¹ := by
  have := fact_q
  have := fact_fq2
  rw [QuadraticAlgebra.inv_def, QuadraticAlgebra.norm_def]
  ext <;>
    simp [toFq2, fq2Inv, cast_mulMod, cast_negMod q_pos, cast_invMod, cast_addMod, mul_comm]

/-- `Fq2` as Mathlib's quadratic algebra. -/
def fq2Model : haveI := fact_q; haveI := fact_fq2; FieldModel fq2 Fq2 :=
  haveI := fact_q
  haveI := fact_fq2
  { canon := Canonical2
    val := toFq2
    val_inj := toFq2_injective
    canon_sub := canonical_fq2Sub
    canon_zero := ⟨q_pos, q_pos⟩
    val_zero := toFq2_zero
    val_two := QuadraticAlgebra.ext Nat.cast_ofNat Nat.cast_zero
    val_three := QuadraticAlgebra.ext Nat.cast_ofNat Nat.cast_zero
    val_add := toFq2_add
    val_sub := toFq2_sub
    val_neg := toFq2_neg
    canon_neg := canonical_fq2Neg
    canon_mul := canonical_fq2Mul
    canon_add := canonical_fq2Add
    val_mul := toFq2_mul
    val_inv := toFq2_inv
    two_ne := fun h => small_ne_zero (n := 2) (by norm_num) (by decide) (congrArg QuadraticAlgebra.re h)
    three_ne := fun h => small_ne_zero (n := 3) (by norm_num) (by decide) (congrArg QuadraticAlgebra.re h) }

/-! ## The registers -/

/-- The G1 points R24 allows. -/
def G1Good (P : Pt Nat) : Prop :=
  haveI := fact_q
  Good fqModel Config.b1 P

/-- The G2 points R24 allows. -/
def G2Good (P : Pt (Ext2 Nat)) : Prop :=
  haveI := fact_q
  haveI := fact_fq2
  Good fq2Model Config.b2 P

theorem b1_ne : ((Config.b1 : Nat) : ZMod Config.q) ≠ 0 := small_ne_zero (by decide) (by decide)

theorem b2_ne : toFq2 Config.b2 ≠ 0 := by
  intro h
  have h1 := congrArg QuadraticAlgebra.im h
  rw [QuadraticAlgebra.im_zero] at h1
  exact small_ne_zero (n := Config.b2.im) (by decide) (by decide) h1

theorem canonWord_lt (fs : FieldSel) (w : Word) : canonWord fs w < modulus fs := fromMont_lt fs _

theorem g1Valid_iff {w : G1Reg} : g1Valid w = true ↔ g1Reduced w = true ∧ G1Good (g1Canon w) := by
  have := fact_q
  rcases w with _ | ⟨x, y⟩
  · exact ⟨fun _ => ⟨rfl, good_inf⟩, fun _ => rfl⟩
  · have hx : canonWord .base x < Config.q := canonWord_lt .base x
    have hy : canonWord .base y < Config.q := canonWord_lt .base y
    simp only [g1Valid, g1Reduced, G1Good, g1Canon, Bool.and_eq_true, good_aff (M := fqModel) b1_ne]
    constructor
    · rintro ⟨⟨⟨h1, h2⟩, h3⟩, h4⟩; exact ⟨⟨h1, h2⟩, hx, hy, h3, h4⟩
    · rintro ⟨⟨h1, h2⟩, _, _, h3, h4⟩; exact ⟨⟨⟨h1, h2⟩, h3⟩, h4⟩

theorem g2Valid_iff {w : G2Reg} : g2Valid w = true ↔ g2Reduced w = true ∧ G2Good (g2Canon w) := by
  have := fact_q
  have := fact_fq2
  rcases w with _ | ⟨x, y⟩
  · exact ⟨fun _ => ⟨rfl, good_inf⟩, fun _ => rfl⟩
  · have hx : Canonical2 (ext2Canon x) := ⟨canonWord_lt .base x.re, canonWord_lt .base x.im⟩
    have hy : Canonical2 (ext2Canon y) := ⟨canonWord_lt .base y.re, canonWord_lt .base y.im⟩
    simp only [g2Valid, g2Reduced, G2Good, g2Canon, Bool.and_eq_true, good_aff (M := fq2Model) b2_ne]
    constructor
    · rintro ⟨⟨⟨h1, h2⟩, h3⟩, h4⟩; exact ⟨⟨h1, h2⟩, hx, hy, h3, h4⟩
    · rintro ⟨⟨h1, h2⟩, _, _, h3, h4⟩; exact ⟨⟨⟨h1, h2⟩, h3⟩, h4⟩

/-- A canonical pair, or infinity. -/
def CanonPt {F : Type} (canon : F → Prop) : Pt F → Prop
  | .inf => True
  | .aff x y => canon x ∧ canon y

theorem G1Good.canon {P : Pt Nat} (h : G1Good P) : CanonPt (· < Config.q) P := by
  have := fact_q
  rcases P with _ | ⟨x, y⟩
  · trivial
  · have := (good_aff (M := fqModel) b1_ne).mp h; exact ⟨this.1, this.2.1⟩

theorem G2Good.canon {P : Pt (Ext2 Nat)} (h : G2Good P) : CanonPt Canonical2 P := by
  have := fact_q
  have := fact_fq2
  rcases P with _ | ⟨x, y⟩
  · trivial
  · have := (good_aff (M := fq2Model) b2_ne).mp h; exact ⟨this.1, this.2.1⟩

theorem g1Canon_g1Words {P : Pt Nat} (h : CanonPt (· < Config.q) P) : g1Canon (g1Words P) = P := by
  rcases P with _ | ⟨x, y⟩
  · rfl
  · simp only [g1Words, g1Canon, canonWord_montWord (fs := .base) h.1, canonWord_montWord (fs := .base) h.2]

theorem g2Canon_g2Words {P : Pt (Ext2 Nat)} (h : CanonPt Canonical2 P) : g2Canon (g2Words P) = P := by
  rcases P with _ | ⟨x, y⟩
  · rfl
  · simp only [g2Words, g2Canon, ext2Canon_ext2Words h.1, ext2Canon_ext2Words h.2]

theorem wordReduced_montWord (v : Nat) : wordReduced (montWord .base v) = true := by
  rw [wordReduced, toNat_montWord]; exact decide_eq_true (toMont_lt .base v)

theorem ext2Reduced_ext2Words (a : Ext2 Nat) : ext2Reduced (ext2Words a) = true := by
  rw [ext2Reduced, ext2Words, wordReduced_montWord, wordReduced_montWord]; rfl

theorem g1Reduced_g1Words (P : Pt Nat) : g1Reduced (g1Words P) = true := by
  rcases P with _ | ⟨x, y⟩
  · rfl
  · simp only [g1Words, g1Reduced, wordReduced_montWord, Bool.and_self]

theorem g2Reduced_g2Words (P : Pt (Ext2 Nat)) : g2Reduced (g2Words P) = true := by
  rcases P with _ | ⟨x, y⟩
  · rfl
  · simp only [g2Words, g2Reduced, ext2Reduced_ext2Words, Bool.and_self]

theorem accReduced_accWords (a : Poly6 (Ext2 Nat)) : accReduced (accWords a) = true := by
  simp only [accWords, accReduced, ext2Reduced_ext2Words, Bool.and_self]

theorem g1Words_g1Canon {w : G1Reg} (h : g1Reduced w = true) : g1Words (g1Canon w) = w := by
  rcases w with _ | ⟨x, y⟩
  · rfl
  · simp only [g1Reduced, wordReduced, Bool.and_eq_true, decide_eq_true_iff] at h
    simp only [g1Canon, g1Words, montWord_canonWord (fs := .base) h.1, montWord_canonWord (fs := .base) h.2]

theorem ext2Words_ext2Canon {a : Ext2 Word} (h : ext2Reduced a = true) : ext2Words (ext2Canon a) = a := by
  obtain ⟨x, y⟩ := a
  simp only [ext2Reduced, wordReduced, Bool.and_eq_true, decide_eq_true_iff] at h
  simp only [ext2Canon, ext2Words, montWord_canonWord (fs := .base) h.1, montWord_canonWord (fs := .base) h.2]

theorem g2Words_g2Canon {w : G2Reg} (h : g2Reduced w = true) : g2Words (g2Canon w) = w := by
  rcases w with _ | ⟨x, y⟩
  · rfl
  · simp only [g2Reduced, Bool.and_eq_true] at h
    simp only [g2Canon, g2Words, ext2Words_ext2Canon h.1, ext2Words_ext2Canon h.2]

/-- What a command stores of a good point is a valid register. -/
theorem g1Valid_g1Words {P : Pt Nat} (h : G1Good P) : g1Valid (g1Words P) = true :=
  g1Valid_iff.mpr ⟨g1Reduced_g1Words P, by rwa [g1Canon_g1Words h.canon]⟩

theorem g2Valid_g2Words {P : Pt (Ext2 Nat)} (h : G2Good P) : g2Valid (g2Words P) = true :=
  g2Valid_iff.mpr ⟨g2Reduced_g2Words P, by rwa [g2Canon_g2Words h.canon]⟩

end Sys2Proof.Machine
end

