-- ==== Sys2Proof/Laws/Encoding.lean ====
section
/-! SUPPORT. The decoder and the encoder, one fact for each: what the decoder does on an opcode of the table, which bits each
format of the encoder sets, and what the field readers answer on such bits (30_encoding.md R91, R95). -/

namespace Sys2Proof

/-! ## The opcodes -/

theorem decode_nop {w : Reg32} (h : bits w 31 24 = 0x00) : decode w = decodeNone w .nop := by
  simp [decode, h]

theorem decode_fadd {w : Reg32} (h : bits w 31 24 = 0x10) : decode w = decodeF3 w .fadd := by
  simp [decode, h, decodeField]

theorem decode_fsub {w : Reg32} (h : bits w 31 24 = 0x11) : decode w = decodeF3 w .fsub := by
  simp [decode, h, decodeField]

theorem decode_fneg {w : Reg32} (h : bits w 31 24 = 0x12) : decode w = decodeF2 w .fneg := by
  simp [decode, h, decodeField]

theorem decode_fmul {w : Reg32} (h : bits w 31 24 = 0x13) : decode w = decodeF3 w .fmul := by
  simp [decode, h, decodeField]

theorem decode_fsqr {w : Reg32} (h : bits w 31 24 = 0x14) : decode w = decodeF2 w .fsqr := by
  simp [decode, h, decodeField]

theorem decode_finv {w : Reg32} (h : bits w 31 24 = 0x15) : decode w = decodeF2 w .finv := by
  simp [decode, h, decodeField]

theorem decode_fpow {w : Reg32} (h : bits w 31 24 = 0x16) : decode w = decodeF3 w .fpow := by
  simp [decode, h, decodeField]

theorem decode_fisz {w : Reg32} (h : bits w 31 24 = 0x17) : decode w =
    decodeFieldR w fun fs => do
      mbz w 19 15
      mbz w 9 5
      let ra ← regField 16 w 10
      return .fisz fs ra := by
  simp [decode, h, decodeField]

theorem decode_feq {w : Reg32} (h : bits w 31 24 = 0x18) : decode w =
    decodeFieldR w fun fs => do
      mbz w 19 15
      let ra ← regField 16 w 10
      let rb ← regField 16 w 5
      return .feq fs ra rb := by
  simp [decode, h, decodeField]

theorem decode_ldf {w : Reg32} (h : bits w 31 24 = 0x20) : decode w = decodeFieldM w .ldf := by
  simp [decode, h, decodeMove]

theorem decode_stf {w : Reg32} (h : bits w 31 24 = 0x21) : decode w = decodeFieldM w .stf := by
  simp [decode, h, decodeMove]

theorem decode_ldraw {w : Reg32} (h : bits w 31 24 = 0x22) : decode w = decodeM w 16 .ldraw := by
  simp [decode, h, decodeMove]

theorem decode_straw {w : Reg32} (h : bits w 31 24 = 0x23) : decode w = decodeM w 16 .straw := by
  simp [decode, h, decodeMove]

theorem decode_ldg1 {w : Reg32} (h : bits w 31 24 = 0x24) : decode w = decodeM w 8 .ldg1 := by
  simp [decode, h, decodeMove]

theorem decode_stg1 {w : Reg32} (h : bits w 31 24 = 0x25) : decode w = decodeM w 8 .stg1 := by
  simp [decode, h, decodeMove]

theorem decode_ldg2 {w : Reg32} (h : bits w 31 24 = 0x26) : decode w = decodeM w 4 .ldg2 := by
  simp [decode, h, decodeMove]

theorem decode_stg2 {w : Reg32} (h : bits w 31 24 = 0x27) : decode w = decodeM w 4 .stg2 := by
  simp [decode, h, decodeMove]

theorem decode_g1add {w : Reg32} (h : bits w 31 24 = 0x30) : decode w = decodeR3 w 8 8 8 .g1add := by
  simp [decode, h, decodeCurve]

theorem decode_g2add {w : Reg32} (h : bits w 31 24 = 0x31) : decode w = decodeR3 w 4 4 4 .g2add := by
  simp [decode, h, decodeCurve]

theorem decode_g1smul {w : Reg32} (h : bits w 31 24 = 0x32) : decode w = decodeR3 w 8 8 16 .g1smul := by
  simp [decode, h, decodeCurve]

theorem decode_g2smul {w : Reg32} (h : bits w 31 24 = 0x33) : decode w = decodeR3 w 4 4 16 .g2smul := by
  simp [decode, h, decodeCurve]

theorem decode_g1onc {w : Reg32} (h : bits w 31 24 = 0x34) : decode w = decodeAddr w .g1onc := by
  simp [decode, h, decodeCurve]

theorem decode_g1subg {w : Reg32} (h : bits w 31 24 = 0x35) : decode w = decodeAddr w .g1subg := by
  simp [decode, h, decodeCurve]

theorem decode_g2onc {w : Reg32} (h : bits w 31 24 = 0x36) : decode w = decodeAddr w .g2onc := by
  simp [decode, h, decodeCurve]

theorem decode_g2subg {w : Reg32} (h : bits w 31 24 = 0x37) : decode w = decodeAddr w .g2subg := by
  simp [decode, h, decodeCurve]

theorem decode_accone {w : Reg32} (h : bits w 31 24 = 0x40) : decode w = decodeNone w .accone := by
  simp [decode, h, decodePairingPoseidon]

theorem decode_miller {w : Reg32} (h : bits w 31 24 = 0x41) : decode w =
    decodeR w do
      mbz w 19 15
      let ra ← regField 8 w 10
      let rb ← regField 4 w 5
      return .miller ra rb := by
  simp [decode, h, decodePairingPoseidon]

theorem decode_fexp {w : Reg32} (h : bits w 31 24 = 0x42) : decode w = decodeNone w .fexp := by
  simp [decode, h, decodePairingPoseidon]

theorem decode_pperm {w : Reg32} (h : bits w 31 24 = 0x50) : decode w =
    decodeR w (do
      mbz w 9 5
      let rd ← regField 16 w 15
      let ra ← regField 16 w 10
      if startsTriple rd && startsTriple ra then return .pperm rd ra else throw .indexOutOfRange) := by
  simp [decode, h, decodePairingPoseidon]

theorem decode_phash {w : Reg32} (h : bits w 31 24 = 0x51) : decode w = decodeR3 w 16 16 16 .phash := by
  simp [decode, h, decodePairingPoseidon]

theorem decode_vkload {w : Reg32} (h : bits w 31 24 = 0x60) : decode w = decodeAddr w .vkload := by
  simp [decode, h, decodeGrothSystem]

theorem decode_vkclr {w : Reg32} (h : bits w 31 24 = 0x61) : decode w = decodeNone w .vkclr := by
  simp [decode, h, decodeGrothSystem]

theorem decode_verify {w : Reg32} (h : bits w 31 24 = 0x62) : decode w =
    (do
      mbz w 15 15
      return .verify (BitVec.ofNat 8 (bits w 23 16)) (addrField w)) := by
  simp [decode, h, decodeGrothSystem]

theorem decode_wipe {w : Reg32} (h : bits w 31 24 = 0x70) : decode w =
    (do
      mbz w 23 5
      return .wipe (BitVec.ofNat 5 (bits w 4 0))) := by
  simp [decode, h, decodeGrothSystem]

/-! ## The formats -/

/-- The fields of a word of format R. -/
theorem bits_encodeR {op fs rd ra rb : Nat} (hop : op < 2 ^ 8) (hfs : fs < 2) (hd : rd < 2 ^ 5) (ha : ra < 2 ^ 5)
    (hb : rb < 2 ^ 5) :
    let w := encodeR op fs rd ra rb
    bits w 31 24 = op ∧ bits w 23 23 = fs ∧ bits w 22 20 = 0 ∧ bits w 23 20 = fs * 8 ∧ bits w 19 15 = rd ∧
      bits w 14 10 = ra ∧ bits w 9 5 = rb ∧ bits w 4 0 = 0 := by
  simp only [bits, encodeR, BitVec.toNat_ofNat]; omega

/-- The fields of a word of format M. -/
theorem bits_encodeM {op fs rt addr : Nat} (hop : op < 2 ^ 8) (hfs : fs < 2) (ht : rt < 2 ^ 5) (ha : addr < 2 ^ 15) :
    let w := encodeM op fs rt addr
    bits w 31 24 = op ∧ bits w 23 23 = fs ∧ bits w 22 20 = 0 ∧ bits w 23 20 = fs * 8 ∧ bits w 19 15 = rt ∧
      bits w 23 15 = fs * 2 ^ 8 + rt ∧ bits w 14 0 = addr := by
  simp only [bits, encodeM, BitVec.toNat_ofNat]; omega

/-- The fields of a word of format V. -/
theorem bits_encodeV {op n addr : Nat} (hop : op < 2 ^ 8) (hn : n < 2 ^ 8) (ha : addr < 2 ^ 15) :
    let w := encodeV op n addr
    bits w 31 24 = op ∧ bits w 23 16 = n ∧ bits w 15 15 = 0 ∧ bits w 14 0 = addr := by
  simp only [bits, encodeV, BitVec.toNat_ofNat]; omega

/-- The fields of a word of format S. -/
theorem bits_encodeS {op sel : Nat} (hop : op < 2 ^ 8) (hs : sel < 2 ^ 5) :
    let w := encodeS op sel
    bits w 31 24 = op ∧ bits w 23 5 = 0 ∧ bits w 4 0 = sel ∧ bits w 23 0 = sel := by
  simp only [bits, encodeS, BitVec.toNat_ofNat]; omega

theorem fsBit_lt (fs : FieldSel) : fsBit fs < 2 := by cases fs <;> decide

theorem opcode_lt (i : Instr) : i.opcode < 2 ^ 8 := by cases i <;> simp [Instr.opcode]

/-! ## The field readers -/

theorem fsField_eq {w : Reg32} {fs : FieldSel} (h : bits w 23 23 = fsBit fs) : fsField w = fs := by
  cases fs <;> simp [fsField, h, fsBit]

theorem regField_eq {n lo : Nat} {w : Reg32} {i : Fin n} (h : bits w (lo + 4) lo = i.val) : regField n w lo = .ok i := by
  simp [regField, h]

theorem regField_eq_ok {n lo : Nat} {w : Reg32} {i : Fin n} : regField n w lo = .ok i ↔ bits w (lo + 4) lo = i.val := by
  refine ⟨fun h => ?_, regField_eq⟩
  unfold regField at h
  split at h
  · exact congrArg Fin.val (Except.ok.inj h)
  · cases h

theorem addrField_eq {w : Reg32} {a : BitVec 15} (h : bits w 14 0 = a.toNat) : addrField w = a := by simp [addrField, h]

theorem mbz_eq {w : Reg32} {hi lo : Nat} (h : bits w hi lo = 0) : mbz w hi lo = .ok () := by simp [mbz, h]

theorem mbz_eq_ok {w : Reg32} {hi lo : Nat} {u : Unit} : mbz w hi lo = .ok u ↔ bits w hi lo = 0 := by
  unfold mbz; split <;> simp_all

/-- The sequence of two readers answers when both do. -/
theorem bind_eq_ok {α β : Type} {x : Except DecodeError α} {f : α → Except DecodeError β} {b : β} :
    x >>= f = .ok b ↔ ∃ a, x = .ok a ∧ f a = .ok b := by
  cases x <;> simp [bind, Except.bind]

end Sys2Proof
end

