-- ==== Sys2Proof/Laws/Memory.lean ====
section
/-! SUPPORT. BUF: what a byte reads as after a write, that every operation keeps the canonical form, and the byte strings
that commands read and write. -/

namespace Sys2Proof.Machine

theorem Memory.wf_nil : Memory.wf [] := ⟨List.Pairwise.nil, by simp⟩

theorem Memory.wf_tail {c : Host.Cell} {m : Memory} (h : Memory.wf (c :: m)) : Memory.wf m :=
  ⟨(List.pairwise_cons.mp h.1).2, fun d hd => h.2 d (List.mem_cons_of_mem _ hd)⟩

/-- An address below every entry reads as unlisted. -/
theorem Memory.read_below {m : Memory} {a : Nat} (h : ∀ c ∈ m, a < c.1) : m.read a = Memory.unlisted := by
  induction m with
  | nil => rfl
  | cons c m ih =>
    obtain ⟨k, b⟩ := c
    have hk : k ≠ a := by have := h (k, b) (by simp); simp at this; omega
    simp only [Memory.read, hk, if_false]
    exact ih fun c hc => h c (List.mem_cons_of_mem _ hc)

/-- Where the entries of a written memory come from. -/
theorem Memory.mem_write {m : Memory} {a : Nat} {v : Byte} {c : Host.Cell} (h : c ∈ m.write a v) :
    (c = (a, v) ∧ v ≠ Memory.unlisted) ∨ c ∈ m := by
  induction m with
  | nil => by_cases hv : v = Memory.unlisted <;> simp_all [Memory.write]
  | cons d m ih =>
    obtain ⟨k, b⟩ := d
    simp only [Memory.write] at h
    split at h
    · split at h
      · exact .inr (List.mem_cons_of_mem _ h)
      · rcases List.mem_cons.mp h with h | h
        · exact .inl ⟨h, by assumption⟩
        · exact .inr (List.mem_cons_of_mem _ h)
    · split at h
      · split at h
        · exact .inr h
        · rcases List.mem_cons.mp h with h | h
          · exact .inl ⟨h, by assumption⟩
          · exact .inr h
      · rcases List.mem_cons.mp h with h | h
        · exact .inr (by simp [h])
        · rcases ih h with h | h
          · exact .inl h
          · exact .inr (List.mem_cons_of_mem _ h)

/-- A write keeps the canonical form. -/
theorem Memory.wf_write {m : Memory} (h : m.wf) (a : Nat) (v : Byte) : (m.write a v).wf := by
  induction m with
  | nil =>
    by_cases hv : v = Memory.unlisted
    · simp only [Memory.write, hv, if_true]; exact Memory.wf_nil
    · simp only [Memory.write, hv, if_false]; exact ⟨by simp, by simpa using hv⟩
  | cons d m ih =>
    obtain ⟨k, b⟩ := d
    have htail := Memory.wf_tail h
    have hlt := (List.pairwise_cons.mp h.1).1
    have hb : b ≠ Memory.unlisted := h.2 (k, b) (by simp)
    simp only [Memory.write]
    split
    · split
      · exact htail
      · rename_i hk hv
        subst hk
        refine ⟨List.pairwise_cons.mpr ⟨hlt, htail.1⟩, ?_⟩
        intro c hc
        rcases List.mem_cons.mp hc with rfl | hc
        · exact hv
        · exact htail.2 c hc
    · split
      · split
        · exact h
        · rename_i hk hak hv
          refine ⟨List.pairwise_cons.mpr ⟨?_, h.1⟩, ?_⟩
          · intro c hc
            rcases List.mem_cons.mp hc with rfl | hc
            · exact hak
            · have := hlt c hc; simp at this ⊢; omega
          · intro c hc
            rcases List.mem_cons.mp hc with rfl | hc
            · exact hv
            · exact h.2 c hc
      · refine ⟨List.pairwise_cons.mpr ⟨?_, (ih htail).1⟩, ?_⟩
        · intro c hc
          rcases Memory.mem_write hc with ⟨rfl, _⟩ | hc
          · simp; omega
          · exact hlt c hc
        · intro c hc
          rcases List.mem_cons.mp hc with rfl | hc
          · exact hb
          · exact (ih htail).2 c hc

/-- A read after a write. -/
theorem Memory.read_write {m : Memory} (h : m.wf) (a b : Nat) (v : Byte) :
    (m.write a v).read b = if b = a then v else m.read b := by
  induction m with
  | nil =>
    by_cases hv : v = Memory.unlisted <;> by_cases hb : b = a <;> simp [Memory.write, Memory.read, hv, hb]
    omega
  | cons d m ih =>
    obtain ⟨k, x⟩ := d
    have htail := Memory.wf_tail h
    have hlt : ∀ c ∈ m, k < c.1 := (List.pairwise_cons.mp h.1).1
    simp only [Memory.write]
    split
    · rename_i hk
      subst hk
      split
      · rename_i hv
        by_cases hb : b = k
        · subst hb; simp [hv, Memory.read_below hlt]
        · simp [Memory.read, hb, Ne.symm hb]
      · by_cases hb : b = k
        · subst hb; simp [Memory.read]
        · simp [Memory.read, hb, Ne.symm hb]
    · rename_i hk
      split
      · rename_i hak
        split
        · rename_i hv
          by_cases hb : b = a
          · subst hb
            have hall : ∀ c ∈ ((k, x) :: m : Memory), b < c.1 := by
              intro c hc
              rcases List.mem_cons.mp hc with rfl | hc
              · exact hak
              · have := hlt c hc; omega
            rw [if_pos rfl, hv]
            exact Memory.read_below hall
          · simp [hb]
        · by_cases hb : b = a
          · subst hb; simp [Memory.read]
          · simp [Memory.read, hb, Ne.symm hb]
      · by_cases hb : b = a
        · subst hb; simp [Memory.read, hk, ih htail]
        · by_cases hkb : k = b
          · subst hkb; simp [Memory.read, hb]
          · simp [Memory.read, hkb, ih htail, hb]

theorem Memory.mem_writeBytes {l : List Byte} {m : Memory} {a : Nat} {c : Host.Cell} (h : c ∈ m.writeBytes a l) :
    (a ≤ c.1 ∧ c.1 < a + l.length) ∨ c ∈ m := by
  induction l generalizing m a with
  | nil => exact .inr h
  | cons b l ih =>
    rcases ih (m := m.write a b) (a := a + 1) h with h | h
    · exact .inl (by simp; omega)
    · rcases Memory.mem_write h with ⟨rfl, _⟩ | h
      · exact .inl (by simp)
      · exact .inr h

/-- A store keeps the canonical form. -/
theorem Memory.wf_writeBytes {l : List Byte} {m : Memory} (h : m.wf) (a : Nat) : (m.writeBytes a l).wf := by
  induction l generalizing m a with
  | nil => exact h
  | cons b l ih => exact ih (Memory.wf_write h a b) (a + 1)

/-- What a byte reads as after a store: the string's byte inside the stored range, the old byte outside. -/
theorem Memory.read_writeBytes {l : List Byte} {m : Memory} (h : m.wf) (a b : Nat) :
    (m.writeBytes a l).read b = if a ≤ b then l.getD (b - a) (m.read b) else m.read b := by
  induction l generalizing m a with
  | nil => by_cases hb : a ≤ b <;> simp [Memory.writeBytes]
  | cons x l ih =>
    simp only [Memory.writeBytes]
    rw [ih (Memory.wf_write h a x) (a + 1)]
    rw [Memory.read_write h]
    by_cases hb : b = a
    · subst hb; simp
    · by_cases hab : a ≤ b
      · have h1 : a + 1 ≤ b := by omega
        have h2 : b - a = (b - (a + 1)) + 1 := by omega
        simp [hab, h1, hb, h2]
      · have h1 : ¬ a + 1 ≤ b := by omega
        simp [hab, h1, hb]

@[simp] theorem Memory.length_readBytes (m : Memory) (a n : Nat) : (m.readBytes a n).length = n := by
  induction n generalizing a with
  | zero => rfl
  | succ n ih => simp [Memory.readBytes, ih]

theorem Memory.getElem_readBytes (m : Memory) (a n k : Nat) (h : k < (m.readBytes a n).length) :
    (m.readBytes a n)[k] = m.read (a + k) := by
  induction n generalizing a k with
  | zero => simp [Memory.readBytes] at h
  | succ n ih =>
    cases k with
    | zero => simp [Memory.readBytes]
    | succ k =>
      simp only [Memory.readBytes, List.getElem_cons_succ]
      rw [ih]
      congr 1
      omega

/-- A region read in two parts. -/
theorem Memory.readBytes_append (m : Memory) (a n k : Nat) :
    m.readBytes a (n + k) = m.readBytes a n ++ m.readBytes (a + n) k := by
  induction n generalizing a with
  | zero => simp [Memory.readBytes]
  | succ n ih =>
    rw [show n + 1 + k = (n + k) + 1 by omega]
    simp only [Memory.readBytes, List.cons_append]
    rw [ih (a + 1), show a + 1 + n = a + (n + 1) by omega]

/-! ## Big-endian integers -/

@[simp] theorem length_beBytes (n v : Nat) : (beBytes n v).length = n := by
  induction n with
  | zero => rfl
  | succ n ih => simp [beBytes, ih]

theorem be_from (s : List Byte) (v : Nat) :
    s.foldl (fun v b => v * 256 + b.toNat) v = v * 256 ^ s.length + be s := by
  induction s generalizing v with
  | nil => simp [be]
  | cons b s ih =>
    simp only [be, List.foldl_cons, List.length_cons]
    rw [ih, ih (0 * 256 + b.toNat)]
    ring

theorem be_cons (b : Byte) (s : List Byte) : be (b :: s) = b.toNat * 256 ^ s.length + be s := by
  simp only [be, List.foldl_cons]
  rw [be_from]
  simp [be]

theorem be_lt (s : List Byte) : be s < 256 ^ s.length := by
  induction s with
  | nil => simp [be]
  | cons b s ih =>
    rw [be_cons, List.length_cons, pow_succ]
    have hb : b.toNat < 256 := b.isLt
    have : b.toNat * 256 ^ s.length ≤ 255 * 256 ^ s.length := Nat.mul_le_mul_right _ (by omega)
    omega

/-- Reading back what was spelled. -/
theorem be_beBytes (n v : Nat) : be (beBytes n v) = v % 256 ^ n := by
  induction n with
  | zero => simp [beBytes, be, Nat.mod_one]
  | succ n ih =>
    rw [beBytes, be_cons, ih, length_beBytes]
    have hsplit : v % 256 ^ (n + 1) = v % 256 ^ n + 256 ^ n * (v / 256 ^ n % 256) := by rw [pow_succ 256 n, Nat.mod_mul]
    rw [hsplit, BitVec.toNat_ofNat, Nat.add_comm, Nat.mul_comm]

theorem be_bytes32 {v : Nat} (h : v < 2 ^ 256) : be (bytes32 v) = v := by
  rw [bytes32, be_beBytes]
  exact Nat.mod_eq_of_lt (by norm_num at h ⊢; exact h)

/-- Spelling back what was read. -/
theorem beBytes_be (s : List Byte) : beBytes s.length (be s) = s := by
  induction s with
  | nil => rfl
  | cons b s ih =>
    have hb : b.toNat < 256 := b.isLt
    have hs := be_lt s
    have hdiv : (b.toNat * 256 ^ s.length + be s) / 256 ^ s.length = b.toNat := by
      rw [Nat.add_comm, Nat.add_mul_div_right _ _ (by positivity), Nat.div_eq_of_lt hs]; omega
    have hrest : ∀ n ≤ s.length, beBytes n (b.toNat * 256 ^ s.length + be s) = beBytes n (be s) := by
      intro n hn
      induction n with
      | zero => rfl
      | succ n ihn =>
        simp only [beBytes]
        rw [ihn (by omega)]
        congr 1
        obtain ⟨d, hd⟩ : ∃ d, s.length = n + 1 + d := ⟨s.length - (n + 1), by omega⟩
        have : b.toNat * 256 ^ s.length = (b.toNat * 256 ^ d * 256) * 256 ^ n := by rw [hd]; ring
        rw [this, Nat.add_comm, Nat.add_mul_div_right _ _ (by positivity)]
        apply BitVec.eq_of_toNat_eq
        simp only [BitVec.toNat_ofNat]
        omega
    rw [be_cons, List.length_cons, beBytes, hdiv, hrest _ le_rfl, ih]
    simp

/-- The byte at position `k` of a spelling. -/
theorem getElem_beBytes (n v k : Nat) (h : k < (beBytes n v).length) :
    (beBytes n v)[k] = BitVec.ofNat 8 (v / 256 ^ (n - 1 - k)) := by
  induction n generalizing k with
  | zero => simp [beBytes] at h
  | succ n ih =>
    cases k with
    | zero => simp [beBytes]
    | succ k =>
      simp only [beBytes, List.getElem_cons_succ]
      rw [ih]
      congr 3
      simp [beBytes] at h
      omega

end Sys2Proof.Machine
end

