-- ==== Sys2Proof/Laws/Engine.lean ====
section
/-! SUPPORT. What a turn of the machine can be, and what the host's byte accesses to BUF do, said once (20_memory.md R63 to
R70). -/

namespace Sys2Proof.Machine

/-! ## Turns -/

theorem step_wait_busy {s : State} {rest : List HostEvent} (h : s.host = .wait :: rest) (hb : s.busy = true) :
    step s = completeStep (s.setHost rest) := by
  simp [step, turn, h, hostTurn, waitTurn, State.setHost, hb]

theorem step_wait_idle {s : State} {rest : List HostEvent} (h : s.host = .wait :: rest) (hb : s.busy = false) :
    step s = .next (s.setHost rest) := by
  simp [step, turn, h, hostTurn, waitTurn, State.setHost, hb]

theorem step_empty_busy {s : State} (h : s.host = []) (hb : s.busy = true) : step s = completeStep s := by
  simp [step, turn, h, hb]

theorem step_empty_idle {s : State} (h : s.host = []) (hb : s.busy = false) : step s = .fault .idle := by
  simp [step, turn, h, hb]

theorem step_read {s : State} {rest : List HostEvent} {w : BusWidth} {addr : Nat} (h : s.host = .read w addr :: rest) :
    step s = hostRead w addr (s.setHost rest) := by
  simp [step, turn, h, hostTurn]

theorem step_write {s : State} {rest : List HostEvent} {w : BusWidth} {addr : Nat} {v : BitVec 64}
    (h : s.host = .write w addr v :: rest) : step s = hostWrite w addr v (s.setHost rest) := by
  simp [step, turn, h, hostTurn]

theorem step_reset {s : State} {rest : List HostEvent} (h : s.host = .reset :: rest) :
    step s = .next ((State.resetWith s.params).setHost rest) := by
  simp [step, turn, h, hostTurn, resetInput, State.setHost]

/-- A turn that answers a next state is one of these. -/
theorem step_next_cases {s t : State} (h : step s = .next t) :
    (∃ w addr rest, s.host = .read w addr :: rest ∧ hostRead w addr (s.setHost rest) = .next t) ∨
    (∃ w addr v rest, s.host = .write w addr v :: rest ∧ hostWrite w addr v (s.setHost rest) = .next t) ∨
    (∃ rest, s.host = .wait :: rest ∧ s.busy = true ∧ completeStep (s.setHost rest) = .next t) ∨
    (∃ rest, s.host = .wait :: rest ∧ s.busy = false ∧ t = s.setHost rest) ∨
    (∃ rest, s.host = .reset :: rest ∧ t = (State.resetWith s.params).setHost rest) ∨
    (s.host = [] ∧ s.busy = true ∧ completeStep s = .next t) := by
  rcases hh : s.host with _ | ⟨e, rest⟩
  · cases hb : s.busy
    · rw [step_empty_idle hh hb] at h; cases h
    · rw [step_empty_busy hh hb] at h; simp [h]
  · cases e with
    | read w addr => rw [step_read hh] at h; exact .inl ⟨w, addr, rest, rfl, h⟩
    | write w addr v => rw [step_write hh] at h; exact .inr (.inl ⟨w, addr, v, rest, rfl, h⟩)
    | wait =>
      cases hb : s.busy
      · rw [step_wait_idle hh hb] at h; cases h; simp
      · rw [step_wait_busy hh hb] at h; simp [h]
    | reset => rw [step_reset hh] at h; cases h; simp

/-! ## Accesses at a bus address -/

/-- An access the interface has is answered with a next state. -/
theorem withOffset_inside {w : BusWidth} {off : Nat} {s : State} {use : Nat → State} (h : offsetRefusal w off = none) :
    withOffset w (s.params.base + off) s use = .next (use off) := by
  simp [withOffset, h]

/-- The turn of a host read that the interface has. -/
theorem step_readAt {s : State} {rest : List HostEvent} {w : BusWidth} {off : Nat}
    (h : s.host = .read w (s.params.base + off) :: rest) (hk : offsetRefusal w off = none) :
    step s = .next ((s.setHost rest).readAt w off) := by
  rw [step_read h, hostRead]
  exact withOffset_inside (s := s.setHost rest) hk

/-- The turn of a host write that the interface has. -/
theorem step_writeAt {s : State} {rest : List HostEvent} {w : BusWidth} {off : Nat} {v : BitVec 64}
    (h : s.host = .write w (s.params.base + off) v :: rest) (hk : offsetRefusal w off = none) :
    step s = .next ((s.setHost rest).writeAt w off v) := by
  rw [step_write h, hostWrite]
  exact withOffset_inside (s := s.setHost rest) (use := fun o => (s.setHost rest).writeAt w o v) hk

/-- An access is answered with `use` of its offset, or refused for one of three reasons. -/
theorem withOffset_cases (w : BusWidth) (addr : Nat) (s : State) (use : Nat → State) :
    (addr < s.params.base ∧ withOffset w addr s use = .refused .outsideWindow) ∨
    ∃ off, addr = s.params.base + off ∧
      ((offsetRefusal w off = none ∧ withOffset w addr s use = .next (use off)) ∨
        (off < bufWindow ∧ ¬(w = .word ∧ off % 4 = 0) ∧ withOffset w addr s use = .refused .controlAccess) ∨
        (bufWindow ≤ off ∧ 0x10000 < off + w.bytes ∧ withOffset w addr s use = .refused .outsideWindow)) := by
  by_cases h : addr < s.params.base
  · exact .inl ⟨h, by simp [withOffset, h]⟩
  · refine .inr ⟨addr - s.params.base, by omega, ?_⟩
    simp only [withOffset, h, if_false, offsetRefusal]
    by_cases hc : addr - s.params.base < bufWindow
    · by_cases ha : w = .word ∧ (addr - s.params.base) % 4 = 0 <;> simp [hc, ha]
    · by_cases he : addr - s.params.base + w.bytes ≤ 0x10000
      · simp [hc, he]
      · have := Nat.not_le.1 he
        simp [hc, he, Nat.not_lt.1 hc, this]

/-! ## Byte accesses to BUF -/

/-- An idle engine answers with the bytes, and nothing changes. -/
theorem State.readBuf_idle {s : State} (hb : s.busy = false) (a n : Nat) :
    s.readBuf a n =
      (∑ k ∈ Finset.range n, (if a + k < s.params.bufBytes then (s.buf.read (a + k)).toNat else 0) * 256 ^ k, s) := by
  induction n generalizing a with
  | zero => rfl
  | succ n ih =>
    have hstep : s.readBufByte a = (if a < s.params.bufBytes then s.buf.read a else 0, s) := by
      by_cases h : a < s.params.bufBytes <;> simp [State.readBufByte, h, hb, Nat.not_le.2, Nat.not_lt.1]
    rw [State.readBuf, hstep, Finset.sum_range_succ', ih (a + 1)]
    simp only [Finset.mul_sum, Nat.pow_succ, Nat.add_zero, Nat.pow_zero, Nat.mul_one]
    congr 1
    rw [Nat.add_comm]
    congr 1
    · refine Finset.sum_congr rfl fun k _ => ?_
      rw [show a + 1 + k = a + (k + 1) by omega]
      ring
    · split <;> rfl

theorem State.overrun_twice (s : State) : s.overrun.overrun = s.overrun := rfl

/-- A busy engine answers zero, and OVR is set where a byte of BUF was meant. -/
theorem State.readBuf_busy {s : State} (hb : s.busy = true) (a n : Nat) :
    s.readBuf a n = (0, if n ≠ 0 ∧ a < s.params.bufBytes then s.overrun else s) := by
  induction n generalizing a s with
  | zero => rfl
  | succ n ih =>
    by_cases h : a < s.params.bufBytes
    · have hstep : s.readBufByte a = (0, s.overrun) := by simp [State.readBufByte, h, hb, Nat.not_le.2]
      rw [State.readBuf, hstep, ih (s := s.overrun) hb (a + 1), overrun_twice]
      simp [h]
    · have hstep : s.readBufByte a = (0, s) := by simp [State.readBufByte, Nat.not_lt.1 h]
      rw [State.readBuf, hstep, ih hb (a + 1)]
      have : ¬a + 1 < s.params.bufBytes := by omega
      simp [h, this]

/-- A busy engine discards the bytes, and OVR is set where a byte of BUF was meant. -/
theorem State.writeBuf_busy {s : State} (hb : s.busy = true) (a n v : Nat) :
    s.writeBuf a n v = if n ≠ 0 ∧ a < s.params.bufBytes then s.overrun else s := by
  induction n generalizing a v s with
  | zero => rfl
  | succ n ih =>
    by_cases h : a < s.params.bufBytes
    · have hstep : s.writeBufByte a (BitVec.ofNat 8 v) = s.overrun := by
        simp [State.writeBufByte, h, hb, Nat.not_le.2]
      rw [State.writeBuf, hstep, ih (s := s.overrun) hb (a + 1), overrun_twice]
      simp [h]
    · have hstep : s.writeBufByte a (BitVec.ofNat 8 v) = s := by simp [State.writeBufByte, Nat.not_lt.1 h]
      rw [State.writeBuf, hstep, ih hb (a + 1)]
      have : ¬a + 1 < s.params.bufBytes := by omega
      simp [h, this]

/-- An idle engine writes the bytes that lie in BUF, and nothing but BUF changes. -/
theorem State.writeBuf_idle {s : State} (hb : s.busy = false) (hw : s.buf.wf) (a n v : Nat) :
    ∃ m : Memory, s.writeBuf a n v = s.setBuf m ∧ m.wf ∧
      ∀ b, m.read b = if a ≤ b ∧ b < a + n ∧ b < s.params.bufBytes then BitVec.ofNat 8 (v / 256 ^ (b - a))
        else s.buf.read b := by
  induction n generalizing a v s with
  | zero => exact ⟨s.buf, rfl, hw, fun b => by rw [if_neg (by omega)]⟩
  | succ n ih =>
    by_cases h : a < s.params.bufBytes
    · have hstep : s.writeBufByte a (BitVec.ofNat 8 v) = s.setBuf (s.buf.write a (BitVec.ofNat 8 v)) := by
        simp [State.writeBufByte, h, hb, Nat.not_le.2]
      obtain ⟨m, hm, hmw, hr⟩ :=
        ih (s := s.setBuf (s.buf.write a (BitVec.ofNat 8 v))) hb (Memory.wf_write hw a _) (a + 1) (v / 256)
      refine ⟨m, by rw [State.writeBuf, hstep, hm]; rfl, hmw, fun b => ?_⟩
      rw [hr b]
      simp only [State.setBuf, Memory.read_write hw]
      by_cases hab : b = a
      · subst hab
        simp [h]
      · by_cases hin : a + 1 ≤ b ∧ b < a + 1 + n ∧ b < s.params.bufBytes
        · rw [if_pos hin, if_pos (show a ≤ b ∧ b < a + (n + 1) ∧ b < s.params.bufBytes by omega),
            Nat.div_div_eq_div_mul, show b - a = b - (a + 1) + 1 by omega, Nat.pow_succ, Nat.mul_comm]
        · rw [if_neg hin, if_neg hab, if_neg (show ¬(a ≤ b ∧ b < a + (n + 1) ∧ b < s.params.bufBytes) by omega)]
    · have hstep : s.writeBufByte a (BitVec.ofNat 8 v) = s := by simp [State.writeBufByte, Nat.not_lt.1 h]
      obtain ⟨m, hm, hmw, hr⟩ := ih hb hw (a + 1) (v / 256)
      refine ⟨m, by rw [State.writeBuf, hstep, hm], hmw, fun b => ?_⟩
      rw [hr b, if_neg (show ¬(a + 1 ≤ b ∧ b < a + 1 + n ∧ b < s.params.bufBytes) by omega),
        if_neg (show ¬(a ≤ b ∧ b < a + (n + 1) ∧ b < s.params.bufBytes) by omega)]

end Sys2Proof.Machine
end

