-- ==== Sys2Proof/Laws/Frobenius.lean ====
section
/-! SUPPORT. The Frobenius maps of 44_pairing.md R191: they keep sums and multiples, the second is the square of the first,
and with it acts as a sixth root of one. From that: an integer combination of a point's images that vanishes forces its
coefficients to vanish modulo `r`. -/

namespace Sys2Proof.Machine

open Config

/-! ## Conjugation -/

/-- The conjugation of `Fq2`. -/
def conj2 : Fq2 →+* Fq2 where
  toFun a := ⟨a.re, -a.im⟩
  map_one' := by
    have h : (1 : Fq2).im = 0 := QuadraticAlgebra.im_one
    ext <;> simp [h]
  map_mul' a b := by ext <;> (simp; try ring)
  map_zero' := by ext <;> simp
  map_add' a b := by ext <;> (simp; try ring)

theorem toFq2_conj (a : Ext2 Nat) : toFq2 (fq2Conj a) = conj2 (toFq2 a) := by
  ext <;> simp [toFq2, fq2Conj, conj2, cast_negMod q_pos]

theorem conj2_conj2 (a : Fq2) : conj2 (conj2 a) = a := by
  ext <;> simp [conj2]

/-- `xi^((q-1)/6)`, whose square and cube are the constants of `Frob1`. -/
def g16 : Ext2 Nat :=
  ⟨8376118865763821496583973867626364092589906065868298776909617916018768340080,
   16469823323077808223889137241176536799009286646108169935659301613961712198316⟩

theorem g16_sq : toFq2 g12 = toFq2 g16 * toFq2 g16 := by
  rw [← toFq2_mul]; exact congrArg toFq2 (by decide +kernel)

theorem g16_cube : toFq2 g13 = toFq2 g16 * toFq2 g16 * toFq2 g16 := by
  rw [← toFq2_mul, ← toFq2_mul]; exact congrArg toFq2 (by decide +kernel)

theorem g12_norm : conj2 (toFq2 g12) * toFq2 g12 = toFq2 g22 := by
  rw [← toFq2_conj, ← toFq2_mul]; exact congrArg toFq2 (by decide +kernel)

theorem g13_norm : conj2 (toFq2 g13) * toFq2 g13 = toFq2 g23 := by
  rw [← toFq2_conj, ← toFq2_mul]; exact congrArg toFq2 (by decide +kernel)

theorem toFq2_g23 : toFq2 g23 = -1 := by
  have h : toFq2 g23 + toFq2 ⟨1, 0⟩ = toFq2 ⟨0, 0⟩ := by
    rw [← toFq2_add]; exact congrArg toFq2 (by decide +kernel)
  rw [toFq2_one, toFq2_zero] at h
  exact eq_neg_of_add_eq_zero_left h

/-- `G22` is a primitive cube root of one. -/
theorem g22_root : toFq2 g22 * toFq2 g22 + toFq2 g22 + 1 = 0 := by
  rw [← toFq2_one, ← toFq2_zero, ← toFq2_mul, ← toFq2_add, ← toFq2_add]
  exact congrArg toFq2 (by decide +kernel)

/-- `Frob1` takes `B2` to itself: `conj(B2) * G13^2 = B2`. -/
theorem b2_conj : conj2 (toFq2 b2) * (toFq2 g13 * toFq2 g13) = toFq2 b2 := by
  rw [← toFq2_conj, ← toFq2_mul, ← toFq2_mul]; exact congrArg toFq2 (by decide +kernel)

/-! ## The maps and the group law -/

theorem canonPt_frob1 (P : TwistPt) : CanonPt Canonical2 (frob1 P) := by
  cases P with
  | inf => trivial
  | aff x y => exact ⟨canonical_fq2Mul _ _, canonical_fq2Mul _ _⟩

theorem canonPt_frob2 (P : TwistPt) : CanonPt Canonical2 (frob2 P) := by
  cases P with
  | inf => trivial
  | aff x y => exact ⟨canonical_fq2Mul _ _, canonical_fq2Mul _ _⟩

theorem canonPt_ptAdd {P S : TwistPt} (hP : CanonPt Canonical2 P) (hS : CanonPt Canonical2 S) :
    CanonPt Canonical2 (ptAdd fq2 P S) := by
  rcases P with _ | ⟨x1, y1⟩
  · exact hS
  · rcases S with _ | ⟨x2, y2⟩
    · exact hP
    · simp only [ptAdd]
      split
      · split
        · exact ⟨canonical_fq2Sub _ _, canonical_fq2Sub _ _⟩
        · trivial
      · exact ⟨canonical_fq2Sub _ _, canonical_fq2Sub _ _⟩

/-- `Frob1` twice is `Frob2`. -/
theorem frob1_frob1 (P : TwistPt) : frob1 (frob1 P) = frob2 P := by
  cases P with
  | inf => rfl
  | aff x y =>
    simp only [frob1, frob2, Pt.aff.injEq]
    constructor <;> refine toFq2_injective (canonical_fq2Mul _ _) (canonical_fq2Mul _ _) ?_ <;>
      simp only [toFq2_mul, toFq2_conj, map_mul, conj2_conj2, mul_assoc, g12_norm, g13_norm]

theorem g16_ne : haveI := fact_q; haveI := fact_fq2; toFq2 g16 ≠ 0 := by
  have := fact_q
  have := fact_fq2
  intro h
  have := g22_root
  rw [← g12_norm, g16_sq, h] at this
  simp at this

/-- Slopes go to slopes: where `lam` is the slope at `P` and `S`, its conjugate times `g16` is the slope at their images, so the
image of the third point is the third point of the images. -/
theorem frob1_thirdPoint {lam lam' x1 y1 x2 x1' y1' x2' : Ext2 Nat} (hl : toFq2 lam' = conj2 (toFq2 lam) * toFq2 g16)
    (h1 : toFq2 x1' = conj2 (toFq2 x1) * toFq2 g12) (h2 : toFq2 x2' = conj2 (toFq2 x2) * toFq2 g12)
    (h3 : toFq2 y1' = conj2 (toFq2 y1) * toFq2 g13) :
    frob1 (thirdPoint fq2 lam x1 y1 x2) = thirdPoint fq2 lam' x1' y1' x2' := by
  simp only [thirdPoint, frob1, fq2, Pt.aff.injEq]
  constructor <;> refine toFq2_injective (canonical_fq2Mul _ _) (canonical_fq2Sub _ _) ?_ <;>
    simp only [toFq2_mul, toFq2_conj, toFq2_sub, map_mul, map_sub, hl, h1, h2, h3, g16_sq, g16_cube] <;> ring

/-- `Frob1` keeps sums. -/
theorem frob1_ptAdd {P S : TwistPt} (hP : CanonPt Canonical2 P) (hS : CanonPt Canonical2 S) :
    frob1 (ptAdd fq2 P S) = ptAdd fq2 (frob1 P) (frob1 S) := by
  have := fact_q
  have := fact_fq2
  have hg := g16_ne
  have hg12 : toFq2 g12 ≠ 0 := by rw [g16_sq]; exact mul_ne_zero hg hg
  have hg13 : toFq2 g13 ≠ 0 := by rw [g16_cube]; exact mul_ne_zero (mul_ne_zero hg hg) hg
  rcases P with _ | ⟨x1, y1⟩
  · rfl
  · rcases S with _ | ⟨x2, y2⟩
    · rfl
    · have image : ∀ {a b g : Ext2 Nat}, Canonical2 a → Canonical2 b → toFq2 g ≠ 0 →
          (fq2Mul (fq2Conj a) g = fq2Mul (fq2Conj b) g ↔ a = b) := by
        intro a b g ha hb h0
        refine ⟨fun h => toFq2_injective ha hb ?_, fun h => by rw [h]⟩
        have := congrArg toFq2 h
        rw [toFq2_mul, toFq2_mul, toFq2_conj, toFq2_conj] at this
        rw [← conj2_conj2 (toFq2 a), mul_right_cancel₀ h0 this, conj2_conj2]
      have zero : ∀ {a g : Ext2 Nat}, Canonical2 a → toFq2 g ≠ 0 → (fq2Mul (fq2Conj a) g = fq2.zero ↔ a = fq2.zero) := by
        intro a g ha h0
        rw [← image ha (show Canonical2 fq2.zero from ⟨q_pos, q_pos⟩) h0]
        rw [show fq2Mul (fq2Conj fq2.zero) g = fq2.zero from toFq2_injective (canonical_fq2Mul _ _) ⟨q_pos, q_pos⟩ (by
          rw [toFq2_mul, toFq2_conj]; show conj2 (toFq2 ⟨0, 0⟩) * _ = toFq2 ⟨0, 0⟩; rw [toFq2_zero]; simp)]
      rw [show frob1 (.aff x1 y1) = .aff (fq2Mul (fq2Conj x1) g12) (fq2Mul (fq2Conj y1) g13) from rfl,
        show frob1 (.aff x2 y2) = .aff (fq2Mul (fq2Conj x2) g12) (fq2Mul (fq2Conj y2) g13) from rfl]
      simp only [ptAdd, image hP.1 hS.1 hg12, image hP.2 hS.2 hg13, Ne, zero hP.2 hg13]
      split
      · split
        · refine frob1_thirdPoint ?_ (by rw [toFq2_mul, toFq2_conj]) (by rw [toFq2_mul, toFq2_conj])
            (by rw [toFq2_mul, toFq2_conj])
          simp only [tangent, fq2, toFq2_mul, toFq2_inv, toFq2_conj, map_mul, map_inv₀, g16_cube, g16_sq]
          rw [show toFq2 ⟨3, 0⟩ = 3 from fq2Model.val_three, show toFq2 ⟨2, 0⟩ = 2 from fq2Model.val_two, map_ofNat, map_ofNat]
          simp only [mul_inv]
          field_simp
        · rfl
      · refine frob1_thirdPoint ?_ (by rw [toFq2_mul, toFq2_conj]) (by rw [toFq2_mul, toFq2_conj])
            (by rw [toFq2_mul, toFq2_conj])
        simp only [chord, fq2, toFq2_mul, toFq2_inv, toFq2_conj, toFq2_sub, map_mul, map_sub, map_inv₀, g16_cube, g16_sq]
        rw [← sub_mul, ← sub_mul, mul_inv]
        field_simp

/-- `Frob1` keeps negatives. -/
theorem frob1_ptNeg (P : TwistPt) : frob1 (ptNeg fq2 P) = ptNeg fq2 (frob1 P) := by
  cases P with
  | inf => rfl
  | aff x y =>
    simp only [frob1, ptNeg, Pt.aff.injEq, true_and]
    refine toFq2_injective (canonical_fq2Mul _ _) (canonical_fq2Neg _) ?_
    simp [fq2, toFq2_conj]

/-- `Frob1` keeps multiples. -/
theorem frob1_ptMul {P : TwistPt} (hP : CanonPt Canonical2 P) (k : Nat) :
    frob1 (ptMul fq2 k P) = ptMul fq2 k (frob1 P) := by
  have key : ∀ n k, CanonPt Canonical2 (ladder (ptAdd fq2) .inf P n k) ∧
      frob1 (ladder (ptAdd fq2) .inf P n k) = ladder (ptAdd fq2) .inf (frob1 P) n k := by
    intro n
    induction n with
    | zero => exact fun k => ⟨trivial, rfl⟩
    | succ n ih =>
      intro k
      obtain ⟨h1, h2⟩ := ih (k / 2)
      have h3 := canonPt_ptAdd h1 h1
      rw [ladder_succ, ladder_succ]
      split
      · exact ⟨canonPt_ptAdd h3 hP, by rw [frob1_ptAdd h3 hP, frob1_ptAdd h1 h1, h2]⟩
      · exact ⟨h3, by rw [frob1_ptAdd h1 h1, h2]⟩
  exact (key 256 k).2

/-- `Frob2` acts as a sixth root of one: `Frob2(Frob2(P)) + P = Frob2(P)` on the twist. -/
theorem frob2_sixth {x y : Ext2 Nat} (hx : Canonical2 x) (hy : Canonical2 y) (h : onCurve fq2 b2 x y = true) :
    ptAdd fq2 (frob2 (frob2 (.aff x y))) (.aff x y) = frob2 (.aff x y) := by
  have := fact_q
  have := fact_fq2
  have hroot := g22_root
  have hc : toFq2 y * toFq2 y = toFq2 x * toFq2 x * toFq2 x + toFq2 b2 := by
    have := (onCurve_iff (M := fq2Model)).mp h
    exact (shortCurve_equation).mp this
  have ey : fq2Mul (fq2Mul y g23) g23 = y :=
    toFq2_injective (canonical_fq2Mul _ _) hy (by rw [toFq2_mul, toFq2_mul, toFq2_g23]; ring)
  simp only [frob2, ptAdd, ey]
  by_cases h0 : toFq2 x = 0
  · have ex : fq2Mul (fq2Mul x g22) g22 = x :=
      toFq2_injective (canonical_fq2Mul _ _) hx (by rw [toFq2_mul, toFq2_mul, h0]; ring)
    have hy0 : y ≠ fq2.zero := by
      rintro rfl
      apply b2_ne
      rw [show toFq2 fq2.zero = 0 from toFq2_zero, h0] at hc
      linear_combination -hc
    rw [ex, if_pos rfl, if_pos ⟨trivial, hy0⟩]
    simp only [thirdPoint, Pt.aff.injEq]
    have hl : toFq2 (tangent fq2 x y) = 0 := by simp [tangent, fq2, h0]
    generalize tangent fq2 x y = lam at hl
    constructor <;> refine toFq2_injective (canonical_fq2Sub _ _) (canonical_fq2Mul _ _) ?_ <;>
      simp [fq2, hl, h0, toFq2_g23]
  · have hne : fq2Mul (fq2Mul x g22) g22 ≠ x := by
      intro he
      have h1 := congrArg toFq2 he
      rw [toFq2_mul, toFq2_mul] at h1
      have h2 : toFq2 g22 * toFq2 g22 = 1 := by
        apply mul_left_cancel₀ h0
        linear_combination h1
      have h3 : toFq2 g22 = -2 := by linear_combination hroot - h2
      rw [h3] at h2
      exact fq2Model.three_ne (by linear_combination h2)
    rw [if_neg hne]
    simp only [thirdPoint, Pt.aff.injEq]
    have hl : toFq2 (chord fq2 (fq2Mul (fq2Mul x g22) g22) y x y) = 0 := by simp [chord, fq2]
    generalize chord fq2 (fq2Mul (fq2Mul x g22) g22) y x y = lam at hl
    constructor <;> refine toFq2_injective (canonical_fq2Sub _ _) (canonical_fq2Mul _ _) ?_
    · simp only [fq2, toFq2_sub, toFq2_mul, hl]
      linear_combination (-toFq2 x) * hroot
    · simp only [fq2, toFq2_sub, toFq2_mul, hl, toFq2_g23]
      ring

/-! ## On the group of order `r` -/

/-- `Frob1` keeps the points R24 allows. -/
theorem good_frob1 {P : TwistPt} (h : G2Good P) : G2Good (frob1 P) := by
  have := fact_q
  have := fact_fq2
  cases P with
  | inf => exact good_inf
  | aff x y =>
    obtain ⟨hx, hy, hc, hs⟩ := (good_aff (M := fq2Model) b2_ne).mp h
    have hc' := shortCurve_equation.mp ((onCurve_iff (M := fq2Model)).mp hc)
    refine (good_aff (M := fq2Model) b2_ne).mpr ⟨canonical_fq2Mul _ _, canonical_fq2Mul _ _, ?_, ?_⟩
    · refine (onCurve_iff (M := fq2Model)).mpr (shortCurve_equation.mpr ?_)
      have hb := b2_conj
      have hcc := congrArg conj2 hc'
      simp only [fq2Model, map_mul, map_add] at hcc ⊢
      simp only [toFq2_mul, toFq2_conj]
      have h13 : toFq2 g13 * toFq2 g13 = toFq2 g12 * toFq2 g12 * toFq2 g12 := by rw [g16_cube, g16_sq]; ring
      linear_combination (toFq2 g13 * toFq2 g13) * hcc + hb + (conj2 (toFq2 x) ^ 3) * h13
    · have hm := frob1_ptMul (P := .aff x y) ⟨hx, hy⟩ r
      have hi := of_decide_eq_true hs
      exact decide_eq_true (by rw [show Pt.aff _ _ = frob1 (.aff x y) from rfl, ← hm, hi]; rfl)

/-- A multiple of a point R24 allows that is infinity is a multiple of `r` of it, or the point is infinity. -/
theorem dvd_of_zsmul_eq_zero {G : Type} [AddCommGroup G] {Q : G} (hr : r • Q = 0) (hQ : Q ≠ 0) {n : Int} (hn : n • Q = 0) :
    (r : Int) ∣ n := by
  have h1 := addOrderOf_dvd_of_nsmul_eq_zero hr
  rcases (Nat.dvd_prime r_prime).mp h1 with h | h
  · exact absurd (AddMonoid.addOrderOf_eq_one_iff.mp h) hQ
  · exact h ▸ addOrderOf_dvd_iff_zsmul_eq_zero.mpr hn

/-- A multiple by a number between 0 and `r` of a finite point R24 allows is finite. -/
theorem ptMul_ne_inf {P : TwistPt} (h : G2Good P) (hP : P ≠ .inf) {k : Nat} (h0 : 0 < k) (hk : k < r) :
    ptMul fq2 k P ≠ .inf := by
  have := fact_q
  have := fact_fq2
  obtain ⟨Q, hQ, hr⟩ := h
  intro hi
  have hm := stands_mul hQ (hk.trans r_lt_scalar)
  rw [hi] at hm
  have hQ0 : Q ≠ 0 := by
    rintro rfl
    exact hP (stands_left_unique hQ stands_inf)
  have hz : (k : Int) • Q = 0 := by rw [natCast_zsmul]; exact stands_right_unique hm stands_inf
  have := Int.le_of_dvd (by omega) (dvd_of_zsmul_eq_zero hr hQ0 hz)
  omega

end Sys2Proof.Machine
end

