-- ==== Sys2Proof/Laws/State.lean ====
section
/-! SUPPORT. One lemma for each field of `State` under each named update: what the update leaves there. -/

namespace Sys2Proof.Machine

variable (s : State)

@[simp] theorem State.setF_f (i : Fin 16) (v : Word) : (s.setF i v).f = s.f.set i v := rfl
@[simp] theorem State.setF_g (i : Fin 16) (v : Word) : (s.setF i v).g = s.g := rfl
@[simp] theorem State.setF_h (i : Fin 16) (v : Word) : (s.setF i v).h = s.h := rfl
@[simp] theorem State.setF_acc (i : Fin 16) (v : Word) : (s.setF i v).acc = s.acc := rfl
@[simp] theorem State.setF_t (i : Fin 16) (v : Word) : (s.setF i v).t = s.t := rfl
@[simp] theorem State.setF_vk (i : Fin 16) (v : Word) : (s.setF i v).vk = s.vk := rfl
@[simp] theorem State.setF_buf (i : Fin 16) (v : Word) : (s.setF i v).buf = s.buf := rfl
@[simp] theorem State.setF_ie (i : Fin 16) (v : Word) : (s.setF i v).ie = s.ie := rfl
@[simp] theorem State.setF_busy (i : Fin 16) (v : Word) : (s.setF i v).busy = s.busy := rfl
@[simp] theorem State.setF_done (i : Fin 16) (v : Word) : (s.setF i v).done = s.done := rfl
@[simp] theorem State.setF_ovr (i : Fin 16) (v : Word) : (s.setF i v).ovr = s.ovr := rfl
@[simp] theorem State.setF_err (i : Fin 16) (v : Word) : (s.setF i v).err = s.err := rfl
@[simp] theorem State.setF_cmd (i : Fin 16) (v : Word) : (s.setF i v).cmd = s.cmd := rfl
@[simp] theorem State.setF_len (i : Fin 16) (v : Word) : (s.setF i v).len = s.len := rfl
@[simp] theorem State.setF_params (i : Fin 16) (v : Word) : (s.setF i v).params = s.params := rfl
@[simp] theorem State.setF_host (i : Fin 16) (v : Word) : (s.setF i v).host = s.host := rfl
@[simp] theorem State.setF_readData (i : Fin 16) (v : Word) : (s.setF i v).readData = s.readData := rfl

@[simp] theorem State.setG_f (i : Fin 8) (v : G1Reg) : (s.setG i v).f = s.f := rfl
@[simp] theorem State.setG_g (i : Fin 8) (v : G1Reg) : (s.setG i v).g = s.g.set i v := rfl
@[simp] theorem State.setG_h (i : Fin 8) (v : G1Reg) : (s.setG i v).h = s.h := rfl
@[simp] theorem State.setG_acc (i : Fin 8) (v : G1Reg) : (s.setG i v).acc = s.acc := rfl
@[simp] theorem State.setG_t (i : Fin 8) (v : G1Reg) : (s.setG i v).t = s.t := rfl
@[simp] theorem State.setG_vk (i : Fin 8) (v : G1Reg) : (s.setG i v).vk = s.vk := rfl
@[simp] theorem State.setG_buf (i : Fin 8) (v : G1Reg) : (s.setG i v).buf = s.buf := rfl
@[simp] theorem State.setG_ie (i : Fin 8) (v : G1Reg) : (s.setG i v).ie = s.ie := rfl
@[simp] theorem State.setG_busy (i : Fin 8) (v : G1Reg) : (s.setG i v).busy = s.busy := rfl
@[simp] theorem State.setG_done (i : Fin 8) (v : G1Reg) : (s.setG i v).done = s.done := rfl
@[simp] theorem State.setG_ovr (i : Fin 8) (v : G1Reg) : (s.setG i v).ovr = s.ovr := rfl
@[simp] theorem State.setG_err (i : Fin 8) (v : G1Reg) : (s.setG i v).err = s.err := rfl
@[simp] theorem State.setG_cmd (i : Fin 8) (v : G1Reg) : (s.setG i v).cmd = s.cmd := rfl
@[simp] theorem State.setG_len (i : Fin 8) (v : G1Reg) : (s.setG i v).len = s.len := rfl
@[simp] theorem State.setG_params (i : Fin 8) (v : G1Reg) : (s.setG i v).params = s.params := rfl
@[simp] theorem State.setG_host (i : Fin 8) (v : G1Reg) : (s.setG i v).host = s.host := rfl
@[simp] theorem State.setG_readData (i : Fin 8) (v : G1Reg) : (s.setG i v).readData = s.readData := rfl

@[simp] theorem State.setH_f (i : Fin 4) (v : G2Reg) : (s.setH i v).f = s.f := rfl
@[simp] theorem State.setH_g (i : Fin 4) (v : G2Reg) : (s.setH i v).g = s.g := rfl
@[simp] theorem State.setH_h (i : Fin 4) (v : G2Reg) : (s.setH i v).h = s.h.set i v := rfl
@[simp] theorem State.setH_acc (i : Fin 4) (v : G2Reg) : (s.setH i v).acc = s.acc := rfl
@[simp] theorem State.setH_t (i : Fin 4) (v : G2Reg) : (s.setH i v).t = s.t := rfl
@[simp] theorem State.setH_vk (i : Fin 4) (v : G2Reg) : (s.setH i v).vk = s.vk := rfl
@[simp] theorem State.setH_buf (i : Fin 4) (v : G2Reg) : (s.setH i v).buf = s.buf := rfl
@[simp] theorem State.setH_ie (i : Fin 4) (v : G2Reg) : (s.setH i v).ie = s.ie := rfl
@[simp] theorem State.setH_busy (i : Fin 4) (v : G2Reg) : (s.setH i v).busy = s.busy := rfl
@[simp] theorem State.setH_done (i : Fin 4) (v : G2Reg) : (s.setH i v).done = s.done := rfl
@[simp] theorem State.setH_ovr (i : Fin 4) (v : G2Reg) : (s.setH i v).ovr = s.ovr := rfl
@[simp] theorem State.setH_err (i : Fin 4) (v : G2Reg) : (s.setH i v).err = s.err := rfl
@[simp] theorem State.setH_cmd (i : Fin 4) (v : G2Reg) : (s.setH i v).cmd = s.cmd := rfl
@[simp] theorem State.setH_len (i : Fin 4) (v : G2Reg) : (s.setH i v).len = s.len := rfl
@[simp] theorem State.setH_params (i : Fin 4) (v : G2Reg) : (s.setH i v).params = s.params := rfl
@[simp] theorem State.setH_host (i : Fin 4) (v : G2Reg) : (s.setH i v).host = s.host := rfl
@[simp] theorem State.setH_readData (i : Fin 4) (v : G2Reg) : (s.setH i v).readData = s.readData := rfl

@[simp] theorem State.setAcc_f (v : AccReg) : (s.setAcc v).f = s.f := rfl
@[simp] theorem State.setAcc_g (v : AccReg) : (s.setAcc v).g = s.g := rfl
@[simp] theorem State.setAcc_h (v : AccReg) : (s.setAcc v).h = s.h := rfl
@[simp] theorem State.setAcc_acc (v : AccReg) : (s.setAcc v).acc = v := rfl
@[simp] theorem State.setAcc_t (v : AccReg) : (s.setAcc v).t = s.t := rfl
@[simp] theorem State.setAcc_vk (v : AccReg) : (s.setAcc v).vk = s.vk := rfl
@[simp] theorem State.setAcc_buf (v : AccReg) : (s.setAcc v).buf = s.buf := rfl
@[simp] theorem State.setAcc_ie (v : AccReg) : (s.setAcc v).ie = s.ie := rfl
@[simp] theorem State.setAcc_busy (v : AccReg) : (s.setAcc v).busy = s.busy := rfl
@[simp] theorem State.setAcc_done (v : AccReg) : (s.setAcc v).done = s.done := rfl
@[simp] theorem State.setAcc_ovr (v : AccReg) : (s.setAcc v).ovr = s.ovr := rfl
@[simp] theorem State.setAcc_err (v : AccReg) : (s.setAcc v).err = s.err := rfl
@[simp] theorem State.setAcc_cmd (v : AccReg) : (s.setAcc v).cmd = s.cmd := rfl
@[simp] theorem State.setAcc_len (v : AccReg) : (s.setAcc v).len = s.len := rfl
@[simp] theorem State.setAcc_params (v : AccReg) : (s.setAcc v).params = s.params := rfl
@[simp] theorem State.setAcc_host (v : AccReg) : (s.setAcc v).host = s.host := rfl
@[simp] theorem State.setAcc_readData (v : AccReg) : (s.setAcc v).readData = s.readData := rfl

@[simp] theorem State.setT_f (b : Bool) : (s.setT b).f = s.f := rfl
@[simp] theorem State.setT_g (b : Bool) : (s.setT b).g = s.g := rfl
@[simp] theorem State.setT_h (b : Bool) : (s.setT b).h = s.h := rfl
@[simp] theorem State.setT_acc (b : Bool) : (s.setT b).acc = s.acc := rfl
@[simp] theorem State.setT_t (b : Bool) : (s.setT b).t = b := rfl
@[simp] theorem State.setT_vk (b : Bool) : (s.setT b).vk = s.vk := rfl
@[simp] theorem State.setT_buf (b : Bool) : (s.setT b).buf = s.buf := rfl
@[simp] theorem State.setT_ie (b : Bool) : (s.setT b).ie = s.ie := rfl
@[simp] theorem State.setT_busy (b : Bool) : (s.setT b).busy = s.busy := rfl
@[simp] theorem State.setT_done (b : Bool) : (s.setT b).done = s.done := rfl
@[simp] theorem State.setT_ovr (b : Bool) : (s.setT b).ovr = s.ovr := rfl
@[simp] theorem State.setT_err (b : Bool) : (s.setT b).err = s.err := rfl
@[simp] theorem State.setT_cmd (b : Bool) : (s.setT b).cmd = s.cmd := rfl
@[simp] theorem State.setT_len (b : Bool) : (s.setT b).len = s.len := rfl
@[simp] theorem State.setT_params (b : Bool) : (s.setT b).params = s.params := rfl
@[simp] theorem State.setT_host (b : Bool) : (s.setT b).host = s.host := rfl
@[simp] theorem State.setT_readData (b : Bool) : (s.setT b).readData = s.readData := rfl

@[simp] theorem State.setVk_f (k : KeyStore) : (s.setVk k).f = s.f := rfl
@[simp] theorem State.setVk_g (k : KeyStore) : (s.setVk k).g = s.g := rfl
@[simp] theorem State.setVk_h (k : KeyStore) : (s.setVk k).h = s.h := rfl
@[simp] theorem State.setVk_acc (k : KeyStore) : (s.setVk k).acc = s.acc := rfl
@[simp] theorem State.setVk_t (k : KeyStore) : (s.setVk k).t = s.t := rfl
@[simp] theorem State.setVk_vk (k : KeyStore) : (s.setVk k).vk = k := rfl
@[simp] theorem State.setVk_buf (k : KeyStore) : (s.setVk k).buf = s.buf := rfl
@[simp] theorem State.setVk_ie (k : KeyStore) : (s.setVk k).ie = s.ie := rfl
@[simp] theorem State.setVk_busy (k : KeyStore) : (s.setVk k).busy = s.busy := rfl
@[simp] theorem State.setVk_done (k : KeyStore) : (s.setVk k).done = s.done := rfl
@[simp] theorem State.setVk_ovr (k : KeyStore) : (s.setVk k).ovr = s.ovr := rfl
@[simp] theorem State.setVk_err (k : KeyStore) : (s.setVk k).err = s.err := rfl
@[simp] theorem State.setVk_cmd (k : KeyStore) : (s.setVk k).cmd = s.cmd := rfl
@[simp] theorem State.setVk_len (k : KeyStore) : (s.setVk k).len = s.len := rfl
@[simp] theorem State.setVk_params (k : KeyStore) : (s.setVk k).params = s.params := rfl
@[simp] theorem State.setVk_host (k : KeyStore) : (s.setVk k).host = s.host := rfl
@[simp] theorem State.setVk_readData (k : KeyStore) : (s.setVk k).readData = s.readData := rfl

@[simp] theorem State.setBuf_f (m : Memory) : (s.setBuf m).f = s.f := rfl
@[simp] theorem State.setBuf_g (m : Memory) : (s.setBuf m).g = s.g := rfl
@[simp] theorem State.setBuf_h (m : Memory) : (s.setBuf m).h = s.h := rfl
@[simp] theorem State.setBuf_acc (m : Memory) : (s.setBuf m).acc = s.acc := rfl
@[simp] theorem State.setBuf_t (m : Memory) : (s.setBuf m).t = s.t := rfl
@[simp] theorem State.setBuf_vk (m : Memory) : (s.setBuf m).vk = s.vk := rfl
@[simp] theorem State.setBuf_buf (m : Memory) : (s.setBuf m).buf = m := rfl
@[simp] theorem State.setBuf_ie (m : Memory) : (s.setBuf m).ie = s.ie := rfl
@[simp] theorem State.setBuf_busy (m : Memory) : (s.setBuf m).busy = s.busy := rfl
@[simp] theorem State.setBuf_done (m : Memory) : (s.setBuf m).done = s.done := rfl
@[simp] theorem State.setBuf_ovr (m : Memory) : (s.setBuf m).ovr = s.ovr := rfl
@[simp] theorem State.setBuf_err (m : Memory) : (s.setBuf m).err = s.err := rfl
@[simp] theorem State.setBuf_cmd (m : Memory) : (s.setBuf m).cmd = s.cmd := rfl
@[simp] theorem State.setBuf_len (m : Memory) : (s.setBuf m).len = s.len := rfl
@[simp] theorem State.setBuf_params (m : Memory) : (s.setBuf m).params = s.params := rfl
@[simp] theorem State.setBuf_host (m : Memory) : (s.setBuf m).host = s.host := rfl
@[simp] theorem State.setBuf_readData (m : Memory) : (s.setBuf m).readData = s.readData := rfl

@[simp] theorem State.clearVk_f : (s.clearVk).f = s.f := rfl
@[simp] theorem State.clearVk_g : (s.clearVk).g = s.g := rfl
@[simp] theorem State.clearVk_h : (s.clearVk).h = s.h := rfl
@[simp] theorem State.clearVk_acc : (s.clearVk).acc = s.acc := rfl
@[simp] theorem State.clearVk_t : (s.clearVk).t = s.t := rfl
@[simp] theorem State.clearVk_vk : (s.clearVk).vk = .empty s.params.icMax := rfl
@[simp] theorem State.clearVk_buf : (s.clearVk).buf = s.buf := rfl
@[simp] theorem State.clearVk_ie : (s.clearVk).ie = s.ie := rfl
@[simp] theorem State.clearVk_busy : (s.clearVk).busy = s.busy := rfl
@[simp] theorem State.clearVk_done : (s.clearVk).done = s.done := rfl
@[simp] theorem State.clearVk_ovr : (s.clearVk).ovr = s.ovr := rfl
@[simp] theorem State.clearVk_err : (s.clearVk).err = s.err := rfl
@[simp] theorem State.clearVk_cmd : (s.clearVk).cmd = s.cmd := rfl
@[simp] theorem State.clearVk_len : (s.clearVk).len = s.len := rfl
@[simp] theorem State.clearVk_params : (s.clearVk).params = s.params := rfl
@[simp] theorem State.clearVk_host : (s.clearVk).host = s.host := rfl
@[simp] theorem State.clearVk_readData : (s.clearVk).readData = s.readData := rfl

@[simp] theorem State.finish_f (e : Err) : (s.finish e).f = s.f := rfl
@[simp] theorem State.finish_g (e : Err) : (s.finish e).g = s.g := rfl
@[simp] theorem State.finish_h (e : Err) : (s.finish e).h = s.h := rfl
@[simp] theorem State.finish_acc (e : Err) : (s.finish e).acc = s.acc := rfl
@[simp] theorem State.finish_t (e : Err) : (s.finish e).t = s.t := rfl
@[simp] theorem State.finish_vk (e : Err) : (s.finish e).vk = s.vk := rfl
@[simp] theorem State.finish_buf (e : Err) : (s.finish e).buf = s.buf := rfl
@[simp] theorem State.finish_ie (e : Err) : (s.finish e).ie = s.ie := rfl
@[simp] theorem State.finish_busy (e : Err) : (s.finish e).busy = false := rfl
@[simp] theorem State.finish_done (e : Err) : (s.finish e).done = true := rfl
@[simp] theorem State.finish_ovr (e : Err) : (s.finish e).ovr = s.ovr := rfl
@[simp] theorem State.finish_err (e : Err) : (s.finish e).err = e := rfl
@[simp] theorem State.finish_cmd (e : Err) : (s.finish e).cmd = s.cmd := rfl
@[simp] theorem State.finish_len (e : Err) : (s.finish e).len = s.len := rfl
@[simp] theorem State.finish_params (e : Err) : (s.finish e).params = s.params := rfl
@[simp] theorem State.finish_host (e : Err) : (s.finish e).host = s.host := rfl
@[simp] theorem State.finish_readData (e : Err) : (s.finish e).readData = s.readData := rfl

@[simp] theorem State.setHost_f (l : List HostEvent) : (s.setHost l).f = s.f := rfl
@[simp] theorem State.setHost_g (l : List HostEvent) : (s.setHost l).g = s.g := rfl
@[simp] theorem State.setHost_h (l : List HostEvent) : (s.setHost l).h = s.h := rfl
@[simp] theorem State.setHost_acc (l : List HostEvent) : (s.setHost l).acc = s.acc := rfl
@[simp] theorem State.setHost_t (l : List HostEvent) : (s.setHost l).t = s.t := rfl
@[simp] theorem State.setHost_vk (l : List HostEvent) : (s.setHost l).vk = s.vk := rfl
@[simp] theorem State.setHost_buf (l : List HostEvent) : (s.setHost l).buf = s.buf := rfl
@[simp] theorem State.setHost_ie (l : List HostEvent) : (s.setHost l).ie = s.ie := rfl
@[simp] theorem State.setHost_busy (l : List HostEvent) : (s.setHost l).busy = s.busy := rfl
@[simp] theorem State.setHost_done (l : List HostEvent) : (s.setHost l).done = s.done := rfl
@[simp] theorem State.setHost_ovr (l : List HostEvent) : (s.setHost l).ovr = s.ovr := rfl
@[simp] theorem State.setHost_err (l : List HostEvent) : (s.setHost l).err = s.err := rfl
@[simp] theorem State.setHost_cmd (l : List HostEvent) : (s.setHost l).cmd = s.cmd := rfl
@[simp] theorem State.setHost_len (l : List HostEvent) : (s.setHost l).len = s.len := rfl
@[simp] theorem State.setHost_params (l : List HostEvent) : (s.setHost l).params = s.params := rfl
@[simp] theorem State.setHost_host (l : List HostEvent) : (s.setHost l).host = l := rfl
@[simp] theorem State.setHost_readData (l : List HostEvent) : (s.setHost l).readData = s.readData := rfl

@[simp] theorem State.overrun_f : (s.overrun).f = s.f := rfl
@[simp] theorem State.overrun_g : (s.overrun).g = s.g := rfl
@[simp] theorem State.overrun_h : (s.overrun).h = s.h := rfl
@[simp] theorem State.overrun_acc : (s.overrun).acc = s.acc := rfl
@[simp] theorem State.overrun_t : (s.overrun).t = s.t := rfl
@[simp] theorem State.overrun_vk : (s.overrun).vk = s.vk := rfl
@[simp] theorem State.overrun_buf : (s.overrun).buf = s.buf := rfl
@[simp] theorem State.overrun_ie : (s.overrun).ie = s.ie := rfl
@[simp] theorem State.overrun_busy : (s.overrun).busy = s.busy := rfl
@[simp] theorem State.overrun_done : (s.overrun).done = s.done := rfl
@[simp] theorem State.overrun_ovr : (s.overrun).ovr = true := rfl
@[simp] theorem State.overrun_err : (s.overrun).err = s.err := rfl
@[simp] theorem State.overrun_cmd : (s.overrun).cmd = s.cmd := rfl
@[simp] theorem State.overrun_len : (s.overrun).len = s.len := rfl
@[simp] theorem State.overrun_params : (s.overrun).params = s.params := rfl
@[simp] theorem State.overrun_host : (s.overrun).host = s.host := rfl
@[simp] theorem State.overrun_readData : (s.overrun).readData = s.readData := rfl

@[simp] theorem State.issue_f (w : Reg32) : (s.issue w).f = s.f := rfl
@[simp] theorem State.issue_g (w : Reg32) : (s.issue w).g = s.g := rfl
@[simp] theorem State.issue_h (w : Reg32) : (s.issue w).h = s.h := rfl
@[simp] theorem State.issue_acc (w : Reg32) : (s.issue w).acc = s.acc := rfl
@[simp] theorem State.issue_t (w : Reg32) : (s.issue w).t = s.t := rfl
@[simp] theorem State.issue_vk (w : Reg32) : (s.issue w).vk = s.vk := rfl
@[simp] theorem State.issue_buf (w : Reg32) : (s.issue w).buf = s.buf := rfl
@[simp] theorem State.issue_ie (w : Reg32) : (s.issue w).ie = s.ie := rfl
@[simp] theorem State.issue_busy (w : Reg32) : (s.issue w).busy = true := rfl
@[simp] theorem State.issue_done (w : Reg32) : (s.issue w).done = false := rfl
@[simp] theorem State.issue_ovr (w : Reg32) : (s.issue w).ovr = s.ovr := rfl
@[simp] theorem State.issue_err (w : Reg32) : (s.issue w).err = s.err := rfl
@[simp] theorem State.issue_cmd (w : Reg32) : (s.issue w).cmd = w := rfl
@[simp] theorem State.issue_len (w : Reg32) : (s.issue w).len = s.len := rfl
@[simp] theorem State.issue_params (w : Reg32) : (s.issue w).params = s.params := rfl
@[simp] theorem State.issue_host (w : Reg32) : (s.issue w).host = s.host := rfl
@[simp] theorem State.issue_readData (w : Reg32) : (s.issue w).readData = s.readData := rfl

end Sys2Proof.Machine
end

