-- ==== Sys2Proof/Laws/Outcomes.lean ====
section
/-! SUPPORT. What each operand form and each ending can do, said once: a meaning is one of these applied to the rest. -/

namespace Sys2Proof.Machine

theorem complete_eq (s : State) : complete s = .next (completed s) := rfl

theorem completeT_eq (b : Bool) (s : State) : completeT b s = .next (completed { s with t := b }) := rfl

theorem raise_eq (e : Err) (s : State) : raise e s = .next (failed e s) := rfl

/-- A field operand in range. -/
theorem withElement_inRange {fs : FieldSel} {i : Fin 16} {s : State} {use : Nat → Result}
    (h : s.raw i < modulus fs) : withElement fs i s use = use (s.raw i) := by simp [withElement, h]

/-- A field operand out of range raises `OutOfRange` (40_field.md R120). -/
theorem withElement_outOfRange {fs : FieldSel} {i : Fin 16} {s : State} {use : Nat → Result}
    (h : modulus fs ≤ s.raw i) : withElement fs i s use = .next (failed .outOfRange s) := by
  simp [withElement, Nat.not_lt.mpr h, raise_eq]

/-- All a field operand can lead to. -/
theorem withElement_cases (fs : FieldSel) (i : Fin 16) (s : State) (use : Nat → Result) :
    (s.raw i < modulus fs ∧ withElement fs i s use = use (s.raw i)) ∨
    (modulus fs ≤ s.raw i ∧ withElement fs i s use = .next (failed .outOfRange s)) := by
  rcases Nat.lt_or_ge (s.raw i) (modulus fs) with h | h
  · exact .inl ⟨h, withElement_inRange h⟩
  · exact .inr ⟨h, withElement_outOfRange h⟩

theorem withElements_inRange {fs : FieldSel} {i j : Fin 16} {s : State} {use : Nat → Nat → Result}
    (hi : s.raw i < modulus fs) (hj : s.raw j < modulus fs) :
    withElements fs i j s use = use (s.raw i) (s.raw j) := by
  rw [withElements, withElement_inRange hi, withElement_inRange hj]

/-- All two field operands can lead to. -/
theorem withElements_cases (fs : FieldSel) (i j : Fin 16) (s : State) (use : Nat → Nat → Result) :
    (s.raw i < modulus fs ∧ s.raw j < modulus fs ∧ withElements fs i j s use = use (s.raw i) (s.raw j)) ∨
    ((modulus fs ≤ s.raw i ∨ modulus fs ≤ s.raw j) ∧ withElements fs i j s use = .next (failed .outOfRange s)) := by
  rcases withElement_cases fs i s (fun a => withElement fs j s fun b => use a b) with ⟨hi, h⟩ | ⟨hi, h⟩
  · rcases withElement_cases fs j s (use (s.raw i)) with ⟨hj, h'⟩ | ⟨hj, h'⟩
    · exact .inl ⟨hi, hj, by rw [withElements, h, h']⟩
    · exact .inr ⟨.inr hj, by rw [withElements, h, h']⟩
  · exact .inr ⟨.inl hi, by rw [withElements, h]⟩

/-- A region inside BUF. -/
theorem withRegion_inside {addr : BitVec 15} {size : Nat} {s : State} {use : Nat → Result}
    (h : addr.toNat + size ≤ s.params.bufBytes) : withRegion addr size s use = use addr.toNat := by simp [withRegion, h]

/-- A region not wholly inside BUF raises `BadAddress` (41_move.md R140). -/
theorem withRegion_outside {addr : BitVec 15} {size : Nat} {s : State} {use : Nat → Result}
    (h : s.params.bufBytes < addr.toNat + size) : withRegion addr size s use = .next (failed .badAddress s) := by
  simp [withRegion, Nat.not_le.mpr h, raise_eq]

/-- All a BUF operand can lead to. -/
theorem withRegion_cases (addr : BitVec 15) (size : Nat) (s : State) (use : Nat → Result) :
    (addr.toNat + size ≤ s.params.bufBytes ∧ withRegion addr size s use = use addr.toNat) ∨
    (s.params.bufBytes < addr.toNat + size ∧ withRegion addr size s use = .next (failed .badAddress s)) := by
  rcases Nat.lt_or_ge s.params.bufBytes (addr.toNat + size) with h | h
  · exact .inr ⟨h, withRegion_outside h⟩
  · exact .inl ⟨h, withRegion_inside h⟩

/-- What the subgroup line lets through. -/
theorem subgroupChecked_eq_some {F : Type} [DecidableEq F] {K : CoordOps F} {c : Option (Pt F)} {P : Pt F} :
    subgroupChecked K c = some P ↔ c = some P ∧ (P = .inf ∨ inSubgroup K P = true) := by
  rcases c with _ | (_ | ⟨x, y⟩)
  · simp [subgroupChecked]
  · show some Pt.inf = some P ↔ _
    exact ⟨fun h => by cases h; exact ⟨rfl, .inl rfl⟩, fun h => h.1⟩
  · simp only [subgroupChecked, Option.some.injEq]
    split
    · rename_i h
      constructor
      · rintro h'; cases h'; exact ⟨rfl, .inr h⟩
      · rintro ⟨h', _⟩; exact congrArg some h'
    · rename_i h
      constructor
      · rintro h'; cases h'
      · rintro ⟨rfl, h' | h'⟩
        · cases h'
        · exact absurd h' h

/-- What a G1 candidate is (41_move.md R145, the lines before the subgroup line). -/
theorem g1Candidate_eq_some {s : List Byte} {P : Pt Nat} :
    g1Candidate s = some P ↔
      beAt s 0 < Config.q ∧ beAt s 32 < Config.q ∧
      ((beAt s 0 = 0 ∧ beAt s 32 = 0 ∧ P = .inf) ∨
       (¬(beAt s 0 = 0 ∧ beAt s 32 = 0) ∧ onCurve fq Config.b1 (beAt s 0) (beAt s 32) = true ∧
        P = .aff (beAt s 0) (beAt s 32))) := by
  simp only [g1Candidate]
  split
  · rename_i h; simp; omega
  · rename_i h
    split
    · rename_i h0; simp only [Option.some.injEq]; constructor
      · rintro rfl; exact ⟨by omega, by omega, .inl ⟨h0.1, h0.2, rfl⟩⟩
      · rintro ⟨_, _, ⟨_, _, rfl⟩ | ⟨hn, _⟩⟩
        · rfl
        · exact absurd h0 hn
    · rename_i h0
      split
      · rename_i hc; simp only [Option.some.injEq]; constructor
        · rintro rfl; exact ⟨by omega, by omega, .inr ⟨h0, hc, rfl⟩⟩
        · rintro ⟨_, _, ⟨h1, h2, _⟩ | ⟨_, _, rfl⟩⟩
          · exact absurd ⟨h1, h2⟩ h0
          · rfl
      · rename_i hc; simp; intro _ _; exact ⟨fun h1 h2 => absurd ⟨h1, h2⟩ h0, fun _ h => absurd h hc⟩

end Sys2Proof.Machine
end

