-- ==== Sys2Proof/Laws/PerInstr.lean ====
section
/-! SUPPORT. A statement about every command, one lemma for each: its word carries the table's opcode in bits 31:24
(30_encoding.md R90, R95). -/

namespace Sys2Proof.Laws

open Sys2Proof

namespace OpcodeByte

/-- The word of a command carries its opcode. -/
def Statement (i : Instr) : Prop := bits (encode i) 31 24 = i.opcode

theorem nop : Statement (.nop) := (bits_encodeS (opcode_lt _) (by decide)).1

theorem fadd (fs : FieldSel) (rd ra rb : Fin 16) : Statement (.fadd fs rd ra rb) := (bits_encodeR (opcode_lt _) (fsBit_lt fs) (by omega) (by omega) (by omega)).1

theorem fsub (fs : FieldSel) (rd ra rb : Fin 16) : Statement (.fsub fs rd ra rb) := (bits_encodeR (opcode_lt _) (fsBit_lt fs) (by omega) (by omega) (by omega)).1

theorem fneg (fs : FieldSel) (rd ra : Fin 16) : Statement (.fneg fs rd ra) := (bits_encodeR (opcode_lt _) (fsBit_lt fs) (by omega) (by omega) (by decide)).1

theorem fmul (fs : FieldSel) (rd ra rb : Fin 16) : Statement (.fmul fs rd ra rb) := (bits_encodeR (opcode_lt _) (fsBit_lt fs) (by omega) (by omega) (by omega)).1

theorem fsqr (fs : FieldSel) (rd ra : Fin 16) : Statement (.fsqr fs rd ra) := (bits_encodeR (opcode_lt _) (fsBit_lt fs) (by omega) (by omega) (by decide)).1

theorem finv (fs : FieldSel) (rd ra : Fin 16) : Statement (.finv fs rd ra) := (bits_encodeR (opcode_lt _) (fsBit_lt fs) (by omega) (by omega) (by decide)).1

theorem fpow (fs : FieldSel) (rd ra rb : Fin 16) : Statement (.fpow fs rd ra rb) := (bits_encodeR (opcode_lt _) (fsBit_lt fs) (by omega) (by omega) (by omega)).1

theorem fisz (fs : FieldSel) (ra : Fin 16) : Statement (.fisz fs ra) := (bits_encodeR (opcode_lt _) (fsBit_lt fs) (by decide) (by omega) (by decide)).1

theorem feq (fs : FieldSel) (ra rb : Fin 16) : Statement (.feq fs ra rb) := (bits_encodeR (opcode_lt _) (fsBit_lt fs) (by decide) (by omega) (by omega)).1

theorem ldf (fs : FieldSel) (rt : Fin 16) (addr : BitVec 15) : Statement (.ldf fs rt addr) := (bits_encodeM (opcode_lt _) (fsBit_lt fs) (by omega) addr.isLt).1

theorem stf (fs : FieldSel) (rt : Fin 16) (addr : BitVec 15) : Statement (.stf fs rt addr) := (bits_encodeM (opcode_lt _) (fsBit_lt fs) (by omega) addr.isLt).1

theorem ldraw (rt : Fin 16) (addr : BitVec 15) : Statement (.ldraw rt addr) := (bits_encodeM (opcode_lt _) (by decide) (by omega) addr.isLt).1

theorem straw (rt : Fin 16) (addr : BitVec 15) : Statement (.straw rt addr) := (bits_encodeM (opcode_lt _) (by decide) (by omega) addr.isLt).1

theorem ldg1 (rt : Fin 8) (addr : BitVec 15) : Statement (.ldg1 rt addr) := (bits_encodeM (opcode_lt _) (by decide) (by omega) addr.isLt).1

theorem stg1 (rt : Fin 8) (addr : BitVec 15) : Statement (.stg1 rt addr) := (bits_encodeM (opcode_lt _) (by decide) (by omega) addr.isLt).1

theorem ldg2 (rt : Fin 4) (addr : BitVec 15) : Statement (.ldg2 rt addr) := (bits_encodeM (opcode_lt _) (by decide) (by omega) addr.isLt).1

theorem stg2 (rt : Fin 4) (addr : BitVec 15) : Statement (.stg2 rt addr) := (bits_encodeM (opcode_lt _) (by decide) (by omega) addr.isLt).1

theorem g1add (rd ra rb : Fin 8) : Statement (.g1add rd ra rb) := (bits_encodeR (opcode_lt _) (by decide) (by omega) (by omega) (by omega)).1

theorem g2add (rd ra rb : Fin 4) : Statement (.g2add rd ra rb) := (bits_encodeR (opcode_lt _) (by decide) (by omega) (by omega) (by omega)).1

theorem g1smul (rd ra : Fin 8) (rb : Fin 16) : Statement (.g1smul rd ra rb) := (bits_encodeR (opcode_lt _) (by decide) (by omega) (by omega) (by omega)).1

theorem g2smul (rd ra : Fin 4) (rb : Fin 16) : Statement (.g2smul rd ra rb) := (bits_encodeR (opcode_lt _) (by decide) (by omega) (by omega) (by omega)).1

theorem g1onc (addr : BitVec 15) : Statement (.g1onc addr) := (bits_encodeM (opcode_lt _) (by decide) (by decide) addr.isLt).1

theorem g1subg (addr : BitVec 15) : Statement (.g1subg addr) := (bits_encodeM (opcode_lt _) (by decide) (by decide) addr.isLt).1

theorem g2onc (addr : BitVec 15) : Statement (.g2onc addr) := (bits_encodeM (opcode_lt _) (by decide) (by decide) addr.isLt).1

theorem g2subg (addr : BitVec 15) : Statement (.g2subg addr) := (bits_encodeM (opcode_lt _) (by decide) (by decide) addr.isLt).1

theorem accone : Statement (.accone) := (bits_encodeS (opcode_lt _) (by decide)).1

theorem miller (ra : Fin 8) (rb : Fin 4) : Statement (.miller ra rb) := (bits_encodeR (opcode_lt _) (by decide) (by decide) (by omega) (by omega)).1

theorem fexp : Statement (.fexp) := (bits_encodeS (opcode_lt _) (by decide)).1

theorem pperm (rd ra : Fin 16) : Statement (.pperm rd ra) := (bits_encodeR (opcode_lt _) (by decide) (by omega) (by omega) (by decide)).1

theorem phash (rd ra rb : Fin 16) : Statement (.phash rd ra rb) := (bits_encodeR (opcode_lt _) (by decide) (by omega) (by omega) (by omega)).1

theorem vkload (addr : BitVec 15) : Statement (.vkload addr) := (bits_encodeM (opcode_lt _) (by decide) (by decide) addr.isLt).1

theorem vkclr : Statement (.vkclr) := (bits_encodeS (opcode_lt _) (by decide)).1

theorem verify (n : BitVec 8) (addr : BitVec 15) : Statement (.verify n addr) := (bits_encodeV (opcode_lt _) n.isLt addr.isLt).1

theorem wipe (sel : BitVec 5) : Statement (.wipe sel) := (bits_encodeS (opcode_lt _) sel.isLt).1

end OpcodeByte

end Sys2Proof.Laws
end

