-- ==== Sys2Proof/Tests/Slice0.lean ====
section
/-! SUPPORT. Small tests: the refusals of WellFormed, one word of every command written out bit by bit from 30_encoding.md
R91 and R95, and single steps whose expected results are the rows of 95_test_vectors.md. The witnesses of the statements
stand in Tests/Witnesses.lean. -/

set_option Elab.async false

namespace Sys2Proof.Tests

open Sys2Proof.Machine

/-! ## What the tests start from -/

/-- The toy record of 95_test_vectors.md section 2.5. -/
def toyPos : Pos :=
  { alpha := 5, rf := 2, rp := 1, rc := [1, 2, 3, 4, 5, 6, 7, 8, 9], mds := ⟨⟨2, 1, 1⟩, ⟨1, 2, 1⟩, ⟨1, 1, 2⟩⟩ }

/-- Where the platform of these tests puts the window. -/
def dev : Nat := 0x40000000

/-- The configuration of 95_test_vectors.md. -/
def testParams : Params := { bufBytes := 4096, icMax := 8, wireOrder := .c1First, base := dev, pos := toyPos }

/-- The state after reset and initialisation. -/
def idle : State := { State.resetWith testParams with busy := false }

/-- `f1 = a`, `f2 = b`, `f3 = 0xDEAD`, as section 2.2 starts. -/
def withF (a b : Nat) : State := ((idle.setF 1 (wordOf a)).setF 2 (wordOf b)).setF 3 0xDEAD

/-- A memory of the bytes `bs` at `a`, and zero elsewhere. -/
def cells : Nat → List Byte → Memory
  | _, [] => []
  | a, b :: bs => if b = 0 then cells (a + 1) bs else (a, b) :: cells (a + 1) bs

/-- BUF holds `bs` at `a`, and zero elsewhere. -/
def put (a : Nat) (bs : List Byte) (s : State) : State := s.setBuf (cells a bs)

/-- One step that runs the word `w`. -/
def run (w : Nat) (s : State) : Result := step (s.withFetchWord 32 w)

/-- The step answers a state with the property `p`. -/
def gives (r : Result) (p : State → Bool) : Bool :=
  match r with
  | .next t => p t
  | _ => false

/-- The field command `w` on `a` and `b` leaves `v` in `f3`, `t` in T and `e` in ERR. -/
def row (w a b v : Nat) (t : Bool) (e : Err) : Bool :=
  gives (run w (withF a b)) fun s => s.raw 3 == v && s.t == t && s.err == e && s.done && !s.busy

/-- The generator of G1. -/
def genG : Pt Nat := .aff 1 2

/-- `2G` (95_test_vectors.md section 2.4). -/
def twoG : Pt Nat :=
  .aff 1368015179489954701390400359078579693043519447331113978918064868415326638035
    9918110051302171585080402603319702774565515993150576347155970296011118125764

/-- `3G`. -/
def threeG : Pt Nat :=
  .aff 3353031288059533942658390886683067124040920775575537747144343083137631628272
    19321533766552368860946552437480515441416830039777911637913418824951667761761

/-- `G2GEN`. -/
def genH : TwistPt :=
  .aff ⟨10857046999023057135944570762232829481370756359578518086990519993285655852781,
      11559732032986387107991004021392285783925812861821192530917403151452391805634⟩
    ⟨8495653923123431417604973247489272438418190587263600148770280649306958101930,
      4082367875863433681332203403145435568316851327593401208105741076214120093531⟩

/-- `2*G2GEN`. -/
def twoH : TwistPt :=
  .aff ⟨18029695676650738226693292988307914797657423701064905010927197838374790804409,
      14583779054894525174450323658765874724019480979794335525732096752006891875705⟩
    ⟨2140229616977736810657479771656733941598412651537078903776637920509952744750,
      11474861747383700316476719153975578001603231366361248090558603872215261634898⟩

/-- `NONSUB`, on the twist and outside G2. -/
def nonSub : TwistPt :=
  .aff ⟨2, 1⟩ ⟨7292567877523311580221095596750716176434782432868683424513645834767876293070,
    19659275751359636165940301690575149581329631496732780143538578556285923319774⟩

/-- `[r](1, 2) = INF`. -/
theorem genG_inSubgroup : inSubgroup fq genG = true := by decide +kernel

/-- `[r]G2GEN = INF`. -/
theorem genH_inSubgroup : inSubgroup fq2 genH = true := by decide +kernel

/-- `[r]NONSUB` is not `INF`. -/
theorem nonSub_outside : inSubgroup fq2 nonSub = false := by decide +kernel

/-! ## WellFormed refuses -/

theorem test_pperm_destination_too_high : (Instr.pperm 14 0).wellFormed = false := by decide
theorem test_pperm_source_too_high : (Instr.pperm 0 14).wellFormed = false := by decide
theorem test_pperm_highest : (Instr.pperm 13 13).wellFormed = true := by decide

/-! ## Decoding: words written out field by field -/

theorem test_decode_nop : decodeTableWord 32 0b00000000_000000000000000000000000 = some .nop := by decide
theorem test_decode_fadd : decodeTableWord 32 0b00010000_0_000_00011_00001_00010_00000 = some (.fadd .base 3 1 2) := by decide
theorem test_decode_fsub : decodeTableWord 32 0b00010001_1_000_01111_00100_01000_00000 = some (.fsub .scalar 15 4 8) := by decide
theorem test_decode_fneg : decodeTableWord 32 0b00010010_1_000_00001_01111_00000_00000 = some (.fneg .scalar 1 15) := by decide
theorem test_decode_fmul : decodeTableWord 32 0b00010011_1_000_00011_00001_00010_00000 = some (.fmul .scalar 3 1 2) := by decide
theorem test_decode_fsqr : decodeTableWord 32 0b00010100_0_000_00010_00101_00000_00000 = some (.fsqr .base 2 5) := by decide
theorem test_decode_finv : decodeTableWord 32 0b00010101_0_000_00101_00100_00000_00000 = some (.finv .base 5 4) := by decide
theorem test_decode_fpow : decodeTableWord 32 0b00010110_0_000_01000_00100_01111_00000 = some (.fpow .base 8 4 15) := by decide
theorem test_decode_fisz : decodeTableWord 32 0b00010111_1_000_00000_01001_00000_00000 = some (.fisz .scalar 9) := by decide
theorem test_decode_feq : decodeTableWord 32 0b00011000_0_000_00000_00110_00011_00000 = some (.feq .base 6 3) := by decide
theorem test_decode_ldf : decodeTableWord 32 0b00100000_1_000_00001_000000001000000 = some (.ldf .scalar 1 0x040) := by decide
theorem test_decode_stf : decodeTableWord 32 0b00100001_0_000_00101_000000010000000 = some (.stf .base 5 0x080) := by decide
theorem test_decode_ldraw : decodeTableWord 32 0b00100010_0_000_00001_111111111111111 = some (.ldraw 1 0x7FFF) := by decide
theorem test_decode_straw : decodeTableWord 32 0b00100011_0_000_01111_000000000100000 = some (.straw 15 0x020) := by decide
theorem test_decode_ldg1 : decodeTableWord 32 0b00100100_0_000_00111_000000000000000 = some (.ldg1 7 0) := by decide
theorem test_decode_stg1 : decodeTableWord 32 0b00100101_0_000_00010_000000001000000 = some (.stg1 2 0x040) := by decide
theorem test_decode_ldg2 : decodeTableWord 32 0b00100110_0_000_00001_000000100000000 = some (.ldg2 1 0x100) := by decide
theorem test_decode_stg2 : decodeTableWord 32 0b00100111_0_000_00011_000000100000000 = some (.stg2 3 0x100) := by decide
theorem test_decode_g1add : decodeTableWord 32 0b00110000_0_000_00010_00000_00001_00000 = some (.g1add 2 0 1) := by decide
theorem test_decode_g2add : decodeTableWord 32 0b00110001_0_000_00011_00010_00001_00000 = some (.g2add 3 2 1) := by decide
theorem test_decode_g1smul : decodeTableWord 32 0b00110010_0_000_00010_00000_00101_00000 = some (.g1smul 2 0 5) := by decide
theorem test_decode_g2smul : decodeTableWord 32 0b00110011_0_000_00011_00000_01111_00000 = some (.g2smul 3 0 15) := by decide
theorem test_decode_g1onc : decodeTableWord 32 0b00110100_0_000_00000_111111111111111 = some (.g1onc 0x7FFF) := by decide
theorem test_decode_g1subg : decodeTableWord 32 0b00110101_0_000_00000_000000010000000 = some (.g1subg 0x080) := by decide
theorem test_decode_g2onc : decodeTableWord 32 0b00110110_0_000_00000_000000000000001 = some (.g2onc 1) := by decide
theorem test_decode_g2subg : decodeTableWord 32 0b00110111_0_000_00000_000111110000001 = some (.g2subg 0xF81) := by decide
theorem test_decode_accone : decodeTableWord 32 0b01000000_000000000000000000000000 = some .accone := by decide
theorem test_decode_miller : decodeTableWord 32 0b01000001_0_000_00000_00011_00001_00000 = some (.miller 3 1) := by decide
theorem test_decode_fexp : decodeTableWord 32 0b01000010_000000000000000000000000 = some .fexp := by decide
theorem test_decode_pperm : decodeTableWord 32 0b01010000_0_000_01101_01101_00000_00000 = some (.pperm 13 13) := by decide
theorem test_decode_phash : decodeTableWord 32 0b01010001_0_000_00010_00000_00001_00000 = some (.phash 2 0 1) := by decide
theorem test_decode_vkload : decodeTableWord 32 0b01100000_0_000_00000_000110101111101 = some (.vkload 0xD7D) := by decide
theorem test_decode_vkclr : decodeTableWord 32 0b01100001_000000000000000000000000 = some .vkclr := by decide
theorem test_decode_verify : decodeTableWord 32 0b01100010_00000010_0_000001100000000 = some (.verify 2 0x300) := by decide
theorem test_decode_wipe : decodeTableWord 32 0b01110000_0000000000000000000_10001 = some (.wipe 0x11) := by decide

/-- Rows D6 to D9, D12, D13, D16, D23, D25, D28, D31, D32. -/
theorem test_illegal_words :
    [0x13018441, 0x13118440, 0x13098440, 0x12018440, 0x22808000, 0x30040000, 0x31020000, 0x50070000, 0x60800000,
      0x62008000, 0x70000020, 0x71000000].map (decodeTableWord 32) = List.replicate 12 none := by decide

/-- Rows D6, D23: the word completes with `IllegalCommand`, and T is cleared. -/
theorem test_illegal_command :
    (gives (run 0x13018441 (idle.setT true)) fun s => s.err == .illegalCommand && !s.t && s.status == 0x00001002) = true ∧
    (gives (run 0x50070000 idle) fun s => s.err == .illegalCommand) = true := by decide +kernel

/-! ## Constants -/

/-- Section 2.1. -/
theorem test_constants :
    Config.radix * Config.rInvQ % Config.q = 1 ∧ Config.radix * Config.rInvR % Config.r = 1 ∧
    Config.finalExponent * Config.r = Config.q ^ 12 - 1 ∧ Config.loopCount = 29793968203157093288 ∧
    toMont .base 1 = 0x0E0A77C19A07DF2F666EA36F7879462C0A78EB28F5C70B3DD35D438DC58F0D9D ∧
    onCurve fq Config.b1 1 2 = true ∧ fq2Mul Config.b2 Config.xi = ⟨3, 0⟩ := by decide +kernel

/-! ## Field commands: rows of section 2.2 -/

/-- F2, F7. -/
theorem test_fadd :
    row 0x10018440 0x2259D6B14729C0FA51E1A247090812318D087F6872AABF4F68C3488912EDEFAA
      0x0E0A77C19A07DF2F666EA36F7879462C0A78EB28F5C70B3DD35D438DC58F0D9D 0 false .ok = true ∧
    row 0x10018440 1 Config.q 0xDEAD false .outOfRange = true := by decide +kernel

/-- F8, F10. -/
theorem test_fsub :
    row 0x11018440 0 0x0E0A77C19A07DF2F666EA36F7879462C0A78EB28F5C70B3DD35D438DC58F0D9D
      0x2259D6B14729C0FA51E1A247090812318D087F6872AABF4F68C3488912EDEFAA false .ok = true ∧
    row 0x11818440 0x2A1F6744CE179D8E334BEA4E696BD28AA4F563C0DE22677D05C29C54EFFFFFF1
      0x15D0085520F5BBC347D8EB76D8DD0689EABA68A3A32A913F1B0D0EF99FFFFFE6
      0x144F5EEFAD21E1CAEB72FED7908ECC00BA3AFB1D3AF7D63DEAB58D5B5000000B false .ok = true := by decide +kernel

/-- F11, F12. -/
theorem test_fneg :
    row 0x12018400 0 0 0 false .ok = true ∧
    row 0x12818400 0x0E0A77C19A07DF2F666EA36F7879462E36FC76959F60CD29AC96341C4FFFFFFB 0
      0x2259D6B14729C0FA51E1A2470908122EF13771B2DA58A367974BC177A0000006 false .ok = true := by decide +kernel

/-- F14, F20. -/
theorem test_fmul :
    row 0x13018440 0x2A1F6744CE179D8E334BEA4E696BD2841F6AC17AE15521B97A17CAA950AD28D7
      0x15D0085520F5BBC347D8EB76D8DD067E9CDB2D3B64716DA7E4B1C5AE034E46CA
      0x110BCA8C81AF93201F3A7CAE0915BB1E3F101D20C4E27E6A71F4C4F3316DD717 false .ok = true ∧
    row 0x13818440 (2 ^ 256 - 1) 1 0xDEAD false .outOfRange = true := by decide +kernel

/-- F21; and `fmul.q f1, f1, f1` with the form of 3 leaves the form of 9 (destination and both sources one register). -/
theorem test_fsqr :
    row 0x14818400 0x2259D6B14729C0FA51E1A2470908122EF13771B2DA58A367974BC177A0000006 0
      0x0E0A77C19A07DF2F666EA36F7879462E36FC76959F60CD29AC96341C4FFFFFFB false .ok = true ∧
    (gives (run 0x13008420 (withF 0x2A1F6744CE179D8E334BEA4E696BD2841F6AC17AE15521B97A17CAA950AD28D7 0)) fun s =>
      s.raw 1 == 0x1D9598E8A7E398572943337E3940C6D12F3D6F4DD31BD011F60647CE410D7FF7) = true := by decide +kernel

/-- F24, F26. -/
theorem test_finv :
    row 0x15018400 0x0180A96573D3D9F85C65EC9F484E3A791A4B98FBE78DB9964F4BC0B2B5EF64BD 0
      0x2B7C0B34FB996005F5C2531A12803131F1127CF0337DF85D51BB81BA1EED48C1 true .ok = true ∧
    row 0x15018400 0 0 0 false .ok = true := by decide +kernel

/-- F28, F30. -/
theorem test_fpow :
    row 0x16018440 0x1C14EF83340FBE5ECCDD46DEF0F28C5814F1D651EB8E167BA6BA871B8B1E1B3A 10
      0x05800320DCE9ED32E56CDD25A6092B951E880124F028F972B34BB09513349CA1 false .ok = true ∧
    row 0x16018440 0 0 0x0E0A77C19A07DF2F666EA36F7879462C0A78EB28F5C70B3DD35D438DC58F0D9D false .ok = true := by
  decide +kernel

/-- F36, F38. -/
theorem test_fisz :
    row 0x17000400 0 0 0xDEAD true .ok = true ∧ row 0x17800400 Config.r 0 0xDEAD false .outOfRange = true := by
  decide +kernel

/-- F39, F41. -/
theorem test_feq :
    row 0x18000440 0x2A1F6744CE179D8E334BEA4E696BD2841F6AC17AE15521B97A17CAA950AD28D7
      0x2A1F6744CE179D8E334BEA4E696BD2841F6AC17AE15521B97A17CAA950AD28D7 0xDEAD true .ok = true ∧
    row 0x18800440 0x2A1F6744CE179D8E334BEA4E696BD28AA4F563C0DE22677D05C29C54EFFFFFF1
      0x2A1F6744CE179D8E334BEA4E696BD2841F6AC17AE15521B97A17CAA950AD28D7 0xDEAD false .ok = true := by decide +kernel

/-- The limb method on row F14. -/
theorem test_cios :
    cios .base 0x2A1F6744CE179D8E334BEA4E696BD2841F6AC17AE15521B97A17CAA950AD28D7
      0x15D0085520F5BBC347D8EB76D8DD067E9CDB2D3B64716DA7E4B1C5AE034E46CA =
    0x110BCA8C81AF93201F3A7CAE0915BB1E3F101D20C4E27E6A71F4C4F3316DD717 := by decide +kernel

/-! ## Move commands: rows of section 2.3 -/

/-- M2, M4. -/
theorem test_ldf :
    (gives (run 0x20808000 (put 0 (bytes32 2) idle)) fun s =>
      s.raw 1 == 0x1C14EF83340FBE5ECCDD46DEF0F28C5C6DF8ED2B3EC19A53592C68389FFFFFF6 && s.err == .ok) = true ∧
    (gives (run 0x20008000 (put 0 (bytes32 Config.q) idle)) fun s => s.raw 1 == 0 && s.err == .outOfRange) = true := by
  decide +kernel

/-- M9, M13. -/
theorem test_stf :
    (gives (run 0x21008020 (withF 0x1C14EF83340FBE5ECCDD46DEF0F28C5814F1D651EB8E167BA6BA871B8B1E1B3A 0)) fun s =>
      s.buf == [(0x3f, 2)]) = true ∧
    (gives (run 0x21008FE1 idle) fun s => s.err == .badAddress) = true := by decide +kernel

/-- M8, M14. -/
theorem test_ldraw :
    (gives (run 0x22008000 (put 0 (List.replicate 32 0xff) idle)) fun s => s.raw 1 == 2 ^ 256 - 1) = true ∧
    (gives (run 0x2200FFFF idle) fun s => s.err == .badAddress) = true := by decide +kernel

/-- M10. -/
theorem test_straw :
    (gives (run 0x23008020 (withF 0x1C14EF83340FBE5ECCDD46DEF0F28C5814F1D651EB8E167BA6BA871B8B1E1B3A 0)) fun s =>
      s.buf.readBytes 0x20 4 == [0x1c, 0x14, 0xef, 0x83] && s.buf.read 0x3f == 0x3a) = true := by decide +kernel

/-- M15, without the subgroup line, which `genG_inSubgroup` answers; M16, M18 to M20. -/
theorem test_ldg1 :
    g1Candidate (bytes32 1 ++ bytes32 2) = some genG ∧
    g1Words genG = .aff 0x0E0A77C19A07DF2F666EA36F7879462C0A78EB28F5C70B3DD35D438DC58F0D9D
      0x1C14EF83340FBE5ECCDD46DEF0F28C5814F1D651EB8E167BA6BA871B8B1E1B3A ∧
    (gives (run 0x24010000 (put 0 (bytes32 1 ++ bytes32 3) idle)) fun s => s.err == .invalidPoint) = true ∧
    (gives (run 0x24010000 (put 0 (bytes32 1 ++ bytes32 (Config.q + 2)) idle)) fun s => s.err == .invalidPoint) = true ∧
    (gives (run 0x24010000 (idle.setG 2 (g1Words genG))) fun s => s.g.get 2 == .inf && s.err == .ok) = true ∧
    (gives (run 0x24010000 (put 0 (bytes32 0 ++ bytes32 1) idle)) fun s => s.err == .invalidPoint) = true := by
  decide +kernel

/-- M21, M22. -/
theorem test_stg1 :
    (gives (run 0x25010040 (idle.setG 2 (g1Words twoG))) fun s =>
      s.buf.readBytes 0x40 4 == [0x03, 0x06, 0x44, 0xe7] && s.buf.readBytes 0x5e 4 == [0xcf, 0xd3, 0x15, 0xed]
        && s.buf.read 0x7f == 0xc4) = true ∧
    (gives (run 0x25010040 (put 0x40 [1, 2, 3] idle)) fun s => s.buf == []) = true := by decide +kernel

/-- M23, without the subgroup line; M25. -/
theorem test_ldg2 :
    g2Candidate .c1First (encG2 .c1First genH) = some genH ∧
    (gives (run 0x26008000 (put 0 (encG2 .c0First genH) idle)) fun s => s.err == .invalidPoint) = true := by
  decide +kernel

/-- M24: the imaginary half of x comes first. -/
theorem test_stg2 :
    (gives (run 0x27008100 (idle.setH 1 (g2Words genH))) fun s =>
      s.buf.readBytes 0x100 4 == [0x19, 0x8e, 0x93, 0x93] && s.buf.readBytes 0x120 4 == [0x18, 0x00, 0xde, 0xef]
        && s.buf.readBytes 0x140 4 == [0x09, 0x06, 0x89, 0xd0] && s.buf.readBytes 0x160 4 == [0x12, 0xc8, 0x5e, 0xa5])
      = true := by decide +kernel

/-! ## Curve commands: rows of section 2.4 -/

/-- C1, C5. -/
theorem test_g1add :
    (gives (run 0x30010020 ((idle.setG 0 (g1Words genG)).setG 1 (g1Words genG))) fun s => s.g.get 2 == g1Words twoG)
      = true ∧
    (gives (run 0x30000020 ((idle.setG 0 (g1Words genG)).setG 1 (g1Words twoG))) fun s => s.g.get 0 == g1Words threeG)
      = true := by decide +kernel

/-- C14, C15. -/
theorem test_g2add :
    (gives (run 0x31010020 ((idle.setH 0 (g2Words genH)).setH 1 (g2Words genH))) fun s => s.h.get 2 == g2Words twoH)
      = true ∧
    (gives (run 0x31010020 ((idle.setH 0 (g2Words genH)).setH 1 (g2Words (ptNeg fq2 genH)))) fun s =>
      s.h.get 2 == .inf) = true := by decide +kernel

/-- C6, C7. -/
theorem test_g1smul :
    (gives (run 0x320080A0 ((idle.setG 0 (g1Words genG)).setF 5 3)) fun s => s.g.get 1 == g1Words threeG) = true ∧
    (gives (run 0x320080A0 (idle.setG 0 (g1Words genG))) fun s => s.g.get 1 == .inf) = true := by decide +kernel

/-- C16. -/
theorem test_g2smul :
    (gives (run 0x330180A0 ((idle.setH 0 (g2Words genH)).setF 5 2)) fun s => s.h.get 3 == g2Words twoH) = true := by
  decide +kernel

/-- C18, C19. -/
theorem test_g1onc :
    (gives (run 0x34000000 (put 0 (encG1 genG) idle)) fun s => s.t && s.err == .ok) = true ∧
    (gives (run 0x34000000 (put 0 (bytes32 1 ++ bytes32 3) idle)) fun s => !s.t && s.err == .ok) = true := by
  decide +kernel

/-- C20, C21. -/
theorem test_g1subg :
    (gives (run 0x35000000 idle) fun s => s.t && s.err == .ok) = true ∧
    (gives (run 0x35000000 (put 0 (bytes32 Config.q ++ bytes32 2) idle)) fun s => !s.t && s.err == .ok) = true := by
  decide +kernel

/-- C23, C25. -/
theorem test_g2onc :
    (gives (run 0x36000000 (put 0 (encG2 .c1First nonSub) idle)) fun s => s.t && s.err == .ok) = true ∧
    (gives (run 0x36000000 (put 0 (encG2 .c0First genH) idle)) fun s => !s.t && s.err == .ok) = true := by
  decide +kernel

/-- C24, C28. -/
theorem test_g2subg :
    (gives (run 0x37000000 idle) fun s => s.t && s.err == .ok) = true ∧
    (gives (run 0x37000F81 idle) fun s => !s.t && s.err == .badAddress) = true := by decide +kernel

/-! ## Pairing commands: rows of section 2.6 -/

/-- The first half of E1: ACC is one. -/
theorem test_accone :
    (gives (run 0x40000000 { idle with acc := accWords ⟨⟨7, 1⟩, ⟨2, 0⟩, ⟨3, 0⟩, ⟨4, 0⟩, ⟨5, 0⟩, ⟨6, 0⟩⟩ }) fun s =>
      s.acc == State.reset.acc) = true := by decide +kernel

/-- The second half of E1: the power of one is one, and T tells. -/
theorem test_fexp : gives (exec .fexp idle) (fun s => s.t && s.acc == idle.acc && s.err == .ok) = true := by
  have h : finalExp (accCanon idle.acc) = fq12One := by
    rw [show accCanon idle.acc = fq12One by decide +kernel, finalExp, fq12Pow_one]
  rw [exec, execFexp]
  simp only [h]
  decide +kernel

/-- E7: a pair with infinity leaves ACC. -/
theorem test_miller_infinity :
    (gives (run 0x41000C00 (idle.setH 0 .inf)) fun s => s.acc == idle.acc && s.err == .ok) = true := by decide +kernel

/-- The Miller value behind E2, computed by hand from R191 to R193 (a transcription of the rules outside Lean). -/
theorem test_miller_generators : miller genG genH = ⟨⟨5834042589058000341831765657183862909757291898484557985005086685825467906897,
     8569777642222878251935713745522792692963448981114868294337607615239958376264⟩,
    ⟨7571924456410425184394484738579456707813198040324941451337593183163501644926,
     8960399970930205621453687256262457331985155544713189382460837559898626650565⟩,
    ⟨14771147749721388705529376721710686027521536777828604288496486874046523328325,
     12890990657856333869313180617296501184339666523120283985395115731349894618444⟩,
    ⟨8023856341120510516147308273150180283063577310894566507604836554963413366795,
     7590424543668417299995160157273281628147687808036060341255414361727127616358⟩,
    ⟨6727887467459885481794159152729018751213767090647087843173186152123117643562,
     19947924012326028627377898163937061753578259652985844515405582123086846621279⟩,
    ⟨17337570031238815674881735795060442817337469036021654862681152438234471162273,
     10297659549238634654910590111831994026447288459392155965138378876202234643504⟩⟩ := by decide +kernel

/-- E2: `e(G, G2GEN)` as 95_test_vectors.md section 2.6 prints it. -/
theorem test_fexp_generators : pairing genG genH = ⟨⟨8493334370784016972005089913588211327688223499729897951716206968320726508021,
     3758435817766288188804561253838670030762970764366672594784247447067868088068⟩,
    ⟨20049218015652006197026173611347504489508678646783216776320737476707192559881,
     18059168546148152671857026372711724379319778306792011146784665080987064164612⟩,
    ⟨6565798094314091391201231504228224566495939541538094766881371862976727043038,
     14656606573936501743457633041048024656612227301473084805627390748872617280984⟩,
    ⟨12145052038566888241256672223106590273978429515702193755778990643425246950730,
     17918828665069491344039743589118342552553375221610735811112289083834142789347⟩,
    ⟨634997487638609332803583491743335852620873788902390365055086820718589720118,
     19455424343576886430889849773367397946457449073528455097210946839000147698372⟩,
    ⟨6223602427219597392892794664899549544171383137467762280768257680446283161705,
     7484542354754424633621663080190936924481536615300815203692506276894207018007⟩⟩ := by
  rw [pairing, test_miller_generators]
  decide +kernel

/-- E9. -/
theorem test_pairing_words_illegal :
    [0x41000080, 0x41002000, 0x42000001].map (decodeTableWord 32) = [none, none, none] := by decide

/-! ## Poseidon commands: rows of section 2.5 -/

/-- P1 (the first and the last result), P4. -/
theorem test_pperm :
    (gives (run 0x50020000 ((idle.setF 1 (montWord .scalar 1)).setF 2 (montWord .scalar 2))) fun s =>
      s.raw 4 == 0x042A0E9275965CE70C7B8723F33FC237E5CBB3B5AE798936BAAA819A2F6A4701 &&
      s.raw 6 == 0x0AA20C7331EC5DF5292BE65AC7354F24FB4D7963D65843BA3ADDE13E03D63C12 &&
      s.f.get 1 == montWord .scalar 1) = true ∧
    (gives (run 0x50020000 (idle.setF 1 (wordOf Config.r))) fun s => s.err == .outOfRange && s.raw 4 == 0) = true := by
  decide +kernel

/-- P6. -/
theorem test_phash :
    (gives (run 0x51018440 (withF (toMont .scalar 1) (toMont .scalar 2))) fun s =>
      s.raw 3 == 0x042A0E9275965CE70C7B8723F33FC237E5CBB3B5AE798936BAAA819A2F6A4701) = true := by decide +kernel

/-! ## Groth16 commands: rows of section 2.7 -/

/-- V23, V25. -/
theorem test_vkload :
    (gives (run 0x60000000 { idle with len := 451 }) fun s => s.err == .keyLoadFailed) = true ∧
    (gives (run 0x60000000 (put 448 [0, 0, 0, 9] { idle with len := 1028 })) fun s => s.err == .allocationFailed)
      = true := by decide +kernel

/-- V31. -/
theorem test_vkclr :
    (gives (run 0x61000000 { idle with t := true, vk := { idle.vk with valid := true, icn := 3 } }) fun s =>
      !s.vk.valid && s.vkicn == 0 && s.t && s.err == .ok) = true := by decide +kernel

/-- V15, V17. -/
theorem test_verify :
    (gives (run 0x62020300 idle) fun s => s.err == .vkNotInitialized && s.status == 0x00000402) = true ∧
    (gives (run 0x62020EC1 idle) fun s => s.err == .badAddress) = true := by decide +kernel

/-! ## System commands and the handshake: rows of section 2.8 -/

/-- S2, S4. -/
theorem test_wipe :
    (gives (run 0x70000001 (put 5 [9] (withF 7 8))) fun s => s.raw 1 == 0 && s.raw 3 == 0 && s.buf == [(5, 9)]) = true ∧
    (gives (run 0x70000018 (put 5 [9] ((withF 7 8).setT true))) fun s => s.raw 1 == 7 && s.buf == [] && s.t) = true := by
  decide +kernel

/-- S5. -/
theorem test_nop :
    (gives (run 0 { idle with err := .illegalCommand }) fun s => s.err == .ok && s.status == 0x00000002) = true := by
  decide +kernel

/-- H2, H3: a host access to BUF and a write of CMD while the reset is in progress. -/
theorem test_busy_refusals :
    (gives (step { State.resetWith testParams with host := [.write .byte (dev + 0x8000) 1] }) fun s => s.status == 0x11 && s.buf == []) = true ∧
    (gives (step { State.resetWith testParams with host := [writeReg dev 0x0C 0x70000001] }) fun s => s.cmd == 0 && s.ovr) = true := by
  decide +kernel

/-- H4, H5. -/
theorem test_initialisation :
    (gives (step { State.reset with host := [.wait] }) fun s => s.status == 0x2) = true ∧
    (gives (step { idle with done := true, ovr := true, host := [writeReg dev 0x08 0x12] }) fun s => s.status == 0) = true := by
  decide +kernel

/-- H8, H9, H10: `irq` follows DONE and IE. -/
theorem test_handshake :
    (gives (step { idle with ie := true, host := [writeReg dev 0x0C 0x20008000] }) fun s => s.status == 1 && !s.irq) = true ∧
    (gives (step { idle with busy := true, host := [.read .byte (dev + 0x8000)], buf := [(0, 5)] }) fun s =>
      s.status == 0x11 && s.readData == 0) = true ∧
    (gives (step { idle with busy := true, ie := true, ovr := true, cmd := 0x20008000, host := [.wait] }) fun s =>
      s.status == 0x12 && s.irq) = true := by decide +kernel

/-- A 32-bit access to BUF has the lowest address in the lowest lane (20_memory.md R65). -/
theorem test_buf_lanes :
    (gives (step { idle with host := [.write .word (dev + 0x8010) 0xDDCCBBAA] }) fun s =>
      s.buf == [(0x10, 0xAA), (0x11, 0xBB), (0x12, 0xCC), (0x13, 0xDD)]) = true ∧
    (gives (step { idle with buf := [(0x10, 0xAA), (0x13, 0xDD)], host := [.read .word (dev + 0x8010)] }) fun s =>
      s.readData == 0xDD0000AA) = true := by decide +kernel

/-! ## The assembler: lines of section 3 -/

theorem test_assemble_field : assembleLine "fmul.q f4, f0, f1".toList = some [.command (.fmul .base 4 0 1)] := by
  decide +kernel
theorem test_assemble_move : assembleLine "straw f4, 0x0A0 # raw".toList = some [.command (.straw 4 0x0A0)] := by
  decide +kernel
theorem test_assemble_len : assembleLine ".len 644".toList = some [.len 644] := by decide +kernel

end Sys2Proof.Tests
end

