-- ==== Sys2Proof/Tests/Witnesses.lean ====
section
/-! SUPPORT. For every statement with hypotheses, a state and operands that meet them: one part for each clause, at the
boundary of its range where it has one. A statement without hypotheses has none here. -/

set_option Elab.async false

namespace Sys2Proof.Tests

open Sys2Proof.Machine

/-! ## Points and states the witnesses share -/

theorem read_cells (l : List Byte) (a b : Nat) : (cells a l).read b = if b < a then 0 else l.getD (b - a) 0 := by
  induction l generalizing a with
  | nil => simp [cells, Memory.read, Memory.unlisted]
  | cons x l ih =>
    have key : (if x = 0 then cells (a + 1) l else (a, x) :: cells (a + 1) l).read b =
        if a = b then x else (cells (a + 1) l).read b := by
      by_cases hx : x = 0
      · rw [if_pos hx]
        by_cases hb : a = b
        · subst hb; rw [if_pos rfl, ih, if_pos (Nat.lt_succ_self a), hx]
        · rw [if_neg hb]
      · rw [if_neg hx, Memory.read]
    rw [cells, key, ih]
    by_cases h1 : a = b
    · subst h1; simp
    · by_cases h2 : b < a
      · rw [if_neg h1, if_pos (by omega), if_pos h2]
      · rw [if_neg h1, if_neg (by omega), if_neg h2, show b - a = (b - (a + 1)) + 1 by omega, List.getD_cons_succ]

/-- The bytes of the middle of an image. -/
theorem readBytes_cells (l1 l2 l3 : List Byte) : (cells 0 (l1 ++ (l2 ++ l3))).readBytes l1.length l2.length = l2 := by
  apply List.ext_getElem
  · simp
  · intro k h1 h2
    rw [Memory.getElem_readBytes, read_cells, if_neg (by omega), Nat.sub_zero, List.getD_eq_getElem?_getD,
      List.getElem?_append_right (by omega), Nat.add_sub_cancel_left, List.getElem?_append_left h2,
      List.getElem?_eq_getElem h2, Option.getD_some]

theorem length_encG1 : (encG1 genG).length = 64 := by decide +kernel

theorem length_encG2 : (encG2 .c1First genH).length = 128 := by decide +kernel

theorem genG_valid : g1Valid (g1Words genG) = true := by
  have h1 : (wordReduced (montWord .base 1) && wordReduced (montWord .base 2)) = true := by decide +kernel
  have h2 : g1Canon (g1Words genG) = genG := by decide +kernel
  have h3 := genG_inSubgroup
  rw [← h2] at h3
  simp only [genG, g1Words, g1Canon] at h3
  simp only [genG, g1Words, g1Valid, h1, g1Canon, h3, Bool.true_and, Bool.and_true]
  decide +kernel

theorem genH_valid : g2Valid (g2Words genH) = true := by
  have h1 : (ext2Reduced (ext2Words ⟨10857046999023057135944570762232829481370756359578518086990519993285655852781,
      11559732032986387107991004021392285783925812861821192530917403151452391805634⟩) &&
      ext2Reduced (ext2Words ⟨8495653923123431417604973247489272438418190587263600148770280649306958101930,
      4082367875863433681332203403145435568316851327593401208105741076214120093531⟩)) = true := by decide +kernel
  have h2 : g2Canon (g2Words genH) = genH := by decide +kernel
  have h3 := genH_inSubgroup
  rw [← h2] at h3
  simp only [genH, g2Words, g2Canon] at h3
  simp only [genH, g2Words, g2Valid, h1, g2Canon, h3, Bool.true_and, Bool.and_true]
  decide +kernel

theorem parse_genG : parseG1 (encG1 genG) = some genG := by
  have h := genG_inSubgroup
  rw [parseG1, show g1Candidate (encG1 genG) = some genG by decide +kernel]
  simp only [genG] at h ⊢
  simp only [subgroupChecked, h, if_true]

theorem parse_genH : parseG2 .c1First (encG2 .c1First genH) = some genH := by
  have h := genH_inSubgroup
  rw [parseG2, show g2Candidate .c1First (encG2 .c1First genH) = some genH by decide +kernel]
  simp only [genH] at h ⊢
  simp only [subgroupChecked, h, if_true]

/-- `G` in every `g` register, `G2GEN` in every `h` register. -/
def pts : State := { idle with g := Vector.replicate 8 (g1Words genG), h := Vector.replicate 4 (g2Words genH) }

theorem pts_valid : pts.pointsValid := by
  refine ⟨fun i => ?_, fun i => ?_, by decide +kernel⟩
  · rw [show pts.g.get i = g1Words genG by revert i; decide +kernel]; exact genG_valid
  · rw [show pts.h.get i = g2Words genH by revert i; decide +kernel]; exact genH_valid

/-- A key of `G` and `G2GEN` with two `IC` points, and at 0 a proof of the same points with the one input `x`. -/
def keyed (x : Nat) : State :=
  put 0 (encG1 genG ++ encG2 .c1First genH ++ encG1 genG ++ bytes32 x)
    { pts with vk := { valid := true, alpha := g1Words genG, beta := g2Words genH, gamma := g2Words genH
                       delta := g2Words genH, icn := 2
                       ic := [g1Words genG, g1Words genG, .inf, .inf, .inf, .inf, .inf, .inf] } }

theorem keyed_valid (x : Nat) : (keyed x).vk.pointsValid = true := by
  simp only [KeyStore.pointsValid, keyed, put, State.setBuf, List.all_cons, List.all_nil, genG_valid, genH_valid]
  rfl

theorem keyed_proof (x : Nat) (hx : x = 0 ∨ x = Config.r - 1 ∨ x = Config.r) :
    parseG1At (keyed x).buf 0 = some genG ∧ parseG2At .c1First (keyed x).buf 64 = some genH ∧
    parseG1At (keyed x).buf 192 = some genG ∧ wireValue (keyed x).buf 256 = x := by
  have hm : (keyed x).buf = cells 0 (encG1 genG ++ encG2 .c1First genH ++ encG1 genG ++ bytes32 x) := rfl
  have h1 := readBytes_cells [] (encG1 genG) (encG2 .c1First genH ++ encG1 genG ++ bytes32 x)
  have h2 := readBytes_cells (encG1 genG) (encG2 .c1First genH) (encG1 genG ++ bytes32 x)
  have h3 := readBytes_cells (encG1 genG ++ encG2 .c1First genH) (encG1 genG) (bytes32 x)
  simp only [← List.append_assoc, List.nil_append, List.length_append, List.length_nil, length_encG1, length_encG2,
    ← hm] at h1 h2 h3
  exact ⟨by rw [parseG1At, h1, parse_genG], by rw [parseG2At, h2, parse_genH], by rw [parseG1At, h3, parse_genG],
    by rcases hx with rfl | rfl | rfl <;> decide +kernel⟩

/-- A key image with as many `IC` points as fit at 0, for an engine with room for three. -/
def keyImage : State :=
  put 0 (encG1 genG ++ encG2 .c1First genH ++ encG2 .c1First genH ++ encG2 .c1First genH ++ [0, 0, 0, 3] ++
    encG1 genG ++ encG1 genG ++ encG1 genG) { idle with len := 644, params := { testParams with icMax := 3 } }

theorem put_params (a : Nat) (bs : List Byte) (s : State) : (put a bs s).params = s.params := rfl

theorem put_len (a : Nat) (bs : List Byte) (s : State) : (put a bs s).len = s.len := rfl

theorem put_vk (a : Nat) (bs : List Byte) (s : State) : (put a bs s).vk = s.vk := rfl

/-! ## Encoding -/

theorem witness_EncodedCommandsDecode :
    (Instr.pperm 13 13).wellFormed = true ∧ (Instr.verify 255 0x7FFF).wellFormed = true := by decide

theorem witness_DecodedWordsEncode : decode 0x5006B400#32 = .ok (.pperm 13 13) := by decide

theorem witness_TableRowsDecideTheCommand :
    decode 0x5006B400#32 = .ok (.pperm 13 13) ∧ (Instr.pperm 13 13).mnemonic = "PPERM" ∧
    decode 0x01000000#32 = .error .unknownOpcode ∧ decode 0x13018441#32 = .error .mustBeZero ∧
    decode 0x50070000#32 = .error .indexOutOfRange := by decide

theorem witness_IllegalWordsRaiseIllegalCommand :
    coveringRows 0x00000001#32 = [] ∧
    (coveringRows 0x50070000#32).map TableRow.mnemonic = ["PPERM"] ∧ ppermTest 0x50070000#32 = false ∧
    [0x01000000#32, 0x0F000000#32, 0x19000000#32, 0x1F000000#32, 0x28000000#32, 0x2F000000#32, 0x38000000#32,
      0x3F000000#32, 0x43000000#32, 0x4F000000#32, 0x52000000#32, 0x5F000000#32, 0x63000000#32, 0x6F000000#32,
      0x71000000#32, 0xFF000000#32].map (fun w => bits w 31 24) =
    [0x01, 0x0F, 0x19, 0x1F, 0x28, 0x2F, 0x38, 0x3F, 0x43, 0x4F, 0x52, 0x5F, 0x63, 0x6F, 0x71, 0xFF] := by
  decide +kernel

/-! ## The step, reset -/

theorem witness_StepRunsTheDecodedCommand :
    (let s := { idle with busy := true, cmd := 0x13018440#32, host := [.wait] }
    s.busy = true ∧ s.host = .wait :: [] ∧ decode s.cmd = .ok (.fmul .base 3 1 2)) ∧
    (let s := { idle with busy := true, cmd := 0xFFFFFFFF#32 }
    s.busy = true ∧ s.host = [] ∧ decode s.cmd = .error .unknownOpcode) ∧
    (Instr.pperm 13 0).wellFormed = true ∧ (idle.busy = false ∧ idle.host = []) ∧
    (let s := { idle with host := [.wait] }
    s.busy = false ∧ s.host = .wait :: []) ∧
    ({ idle with host := [readReg dev 0x08] }).host = .read .word (dev + 0x08) :: [] ∧
    ({ idle with host := [writeReg dev 0x0C 0] }).host = .write .word (dev + 0x0C) 0 :: [] := by decide

theorem witness_ResetStateIsAsStated : testParams.Wf := by decide

theorem witness_ResetAndInitialisation : ({ idle with host := [.reset, .wait] }).host = .reset :: [.wait] := rfl

/-! ## Field commands -/

/-- The largest operand in range and the smallest out of it, for each field, in the first and in the second operand: the
hypotheses of the statements about FADD, FSUB, FMUL and FEQ. -/
theorem witness_two_elements :
    ∀ fs : FieldSel, (withF (modulus fs - 1) (modulus fs - 1)).raw 1 < modulus fs ∧
      (withF (modulus fs - 1) (modulus fs - 1)).raw 2 < modulus fs ∧ modulus fs ≤ (withF (modulus fs) 0).raw 1 ∧
      modulus fs ≤ (withF 0 (modulus fs)).raw 2 := by
  intro fs; cases fs <;> decide +kernel

theorem witness_FaddAddsModulo :
    (withF (Config.q - 1) 0).raw 1 < modulus .base ∧ (withF (Config.q - 1) 0).raw 2 < modulus .base ∧
    modulus .scalar ≤ (withF Config.r 0).raw 1 ∧ modulus .scalar ≤ (withF 0 Config.r).raw 2 := by decide +kernel

theorem witness_FsubSubtractsModulo :
    (withF 0 (Config.q - 1)).raw 1 < modulus .base ∧ (withF 0 (Config.q - 1)).raw 2 < modulus .base ∧
    modulus .base ≤ (withF Config.q 0).raw 1 ∧ modulus .base ≤ (withF 0 Config.q).raw 2 := by decide +kernel

theorem witness_FnegNegatesModulo :
    (withF (Config.r - 1) 0).raw 1 < modulus .scalar ∧ modulus .scalar ≤ (withF Config.r 0).raw 1 := by decide +kernel

theorem witness_FmulMultipliesMontgomeryForms :
    (withF (Config.r - 1) (Config.r - 1)).raw 1 < modulus .scalar ∧
    (withF (Config.r - 1) (Config.r - 1)).raw 2 < modulus .scalar ∧
    modulus .scalar ≤ (withF Config.r 0).raw 1 ∧ modulus .scalar ≤ (withF 0 (2 ^ 256 - 1)).raw 2 := by decide +kernel

theorem witness_FinvInvertsOrGivesZero :
    ((withF 0 0).raw 1 < modulus .base ∧ (withF 0 0).raw 1 = 0) ∧
    ((withF (Config.q - 1) 0).raw 1 < modulus .base ∧ (withF (Config.q - 1) 0).raw 1 ≠ 0) ∧
    modulus .base ≤ (withF Config.q 0).raw 1 := by decide +kernel

theorem witness_FpowRaisesToARawExponent :
    ((withF (Config.q - 1) 0).raw 1 < modulus .base ∧ (withF (Config.q - 1) 0).raw 2 = 0) ∧
    ((withF 0 (2 ^ 256 - 1)).raw 1 = 0 ∧ (withF 0 (2 ^ 256 - 1)).raw 2 ≠ 0 ∧ (withF 0 1).raw 1 < modulus .base) ∧
    modulus .base ≤ (withF Config.q 0).raw 1 := by decide +kernel

theorem witness_FieldPredicatesWriteT :
    ((withF 0 0).raw 1 < modulus .scalar ∧ modulus .scalar ≤ (withF Config.r 0).raw 1) ∧
    ((withF 1 (Config.r - 1)).raw 1 < modulus .scalar ∧ (withF 1 (Config.r - 1)).raw 2 < modulus .scalar ∧
      modulus .scalar ≤ (withF 0 Config.r).raw 2) := by decide +kernel

theorem witness_MontgomeryConversions : Config.q - 1 < modulus .base ∧ Config.r - 1 < modulus .scalar := by decide

theorem witness_CiosComputesMontMul : Config.q - 1 < modulus .base ∧ Config.r - 1 < modulus .scalar := by decide

/-! ## Move commands -/

theorem witness_AddressesOutsideBufRaiseBadAddress :
    idle.params.bufBytes < (0xFE1#15).toNat + 32 ∧ idle.params.bufBytes < (0xFC1#15).toNat + 64 ∧
    idle.params.bufBytes < (0xF81#15).toNat + 128 ∧ idle.params.bufBytes < (0xEC1#15).toNat + 256 + 32 * (2#8).toNat ∧
    ({ idle with len := 644 }).params.bufBytes < (0xD7D#15).toNat + ({ idle with len := 644 }).len.toNat := by decide

theorem witness_LoadsReadBigEndianElements :
    (0xFE0#15).toNat + 32 ≤ idle.params.bufBytes ∧
    wireValue (put 0xFE0 (bytes32 (Config.q - 1)) idle).buf 0xFE0 < modulus .base ∧
    modulus .base ≤ wireValue (put 0xFE0 (bytes32 Config.q) idle).buf 0xFE0 ∧
    idle.params.bufBytes < (0xFE1#15).toNat + 32 := by decide +kernel

theorem witness_StoresWriteBigEndianElements :
    (withF (Config.q - 1) 0).buf.wf ∧ (0xFE0#15).toNat + 32 ≤ (withF (Config.q - 1) 0).params.bufBytes ∧
    (withF (Config.q - 1) 0).raw 1 < modulus .base ∧ modulus .base ≤ (withF Config.q 0).raw 1 ∧
    idle.params.bufBytes < (0xFE1#15).toNat + 32 := by decide +kernel

theorem witness_StfRestoresWhatLdfLoaded :
    (put 0xFE0 (bytes32 (Config.r - 1)) idle).buf.wf ∧ (0xFE0#15).toNat + 32 ≤ idle.params.bufBytes ∧
    wireValue (put 0xFE0 (bytes32 (Config.r - 1)) idle).buf 0xFE0 < modulus .scalar := by decide +kernel

theorem witness_Ldg1LoadsValidPoints :
    (0xFC0#15).toNat + 64 ≤ idle.params.bufBytes ∧
    (wireValue idle.buf 0xFC0 = 0 ∧ wireValue idle.buf (0xFC0 + 32) = 0) ∧
    (let m := (put 0xFC0 (encG1 genG) idle).buf
    (wireValue m 0xFC0 = 1 ∧ wireValue m (0xFC0 + 32) = 2) ∧ 1 < Config.q ∧ 2 < Config.q ∧
      2 * 2 % Config.q = (1 * 1 * 1 + 3) % Config.q) ∧ ptMul fq Config.r (.aff 1 2) = .inf ∧
    (let m := (put 0xFC0 (bytes32 1 ++ bytes32 (Config.q + 2)) idle).buf
    ¬(wireValue m 0xFC0 = 0 ∧ wireValue m (0xFC0 + 32) = 0) ∧ ¬wireValue m (0xFC0 + 32) < Config.q) := by
  refine ⟨by decide, by decide +kernel, by decide +kernel, of_decide_eq_true genG_inSubgroup, by decide +kernel⟩

theorem witness_Ldg2LoadsValidPoints :
    (0xF80#15).toNat + 128 ≤ idle.params.bufBytes ∧ (∀ k < 4, wireValue idle.buf (0xF80 + 32 * k) = 0) ∧
    (let m := (put 0xF80 (encG2 .c1First genH) idle).buf
    genH = .aff ⟨wireValue m 0xFA0, wireValue m 0xF80⟩ ⟨wireValue m 0xFE0, wireValue m 0xFC0⟩ ∧
      ∀ k < 4, wireValue m (0xF80 + 32 * k) < Config.q) ∧
    (∃ x y, genH = .aff x y ∧ toFq2 y * toFq2 y = toFq2 x * toFq2 x * toFq2 x + toFq2 Config.b2) ∧
    ptMul fq2 Config.r genH = .inf ∧
    (let m := (put 0xF80 (bytes32 Config.q) idle).buf
    ¬(∀ k < 4, wireValue m (0xF80 + 32 * k) = 0) ∧ ¬∀ k < 4, wireValue m (0xF80 + 32 * k) < Config.q) := by
  refine ⟨by decide, by decide +kernel, by decide +kernel, ⟨_, _, rfl, ?_⟩, of_decide_eq_true genH_inSubgroup,
    by decide +kernel⟩
  rw [← toFq2_mul, ← toFq2_mul, ← toFq2_mul, ← toFq2_add]
  exact congrArg toFq2 (by decide +kernel)

theorem witness_PointStoresWriteTheWireForm :
    pts.buf.wf ∧ (0xFC0#15).toNat + 64 ≤ pts.params.bufBytes ∧ idle.g.get 0 = .inf ∧
    (∃ x y, pts.g.get 7 = .aff x y) ∧ (0xF80#15).toNat + 128 ≤ pts.params.bufBytes ∧ idle.h.get 0 = .inf ∧
    (∃ x y, pts.h.get 3 = .aff x y) ∧ pts.params.wireOrder = .c1First ∧
    ({ pts with params := { testParams with wireOrder := .c0First } }).params.wireOrder = .c0First :=
  ⟨by decide, by decide, by decide, ⟨_, _, rfl⟩, by decide, by decide, ⟨_, _, rfl⟩, rfl, rfl⟩

theorem witness_StoredPointsLoadBack :
    (pts.buf.wf ∧ (0xFC0#15).toNat + 64 ≤ pts.params.bufBytes ∧ g1Valid (pts.g.get 7) = true) ∧
    (pts.buf.wf ∧ (0xF80#15).toNat + 128 ≤ pts.params.bufBytes ∧ g2Valid (pts.h.get 3) = true) :=
  ⟨⟨by decide, by decide, pts_valid.1 7⟩, by decide, by decide, pts_valid.2.1 3⟩

/-! ## Curve commands -/

theorem witness_G1addIsTheGroupLaw :
    idle.g.get 0 = .inf ∧ g1Reduced ((idle.setG 1 (g1Words genG)).g.get 1) = true := by decide +kernel

theorem witness_G2addIsTheGroupLaw :
    idle.h.get 0 = .inf ∧ g2Reduced ((idle.setH 1 (g2Words genH)).h.get 1) = true := by decide +kernel

theorem witness_ScalarMultiplesAreRepeatedSums :
    (g1Valid (pts.g.get 0) = true ∧ pts.raw 0 = 0 ∧ idle.g.get 0 = .inf) ∧
    (g2Valid (pts.h.get 0) = true ∧ idle.h.get 0 = .inf) :=
  ⟨⟨pts_valid.1 0, by decide, by decide⟩, pts_valid.2.1 0, by decide⟩

theorem witness_ScalarsActModuloTheOrder :
    g1Valid (pts.g.get 0) = true ∧ g2Valid (pts.h.get 0) = true ∧
    (let s := ((pts.setF 0 (wordOf Config.r)).setF 1 (wordOf (Config.r + 1))).setF 2 (wordOf (Config.r - 1))
    s.raw 0 = Config.r ∧ s.raw 1 = Config.r + 1 ∧ s.raw 2 = Config.r - 1 ∧ s.raw 0 % Config.r = s.raw 3 % Config.r ∧
      s.g = pts.g ∧ s.h = pts.h) :=
  ⟨pts_valid.1 0, pts_valid.2.1 0, by decide +kernel⟩

theorem witness_OnCurvePredicates :
    (0xFC0#15).toNat + 64 ≤ idle.params.bufBytes ∧ (0xF80#15).toNat + 128 ≤ idle.params.bufBytes := by decide

theorem witness_SubgroupPredicatesMatchTheLoads :
    (0xFC0#15).toNat + 64 ≤ idle.params.bufBytes ∧ (0xF80#15).toNat + 128 ≤ idle.params.bufBytes := by decide

/-! ## Poseidon and pairing commands -/

theorem witness_PoseidonRoundsAsSpecified : toyPos.Wf ∧ 2 < toyPos.rf + toyPos.rp := by decide

theorem witness_PpermPermutesThreeRegisters :
    (idle.setF 15 (wordOf (Config.r - 1))).raw 15 < Config.r ∧ (idle.setF 15 (wordOf (Config.r - 1))).raw 14 < Config.r ∧
    (idle.setF 15 (wordOf (Config.r - 1))).raw 13 < Config.r ∧ (13 : Fin 16).val ≤ 13 ∧
    Config.r ≤ (idle.setF 15 (wordOf Config.r)).raw (13 + 2) ∧ 13 < (14 : Fin 16).val := by decide +kernel

theorem witness_PhashHashesTwoElements :
    (withF (Config.r - 1) 0).raw 1 < Config.r ∧ (withF (Config.r - 1) 0).raw 2 < Config.r ∧
    Config.r ≤ (withF Config.r 0).raw 1 ∧ Config.r ≤ (withF 0 Config.r).raw 2 := by decide +kernel

theorem witness_MillerMultipliesOnePairing :
    (∃ x y : Ext2 Nat, genH = .aff x y ∧ ∀ c ∈ [x, y, x, y], c.re < Config.q ∧ c.im < Config.q) ∧
    pts.point1 7 = .aff 1 2 ∧ (∃ x y, pts.point2 3 = .aff x y) ∧ loopPrefix 0 = 1 ∧ loopPrefix 1 % 2 = 1 ∧
    (g1Valid (pts.g.get 7) = true ∧ g2Valid (pts.h.get 3) = true) ∧ g1Valid (idle.g.get 0) = true ∧
    idle.g.get 0 = .inf ∧ g1Valid ((idle.setG 0 (.aff 0 0)).g.get 0) = false ∧
    g2Valid ((idle.setH 0 (.aff ⟨0, 0⟩ ⟨0, 0⟩)).h.get 0) = false :=
  ⟨⟨_, _, rfl, by decide +kernel⟩, by decide +kernel, ⟨_, _, rfl⟩, by decide, by decide, ⟨pts_valid.1 7, pts_valid.2.1 3⟩,
    by decide, by decide, by decide +kernel, by decide +kernel⟩

theorem witness_FinalExponentiationIsMultiplicative : (Pt.inf : Pt Nat) = .inf ∧ (Pt.inf : TwistPt) = .inf := ⟨rfl, rfl⟩

theorem witness_FrobeniusKeepsTheTwist :
    (∃ x y, genH = .aff x y ∧ onCurve fq2 Config.b2 x y = true) ∧
    g2Valid (pts.h.get 3) = true ∧ (∃ x y, pts.point2 3 = .aff x y) ∧ loopPrefix (63 + 1) % 2 = 0 ∧ loopPrefix 1 % 2 = 1 :=
  ⟨⟨_, _, rfl, by decide +kernel⟩, pts_valid.2.1 3, ⟨_, _, rfl⟩, by decide, by decide⟩

/-! ## Groth16 commands -/

theorem witness_VkloadStoresTheWholeKey :
    (0#15).toNat + keyImage.len.toNat ≤ keyImage.params.bufBytes ∧ keyImage.len.toNat = 452 + 64 * 3 ∧
    3 = (∑ k ∈ Finset.range 4, (keyImage.buf.read (448 + k)).toNat * 256 ^ (3 - k)) ∧ 3 ≤ keyImage.params.icMax ∧
    parseG1At keyImage.buf 0 = some genG ∧ parseG2At keyImage.params.wireOrder keyImage.buf 64 = some genH ∧
    parseG2At keyImage.params.wireOrder keyImage.buf 192 = some genH ∧
    parseG2At keyImage.params.wireOrder keyImage.buf 320 = some genH ∧
    ∀ i < 3, parseG1At keyImage.buf (452 + 64 * i) = some genG := by
  have hm : keyImage.buf = cells 0 (encG1 genG ++ encG2 .c1First genH ++ encG2 .c1First genH ++ encG2 .c1First genH ++
    [0, 0, 0, 3] ++ encG1 genG ++ encG1 genG ++ encG1 genG) := by rw [keyImage]; rfl
  have h1 := readBytes_cells [] (encG1 genG) (encG2 .c1First genH ++ encG2 .c1First genH ++ encG2 .c1First genH ++
    [0, 0, 0, 3] ++ encG1 genG ++ encG1 genG ++ encG1 genG)
  have h2 := readBytes_cells (encG1 genG) (encG2 .c1First genH) (encG2 .c1First genH ++ encG2 .c1First genH ++
    [0, 0, 0, 3] ++ encG1 genG ++ encG1 genG ++ encG1 genG)
  have h3 := readBytes_cells (encG1 genG ++ encG2 .c1First genH) (encG2 .c1First genH) (encG2 .c1First genH ++
    [0, 0, 0, 3] ++ encG1 genG ++ encG1 genG ++ encG1 genG)
  have h4 := readBytes_cells (encG1 genG ++ encG2 .c1First genH ++ encG2 .c1First genH) (encG2 .c1First genH)
    ([0, 0, 0, 3] ++ encG1 genG ++ encG1 genG ++ encG1 genG)
  have h5 := readBytes_cells (encG1 genG ++ encG2 .c1First genH ++ encG2 .c1First genH ++ encG2 .c1First genH ++
    [0, 0, 0, 3]) (encG1 genG) (encG1 genG ++ encG1 genG)
  have h6 := readBytes_cells (encG1 genG ++ encG2 .c1First genH ++ encG2 .c1First genH ++ encG2 .c1First genH ++
    [0, 0, 0, 3] ++ encG1 genG) (encG1 genG) (encG1 genG)
  have h7 := readBytes_cells (encG1 genG ++ encG2 .c1First genH ++ encG2 .c1First genH ++ encG2 .c1First genH ++
    [0, 0, 0, 3] ++ encG1 genG ++ encG1 genG) (encG1 genG) []
  simp only [← List.append_assoc, List.append_nil, List.nil_append, List.length_append, List.length_nil,
    List.length_cons, length_encG1, length_encG2, ← hm] at h1 h2 h3 h4 h5 h6 h7
  have hp : keyImage.params = { testParams with icMax := 3 } ∧ keyImage.len = 644 := by
    rw [keyImage, put_params, put_len]
    exact ⟨rfl, rfl⟩
  have hc : 3 = (∑ k ∈ Finset.range 4, (keyImage.buf.read (448 + k)).toNat * 256 ^ (3 - k)) := by decide +kernel
  rw [hp.1, hp.2, ← hc]
  simp only [parseG1At, parseG2At, h1, h2, h3, h4]
  refine ⟨by decide, by decide, trivial, by decide, parse_genG, parse_genH, parse_genH, parse_genH, fun i hi => ?_⟩
  obtain rfl | rfl | rfl : i = 0 ∨ i = 1 ∨ i = 2 := by omega
  · rw [h5, parse_genG]
  · rw [h6, parse_genG]
  · rw [h7, parse_genG]

theorem witness_VkloadFailureClearsTheKey :
    (let s := { idle with len := 644 }
    s.params.bufBytes < (0xD7D#15).toNat + s.len.toNat) ∧
    (let s := { idle with len := 451 }
    (0xE3D#15).toNat + s.len.toNat ≤ s.params.bufBytes ∧ s.len.toNat < 452) ∧
    (let s := { idle with len := 452 }
    452 ≤ s.len.toNat ∧ (∑ k ∈ Finset.range 4, (s.buf.read (448 + k)).toNat * 256 ^ (3 - k)) = 0) ∧
    (let s := put 448 [0, 0, 0, 3] { idle with len := 645 }
    452 ≤ s.len.toNat ∧ (∑ k ∈ Finset.range 4, (s.buf.read (448 + k)).toNat * 256 ^ (3 - k)) = 3 ∧
      s.len.toNat ≠ 452 + 64 * 3) ∧
    (let s := put 448 [0, 0, 0, 9] { idle with len := 1028 }
    s.len.toNat = 452 + 64 * 9 ∧ (∑ k ∈ Finset.range 4, (s.buf.read (448 + k)).toNat * 256 ^ (3 - k)) = 9 ∧
      s.params.icMax < 9) ∧
    (let s := put 448 [0, 0, 0, 1, 1] { idle with len := 516 }
    s.len.toNat = 452 + 64 * 1 ∧ (∑ k ∈ Finset.range 4, (s.buf.read (448 + k)).toNat * 256 ^ (3 - k)) = 1 ∧
      1 ≤ s.params.icMax ∧ parseG1At s.buf (452 + 64 * 0) = none) := by decide +kernel

theorem witness_VerifyChecksInOrder :
    (0xEE0#15).toNat + 256 + 32 * (1#8).toNat ≤ idle.params.bufBytes ∧ idle.vk.valid = false ∧
    (let s := { keyed 0 with buf := [(0, 0xFF)] }
    s.vk.valid = true ∧ parseG1At s.buf 0 = none) ∧
    ((keyed Config.r).vk.valid = true ∧ parseG1At (keyed Config.r).buf 0 ≠ none ∧
      parseG2At (keyed Config.r).params.wireOrder (keyed Config.r).buf 64 ≠ none ∧
      parseG1At (keyed Config.r).buf 192 ≠ none ∧ Config.r ≤ wireValue (keyed Config.r).buf 256) ∧
    (let s := keyed (Config.r - 1)
    s.vk.valid = true ∧ parseG1At s.buf 0 ≠ none ∧ parseG2At s.params.wireOrder s.buf 64 ≠ none ∧
      parseG1At s.buf 192 ≠ none ∧ (∀ i < (0#8).toNat, wireValue s.buf (256 + 32 * i) < Config.r) ∧
      (0#8).toNat + 1 ≠ s.vk.icn) := by
  obtain ⟨a1, a2, a3, a4⟩ := keyed_proof Config.r (.inr (.inr rfl))
  obtain ⟨b1, b2, b3, _⟩ := keyed_proof (Config.r - 1) (.inr (.inl rfl))
  refine ⟨by decide, by decide, ⟨rfl, by decide +kernel⟩, ⟨rfl, ?_, ?_, ?_, a4.ge⟩, rfl, ?_, ?_, ?_, ?_, by decide⟩
  · rw [a1]; exact Option.some_ne_none _
  · rw [show (keyed Config.r).params.wireOrder = .c1First from rfl, a2]; exact Option.some_ne_none _
  · rw [a3]; exact Option.some_ne_none _
  · rw [b1]; exact Option.some_ne_none _
  · rw [show (keyed (Config.r - 1)).params.wireOrder = .c1First from rfl, b2]; exact Option.some_ne_none _
  · rw [b3]; exact Option.some_ne_none _
  · intro i hi; exact absurd hi (by simp)

theorem witness_VerifyDecidesThePairingEquation :
    let s := keyed (Config.r - 1)
    (0#15).toNat + 256 + 32 * (1#8).toNat ≤ s.params.bufBytes ∧ s.vk.valid = true ∧ parseG1At s.buf 0 = some genG ∧
    parseG2At s.params.wireOrder s.buf 64 = some genH ∧ parseG1At s.buf 192 = some genG ∧
    (∀ i < (1#8).toNat, wireValue s.buf (256 + 32 * i) < Config.r) ∧ (1#8).toNat + 1 = s.vk.icn ∧
    s.vk.pointsValid = true := by
  obtain ⟨b1, b2, b3, b4⟩ := keyed_proof (Config.r - 1) (.inr (.inl rfl))
  refine ⟨by decide, rfl, b1, b2, b3, fun i hi => ?_, by decide, keyed_valid _⟩
  have : i = 0 := by simpa using hi
  subst this
  rw [Nat.mul_zero, Nat.add_zero, b4]
  decide

/-- The registers of the second form of VERIFY for `keyed 0`, whose `vk_x` is `G`. -/
def visible : State := pts.setG 0 (g1Words (ptNeg fq genG))

theorem witness_VisiblePairingsReproduceVerify :
    let s := keyed 0
    (0#15).toNat + 256 + 32 * (1#8).toNat ≤ s.params.bufBytes ∧ s.vk.valid = true ∧ s.vk.pointsValid = true ∧
    parseG1At s.buf 0 = some genG ∧ parseG2At s.params.wireOrder s.buf 64 = some genH ∧
    parseG1At s.buf 192 = some genG ∧ (∀ i < (1#8).toNat, wireValue s.buf (256 + 32 * i) < Config.r) ∧
    (1#8).toNat + 1 = s.vk.icn ∧ visible.pointsValid ∧ visible.g.get 0 = g1Words (ptNeg fq genG) ∧
    visible.h.get 0 = g2Words genH ∧ visible.g.get 1 = s.vk.alpha ∧ visible.h.get 1 = s.vk.beta ∧
    visible.point1 2 = vkX s.vk.ic (readInputs s.buf 256 (1#8).toNat) ∧ visible.h.get 2 = s.vk.gamma ∧
    visible.g.get 3 = g1Words genG ∧ visible.h.get 3 = s.vk.delta := by
  obtain ⟨b1, b2, b3, b4⟩ := keyed_proof 0 (.inl rfl)
  have hG : G1Good genG := by
    have h := (g1Valid_iff.mp genG_valid).2
    rwa [show g1Canon (g1Words genG) = genG by decide +kernel] at h
  have hneg : g1Valid (g1Words (ptNeg fq genG)) = true := g1Valid_g1Words (by
    have := fact_q
    exact good_neg hG)
  have hv : visible.pointsValid := by
    refine ⟨fun i => ?_, pts_valid.2.1, pts_valid.2.2⟩
    have hi : visible.g.get i = g1Words (ptNeg fq genG) ∨ visible.g.get i = g1Words genG := by
      revert i; decide +kernel
    rcases hi with hi | hi <;> rw [hi]
    · exact hneg
    · exact genG_valid
  refine ⟨by decide, rfl, keyed_valid 0, b1, b2, b3, fun i hi => ?_, by decide, hv, by decide +kernel, by decide +kernel,
    by decide +kernel, by decide +kernel, by decide +kernel, by decide +kernel, by decide +kernel, by decide +kernel⟩
  have : i = 0 := by simpa using hi
  subst this
  rw [Nat.mul_zero, Nat.add_zero, b4]
  decide

theorem witness_VkclrAndNop : idle.vk = .empty idle.params.icMax := rfl

/-! ## Errors, flags, writers: a next state with each error, and without one -/

/-- A key that holds infinity only, with two `IC` points: its checks cost nothing to evaluate. -/
def infKey : State := { idle with vk := { KeyStore.empty 8 with valid := true, icn := 2 } }

theorem witness_ErrorsLeaveEverythingElse :
    (gives (exec (.fadd .base 3 1 2) (withF Config.q 0)) fun t => decide (t.err ≠ .ok)) = true ∧
    (gives (exec (.vkload 0) infKey) fun t => decide (t.err ≠ .ok ∧ t.err ≠ .badAddress)) = true ∧
    (gives (exec (.vkload 0x1001) infKey) fun t => t.err == .badAddress) = true ∧
    decode ({ idle with cmd := 0xFF000000#32 }).cmd = .error .unknownOpcode := by decide +kernel

theorem witness_ErrorsByCommand :
    (gives (exec (.fadd .base 3 1 2) (withF Config.q 0)) fun t => t.err == .outOfRange) = true ∧
    (gives (exec (.ldg1 0 0) (put 0 [0xFF] idle)) fun t => t.err == .invalidPoint) = true ∧
    (gives (exec (.verify 0 0) infKey) fun t => t.err == .badInputs) = true ∧
    (gives (exec (.verify 0 0) idle) fun t => t.err == .vkNotInitialized) = true ∧
    (gives (exec (.vkload 0) idle) fun t => t.err == .keyLoadFailed) = true ∧
    (gives (exec (.vkload 0) (put 448 [0, 0, 0, 9] { idle with len := 1028 })) fun t => t.err == .allocationFailed)
      = true ∧
    (gives (exec (.ldf .base 0 0xFE1) idle) fun t => t.err == .badAddress) = true := by decide +kernel

theorem witness_FlagWriters :
    (gives (exec (.fadd .base 3 1 2) ((withF Config.q 0).setT true)) fun t => decide (t.err ≠ .ok)) = true ∧
    (gives (exec (.fisz .base 1) (withF 0 0)) fun t => t.err == .ok && t.t) = true := by decide +kernel

theorem witness_StateWriters : (gives (exec (.straw 1 0xFE0) (withF 7 0)) fun t => decide (t.buf ≠ [])) = true := by
  decide +kernel

theorem witness_CompleteStepIsTotal : pts.pointsValid := pts_valid

/-! ## Invariants -/

theorem witness_StepKeepsTheShape :
    (put 0xFFF [7] ((withF 7 0).withFetchWord 32 0x23008FE0)).wf ∧
    (gives (step (put 0xFFF [7] ((withF 7 0).withFetchWord 32 0x23008FE0))) fun t => t.buf != [(0xFFF, 7)]) = false ∧
    ({ infKey with host := [.write .byte (dev + 0x8FFF) 1] }).wf ∧
    (gives (step { infKey with host := [.write .byte (dev + 0x8FFF) 1] }) fun t => t.buf == [(0xFFF, 1)]) = true := by
  refine ⟨?_, ?_, ?_, ?_⟩ <;> decide +kernel

theorem witness_StepKeepsPointsValid :
    (pts.withFetchWord 32 0x30010020).pointsValid ∧ accReduced (pts.withFetchWord 32 0x30010020).acc = true ∧
    (gives (step (pts.withFetchWord 32 0x30010020)) fun t => t.g.get 2 == g1Words twoG) = true :=
  ⟨pts_valid, by decide +kernel, by decide +kernel⟩

/-- The smallest BUF, with the largest key that fits it; and the largest BUF. -/
theorem witness_ResetMeetsTheInvariants :
    ({ testParams with bufBytes := 1024, icMax := 8 } : Params).Wf ∧
    ({ testParams with bufBytes := 32768, icMax := 3 } : Params).Wf := by decide

/-! ## The host's side -/

theorem witness_CommandAndLengthRegisters :
    ({ idle with host := [writeReg dev 0x0C 1] }).host = .write .word (idle.params.base + 0x0C) 1 :: [] ∧
    ({ idle with host := [writeReg dev 0x10 1] }).host = .write .word (idle.params.base + 0x10) 1 :: [] ∧
    ({ idle with host := [readReg dev 0x0C] }).host = .read .word (idle.params.base + 0x0C) :: [] ∧
    ({ idle with host := [readReg dev 0x10] }).host = .read .word (idle.params.base + 0x10) :: [] ∧
    idle.busy = false ∧ (State.resetWith testParams).busy = true := by decide

theorem witness_ControlAndStatusRegisters :
    0x7FFC < 0x8000 ∧ 0x7FFC % 4 = 0 ∧ 0x1C ≤ 0x7FFC ∧
    ({ idle with host := [readReg dev 0x7FFC] }).host = .read .word (idle.params.base + 0x7FFC) :: [] ∧
    ({ idle with host := [writeReg dev 0x14 1] }).host = .write .word (idle.params.base + 0x14) 1 :: [] ∧
    idle.vk.icn < 2 ^ 32 ∧ idle.params.Wf := by decide

/-- The first and the last access of the window, and one that runs over the end of BUF. -/
theorem witness_HostBufAccesses :
    idle.buf.wf ∧ 0x8000 + 0 + BusWidth.dword.bytes ≤ 0x10000 ∧ 0x8000 + 0x7FFF + BusWidth.byte.bytes ≤ 0x10000 ∧
    0x8000 + 0xFFE + BusWidth.word.bytes ≤ 0x10000 ∧
    ({ idle with host := [.read .word (dev + 0x8FFE)] }).host = .read .word (idle.params.base + (0x8000 + 0xFFE)) :: [] ∧
    ({ idle with busy := true, host := [.write .word (dev + 0x8FFE) 1] }).host =
      .write .word (idle.params.base + (0x8000 + 0xFFE)) 1 :: [] := by decide

theorem witness_BusyEngineIsIsolated :
    let s := { idle with busy := true, host := [.read .byte (dev + 0x8000)] }
    let s' := { s with f := Vector.replicate 16 1, buf := [(0, 7)], vk := { s.vk with alpha := .aff 1 1 } }
    s.busy = true ∧ s.host = .read .byte (dev + 0x8000) :: [] ∧ HostEvent.read .byte (dev + 0x8000) ≠ .wait ∧
    HostEvent.read .byte (dev + 0x8000) ≠ .reset ∧
    (let key := { s'.vk with valid := s.vk.valid, icn := s.vk.icn }
    s' = { s with f := s'.f, g := s'.g, h := s'.h, acc := s'.acc, buf := s'.buf, vk := key }) ∧
    (gives (step s) fun t => t.ovr) = true ∧ (gives (step s') fun t => t.ovr) = true := by decide +kernel

/-- Each form of the discipline: without LEN, with it, and the load of a key; the bytes end at the end of BUF. -/
theorem witness_DisciplineRunsTheCommand :
    (let s := idle.setHost (writeBytesEvents dev 0xFE0 (bytes32 7) ++ lenEvents dev none ++
      issueEvents dev (.ldf .base 1 0xFE0) ++ [HostEvent.reset])
    s.busy = false ∧ (Instr.ldf .base 1 0xFE0).wellFormed = true ∧ s.params.Wf ∧
    0xFE0 + (bytes32 7).length ≤ s.params.bufBytes ∧
    s.host = writeBytesEvents s.params.base 0xFE0 (bytes32 7) ++ lenEvents s.params.base none ++
      issueEvents s.params.base (.ldf .base 1 0xFE0) ++ [HostEvent.reset]) ∧
    (let s := idle.setHost (lenEvents dev (some 644) ++ issueEvents dev (.vkload 0))
    0 + ([] : List Byte).length ≤ s.params.bufBytes ∧
    s.host = writeBytesEvents s.params.base 0 [] ++ lenEvents s.params.base (some 644) ++
      issueEvents s.params.base (.vkload 0) ++ []) ∧
    (let s := idle.setHost (vkLoadEvents dev 0xFE0 (bytes32 7))
    (0xFE0#15).toNat + (bytes32 7).length ≤ s.params.bufBytes ∧
    s.host = vkLoadEvents s.params.base 0xFE0 (bytes32 7) ++ []) := by decide +kernel

theorem witness_InterfaceInputsAreAnswered :
    (0x7FFF < 0x8000 ∧ ¬(BusWidth.byte = .word ∧ 0x7FFF % 4 = 0)) ∧ ¬(BusWidth.word = .word ∧ 0x02 % 4 = 0) ∧
    (0x8000 ≤ 0xFFFD ∧ 0x10000 < 0xFFFD + BusWidth.word.bytes) ∧
    ({ idle with host := [.read .byte (dev + 0x7FFF)] }).host = .read .byte (idle.params.base + 0x7FFF) :: [] ∧
    dev - 1 < idle.params.base ∧
    (let s := { pts with host := [.read .byte (dev + 0xFFFF), .wait, .reset, writeReg dev 0x7FFC 0] }
    s.pointsValid ∧ ∀ e ∈ s.host, e.inInterface s.params.base) ∧
    (idle.host = [] ∧ idle.busy = false) :=
  ⟨by decide, by decide, by decide, by decide, by decide,
    ⟨pts_valid, by simp [HostEvent.inInterface, writeReg, offsetRefusal, bufWindow, BusWidth.bytes, pts, idle, State.resetWith,
      testParams]⟩, by decide⟩

end Sys2Proof.Tests
end

section
/-! SUPPORT. What a command of the engine can leave behind, said once over all 35 of them: `Completion`. The writers of
each part of the state, the flag's rule and the two invariants of 10_state.md are read off it. -/

namespace Sys2Proof.Machine

/-! ## Valid points (10_state.md R24) -/

theorem G1Good.add {P S : Pt Nat} (h : G1Good P) (h' : G1Good S) : G1Good (ptAdd fq P S) :=
  have := fact_q
  good_add h h'

theorem G1Good.mul {P : Pt Nat} (h : G1Good P) {k : Nat} (hk : k < 2 ^ 256) : G1Good (ptMul fq k P) :=
  have := fact_q
  good_mul h hk

theorem G2Good.add {P S : TwistPt} (h : G2Good P) (h' : G2Good S) : G2Good (ptAdd fq2 P S) :=
  have := fact_q
  have := fact_fq2
  good_add h h'

theorem G2Good.mul {P : TwistPt} (h : G2Good P) {k : Nat} (hk : k < 2 ^ 256) : G2Good (ptMul fq2 k P) :=
  have := fact_q
  have := fact_fq2
  good_mul h hk

/-- `ParseG1` answers points of G1 only (41_move.md R145). -/
theorem g1Good_of_parseG1 {l : List Byte} {P : Pt Nat} (h : parseG1 l = some P) : G1Good P := by
  have := fact_q
  obtain ⟨hc, hs⟩ := subgroupChecked_eq_some.mp h
  obtain ⟨hx, hy, ⟨-, -, rfl⟩ | ⟨-, hcurve, rfl⟩⟩ := g1Candidate_eq_some.mp hc
  · exact good_inf
  · exact (good_aff (M := fqModel) b1_ne).mpr ⟨hx, hy, hcurve, hs.resolve_left (by simp)⟩

theorem canonical_fromWire (ord : WireOrder) {e0 e1 : Nat} (h0 : e0 < Config.q) (h1 : e1 < Config.q) :
    Canonical2 (fromWire ord e0 e1) := by
  cases ord
  · exact ⟨h1, h0⟩
  · exact ⟨h0, h1⟩

/-- A G2 candidate is infinity or a canonical solution of the twist equation (41_move.md R150). -/
theorem g2Candidate_onCurve {ord : WireOrder} {l : List Byte} {P : TwistPt} (h : g2Candidate ord l = some P) :
    P = .inf ∨ ∃ x y, P = .aff x y ∧ Canonical2 x ∧ Canonical2 y ∧ onCurve fq2 Config.b2 x y = true := by
  simp only [g2Candidate] at h
  split at h
  · cases h
  · next hlt =>
    simp only [not_or, Nat.not_le] at hlt
    obtain ⟨h0, h1, h2, h3⟩ := hlt
    split at h
    · cases h; exact .inl rfl
    · split at h
      · next hcurve =>
        cases h
        exact .inr ⟨_, _, rfl, canonical_fromWire ord h0 h1, canonical_fromWire ord h2 h3, hcurve⟩
      · cases h

/-- `ParseG2` answers points of G2 only (41_move.md R150). -/
theorem g2Good_of_parseG2 {ord : WireOrder} {l : List Byte} {P : TwistPt} (h : parseG2 ord l = some P) : G2Good P := by
  have := fact_q
  have := fact_fq2
  obtain ⟨hc, hs⟩ := subgroupChecked_eq_some.mp h
  obtain rfl | ⟨x, y, rfl, hx, hy, hcurve⟩ := g2Candidate_onCurve hc
  · exact good_inf
  · exact (good_aff (M := fq2Model) b2_ne).mpr ⟨hx, hy, hcurve, hs.resolve_left (by simp)⟩

theorem State.g1Good_point1 {s : State} (h : ∀ j : Fin 8, g1Valid (s.g.get j) = true) (i : Fin 8) :
    G1Good (s.point1 i) :=
  (g1Valid_iff.mp (h i)).2

theorem State.g2Good_point2 {s : State} (h : ∀ j : Fin 4, g2Valid (s.h.get j) = true) (i : Fin 4) :
    G2Good (s.point2 i) :=
  (g2Valid_iff.mp (h i)).2

theorem State.raw_lt (s : State) (i : Fin 16) : s.raw i < 2 ^ 256 := (s.f.get i).isLt

/-! ## The key store (10_state.md R28) -/

theorem KeyStore.pointsValid_empty (n : Nat) : (KeyStore.empty n).pointsValid = true := by
  simp [KeyStore.empty, KeyStore.pointsValid, g1Valid, g2Valid]

/-- The `IC` points of an image are as many as asked for, all of them in G1. -/
theorem parseIc_eq_some {m : Memory} {a n : Nat} {l : List (Pt Nat)} (h : parseIc m a n = some l) :
    l.length = n ∧ ∀ P ∈ l, G1Good P := by
  induction n generalizing a l with
  | zero => cases h; simp
  | succ n ih =>
    simp only [parseIc] at h
    split at h
    · cases h
    · next P hP =>
      split at h
      · cases h
      · next Ps hPs =>
        cases h
        obtain ⟨hlen, hgood⟩ := ih hPs
        exact ⟨by simp [hlen], List.forall_mem_cons.mpr ⟨g1Good_of_parseG1 hP, hgood⟩⟩

/-- The store an accepted image leaves (45_groth16.md R212): loaded, and all its points valid. -/
theorem parseKeyPoints_eq_some {p : Params} {m : Memory} {a c : Nat} {k : KeyStore}
    (h : parseKeyPoints p m a c = some k) (h1 : 1 ≤ c) (hc : c ≤ p.icMax) :
    k.wf p.icMax ∧ k.pointsValid = true := by
  simp only [parseKeyPoints] at h
  split at h
  · next al be ga de ic hal hbe hga hde hic =>
    cases h
    obtain ⟨hlen, hgood⟩ := parseIc_eq_some hic
    have hlen' : (ic.map g1Words).length = c := by rw [List.length_map, hlen]
    refine ⟨.inr ⟨rfl, h1, hc, ?_, ?_⟩, ?_⟩
    · simp only [List.length_append, hlen', List.length_replicate]; omega
    · intro P hP
      rw [List.drop_left' hlen'] at hP
      exact List.eq_of_mem_replicate hP
    · have hrest : ∀ w ∈ ic.map g1Words ++ List.replicate (p.icMax - c) Pt.inf, g1Valid w = true := by
        intro w hw
        rcases List.mem_append.mp hw with hw | hw
        · obtain ⟨P, hP, rfl⟩ := List.mem_map.mp hw
          exact g1Valid_g1Words (hgood P hP)
        · rw [List.eq_of_mem_replicate hw]; rfl
      simp only [KeyStore.pointsValid, g1Valid_g1Words (g1Good_of_parseG1 hal), g2Valid_g2Words (g2Good_of_parseG2 hbe),
        g2Valid_g2Words (g2Good_of_parseG2 hga), g2Valid_g2Words (g2Good_of_parseG2 hde), List.all_eq_true.mpr hrest,
        Bool.and_self]
  · cases h

/-- VKLOAD's checks let only a loaded store with valid points through, and else name an error (45_groth16.md R212). -/
theorem parseKey_cases (p : Params) (m : Memory) (a L : Nat) :
    (∃ k, parseKey p m a L = .ok k ∧ k.wf p.icMax ∧ k.pointsValid = true) ∨
    ∃ e, parseKey p m a L = .error e ∧ e ≠ .ok := by
  simp only [parseKey]
  split
  · exact .inr ⟨_, rfl, by decide⟩
  · split
    · exact .inr ⟨_, rfl, by decide⟩
    · next h0 =>
      split
      · exact .inr ⟨_, rfl, by decide⟩
      · split
        · exact .inr ⟨_, rfl, by decide⟩
        · next hc =>
          split
          · next k hk => exact .inl ⟨k, rfl, parseKeyPoints_eq_some hk (by omega) (by omega)⟩
          · exact .inr ⟨_, rfl, by decide⟩

/-! ## How a command can finish -/

/-- The commands that may write T without an error (10_state.md R27). -/
abbrev flagMnemonics : List String := ["FISZ", "FEQ", "FINV", "G1ONC", "G1SUBG", "G2ONC", "G2SUBG", "FEXP", "VERIFY"]

/-- The commands but WIPE that write the `f` registers (10_state.md R20). -/
abbrev fieldMnemonics : List String :=
  ["FADD", "FSUB", "FNEG", "FMUL", "FSQR", "FINV", "FPOW", "LDF", "LDRAW", "PPERM", "PHASH"]

/-- The states the command `i`, begun in `s`, can leave: one constructor for each part of the state a command
writes. -/
inductive Completion (i : Instr) (s : State) : State → Prop
  /-- an error (60_exceptions.md R243) -/
  | failure {e : Err} (he : e ≠ .ok) : Completion i s (failed e s)
  /-- an error of VKLOAD after its address check -/
  | keyFailure {e : Err} (he : e ≠ .ok) (hi : i.mnemonic = "VKLOAD") : Completion i s (failed e s.clearVk)
  /-- nothing but the bookkeeping and T -/
  | flag {b : Bool} (hb : b = s.t ∨ i.mnemonic ∈ flagMnemonics) : Completion i s (completed { s with t := b })
  /-- field registers -/
  | field {f : Vector Word 16} {b : Bool} (hi : i.mnemonic ∈ fieldMnemonics) (hb : b = s.t ∨ i.mnemonic ∈ flagMnemonics) :
      Completion i s (completed { s with f := f, t := b })
  /-- a G1 register -/
  | point1 {rd : Fin 8} {w : G1Reg} (hi : i.mnemonic ∈ ["G1ADD", "G1SMUL", "LDG1"])
      (hw : (∀ j : Fin 8, g1Valid (s.g.get j) = true) → g1Valid w = true) : Completion i s (completed (s.setG rd w))
  /-- a G2 register -/
  | point2 {rd : Fin 4} {w : G2Reg} (hi : i.mnemonic ∈ ["G2ADD", "G2SMUL", "LDG2"])
      (hw : (∀ j : Fin 4, g2Valid (s.h.get j) = true) → g2Valid w = true) : Completion i s (completed (s.setH rd w))
  /-- the accumulator -/
  | accumulator {a : AccReg} {b : Bool} (hi : i.mnemonic ∈ ["ACCONE", "MILLER", "FEXP"]) (ha : accReduced a = true)
      (hb : b = s.t ∨ i.mnemonic ∈ flagMnemonics) : Completion i s (completed { s with acc := a, t := b })
  /-- the key store -/
  | key {k : KeyStore} (hi : i.mnemonic ∈ ["VKLOAD", "VKCLR"]) (hk : k.wf s.params.icMax) (hv : k.pointsValid = true) :
      Completion i s (completed (s.setVk k))
  /-- bytes inside BUF -/
  | store {a : Nat} {l : List Byte} (hi : i.mnemonic ∈ ["STF", "STRAW", "STG1", "STG2"])
      (hl : a + l.length ≤ s.params.bufBytes) : Completion i s (completed (s.setBuf (s.buf.writeBytes a l)))
  /-- the parts WIPE selects, each to its reset value (46_system.md R231) -/
  | wipe {f : Vector Word 16} {g : Vector G1Reg 8} {h : Vector G2Reg 4} {acc : AccReg} {m : Memory}
      (hi : i.mnemonic = "WIPE") (hg : g = s.g ∨ g = Vector.replicate 8 .inf) (hh : h = s.h ∨ h = Vector.replicate 4 .inf)
      (hacc : acc = s.acc ∨ accReduced acc = true) (hm : m = s.buf ∨ m = []) :
      Completion i s (completed { s with f := f, g := g, h := h, acc := acc, buf := m })

variable {i : Instr} {s t : State}

/-- Every ending of a rule is `complete`, `completeT` or `raise`, which answer a next state. -/
theorem Completion.of_next {u : State} (h : Host.Outcome.next u = (.next t : Result)) (hu : Completion i s u) :
    Completion i s t :=
  Host.Outcome.next.inj h ▸ hu

/-- The accumulator and T written together; stated for any content, so that none is computed. -/
theorem completeT_setAcc (b : Bool) (a : AccReg) (s : State) :
    completeT b (s.setAcc a) = .next (completed { s with acc := a, t := b }) := rfl

theorem Completion.of_raise {e : Err} (h : raise e s = .next t) (he : e ≠ .ok) : Completion i s t :=
  .of_next h (.failure he)

theorem Completion.of_withElement {fs : FieldSel} {j : Fin 16} {use : Nat → Result} (h : withElement fs j s use = .next t)
    (hu : use (s.raw j) = .next t → Completion i s t) : Completion i s t := by
  rcases withElement_cases fs j s use with ⟨-, h'⟩ | ⟨-, h'⟩
  · exact hu (h'.symm.trans h)
  · exact .of_next (h'.symm.trans h) (.failure (by decide))

theorem Completion.of_withElements {fs : FieldSel} {j k : Fin 16} {use : Nat → Nat → Result}
    (h : withElements fs j k s use = .next t) (hu : use (s.raw j) (s.raw k) = .next t → Completion i s t) :
    Completion i s t :=
  .of_withElement h fun h => .of_withElement h hu

theorem Completion.of_withRegion {addr : BitVec 15} {size : Nat} {use : Nat → Result}
    (h : withRegion addr size s use = .next t)
    (hu : addr.toNat + size ≤ s.params.bufBytes → use addr.toNat = .next t → Completion i s t) : Completion i s t := by
  rcases withRegion_cases addr size s use with ⟨hin, h'⟩ | ⟨-, h'⟩
  · exact hu hin (h'.symm.trans h)
  · exact .of_next (h'.symm.trans h) (.failure (by decide))

theorem length_bytes32 (v : Nat) : (bytes32 v).length = 32 := length_beBytes 32 v

theorem length_encG1 (P : Pt Nat) : (encG1 P).length = 64 := by
  cases P <;> simp [encG1, length_bytes32]

theorem length_toWire (ord : WireOrder) (c : Ext2 Nat) : (toWire ord c).length = 64 := by
  cases ord <;> simp [toWire, length_bytes32]

theorem length_encG2 (ord : WireOrder) (P : TwistPt) : (encG2 ord P).length = 128 := by
  cases P <;> simp [encG2, length_toWire]

/-! The rules with branches of their own. -/

theorem execLdf_completion {fs : FieldSel} {rt : Fin 16} {addr : BitVec 15} (h : execLdf fs rt addr s = .next t) :
    Completion (.ldf fs rt addr) s t :=
  .of_withRegion h fun _ h => by
    dsimp only at h
    split at h
    · exact .of_next h (.field (by simp [Instr.mnemonic]) (.inl rfl))
    · exact .of_raise h (by decide)

theorem execLdg1_completion {rt : Fin 8} {addr : BitVec 15} (h : execLdg1 rt addr s = .next t) :
    Completion (.ldg1 rt addr) s t :=
  .of_withRegion h fun _ h => by
    split at h
    · next P hP => exact .of_next h (.point1 (by simp [Instr.mnemonic]) fun _ => g1Valid_g1Words (g1Good_of_parseG1 hP))
    · exact .of_raise h (by decide)

theorem execLdg2_completion {rt : Fin 4} {addr : BitVec 15} (h : execLdg2 rt addr s = .next t) :
    Completion (.ldg2 rt addr) s t :=
  .of_withRegion h fun _ h => by
    split at h
    · next P hP => exact .of_next h (.point2 (by simp [Instr.mnemonic]) fun _ => g2Valid_g2Words (g2Good_of_parseG2 hP))
    · exact .of_raise h (by decide)

theorem execMiller_completion {ra : Fin 8} {rb : Fin 4} (h : execMiller ra rb s = .next t) :
    Completion (.miller ra rb) s t := by
  unfold execMiller at h
  split at h
  · exact .of_next h (.accumulator (by simp [Instr.mnemonic]) (accReduced_accWords _) (.inl rfl))
  · cases h

theorem execPperm_completion {rd ra : Fin 16} (h : execPperm rd ra s = .next t) : Completion (.pperm rd ra) s t := by
  unfold execPperm at h
  split at h
  · exact .of_withElement h fun h => .of_withElement h fun h => .of_withElement h fun h =>
      .of_next h (.field (by simp [Instr.mnemonic]) (.inl rfl))
  · exact .of_raise h (by decide)

theorem execVkload_completion {addr : BitVec 15} (h : execVkload addr s = .next t) : Completion (.vkload addr) s t :=
  .of_withRegion h fun _ h => by
    rcases parseKey_cases s.params s.buf addr.toNat s.len.toNat with ⟨k, hk, hwf, hv⟩ | ⟨e, hk, he⟩
    · rw [hk] at h
      exact .of_next h (.key (by simp [Instr.mnemonic]) hwf hv)
    · rw [hk] at h
      exact .of_next h (.keyFailure he rfl)

theorem execVerify_completion {n : BitVec 8} {addr : BitVec 15} (h : execVerify n addr s = .next t) :
    Completion (.verify n addr) s t :=
  .of_withRegion h fun _ h => by
    dsimp only at h
    split at h
    · split at h
      · split at h
        · split at h
          · split at h
            · exact .of_next h (.flag (.inr (by simp [Instr.mnemonic])))
            · cases h
          · exact .of_raise h (by decide)
        · exact .of_raise h (by decide)
      · exact .of_raise h (by decide)
    · exact .of_raise h (by decide)

theorem execFexp_completion (h : execFexp s = .next t) : Completion .fexp s t := by
  rw [execFexp, completeT_setAcc] at h
  exact .of_next h (.accumulator (by simp [Instr.mnemonic]) (accReduced_accWords _) (.inr (by simp [Instr.mnemonic])))

/-! Each part of WIPE as one update of its field. -/

theorem wipePart_f (on : Bool) (f : Vector Word 16) (s : State) :
    wipePart on (fun s => { s with f := f }) s = { s with f := if on then f else s.f } := by cases on <;> rfl

theorem wipePart_g (on : Bool) (g : Vector G1Reg 8) (s : State) :
    wipePart on (fun s => { s with g := g }) s = { s with g := if on then g else s.g } := by cases on <;> rfl

theorem wipePart_h (on : Bool) (h : Vector G2Reg 4) (s : State) :
    wipePart on (fun s => { s with h := h }) s = { s with h := if on then h else s.h } := by cases on <;> rfl

theorem wipePart_acc (on : Bool) (a : AccReg) (s : State) :
    wipePart on (fun s => s.setAcc a) s = { s with acc := if on then a else s.acc } := by cases on <;> rfl

theorem wipePart_buf (on : Bool) (m : Memory) (s : State) :
    wipePart on (fun s => s.setBuf m) s = { s with buf := if on then m else s.buf } := by cases on <;> rfl

/-- WIPE's five parts side by side (46_system.md R231). -/
theorem execWipe_eq (sel : BitVec 5) (s : State) :
    execWipe sel s = .next (completed { s with
      f := if sel.getLsbD 0 then Vector.replicate 16 0 else s.f
      g := if sel.getLsbD 1 then Vector.replicate 8 .inf else s.g
      h := if sel.getLsbD 2 then Vector.replicate 4 .inf else s.h
      acc := if sel.getLsbD 3 then accWords fq12One else s.acc
      buf := if sel.getLsbD 4 then [] else s.buf }) := by
  unfold execWipe
  -- the words of the one, left unevaluated
  generalize accWords fq12One = a
  rw [wipePart_buf, wipePart_acc, wipePart_h, wipePart_g, wipePart_f, complete_eq]

theorem execWipe_completion {sel : BitVec 5} (h : execWipe sel s = .next t) : Completion (.wipe sel) s t := by
  rw [execWipe_eq] at h
  refine .of_next h (.wipe rfl ?_ ?_ ?_ ?_) <;> split <;> simp [accReduced_accWords]

/-- Every command that answers a next state ends in one of these ways. -/
theorem exec_completion (h : exec i s = .next t) : Completion i s t := by
  unfold exec at h
  cases i with
  | nop => exact .of_next h (.flag (.inl rfl))
  | fadd fs rd ra rb =>
    exact .of_withElements h fun h => .of_next h (.field (by simp [Instr.mnemonic]) (.inl rfl))
  | fsub fs rd ra rb =>
    exact .of_withElements h fun h => .of_next h (.field (by simp [Instr.mnemonic]) (.inl rfl))
  | fneg fs rd ra => exact .of_withElement h fun h => .of_next h (.field (by simp [Instr.mnemonic]) (.inl rfl))
  | fmul fs rd ra rb =>
    exact .of_withElements h fun h => .of_next h (.field (by simp [Instr.mnemonic]) (.inl rfl))
  | fsqr fs rd ra => exact .of_withElement h fun h => .of_next h (.field (by simp [Instr.mnemonic]) (.inl rfl))
  | finv fs rd ra =>
    exact .of_withElement h fun h =>
      .of_next h (.field (by simp [Instr.mnemonic]) (.inr (by simp [Instr.mnemonic])))
  | fpow fs rd ra rb => exact .of_withElement h fun h => .of_next h (.field (by simp [Instr.mnemonic]) (.inl rfl))
  | fisz fs ra => exact .of_withElement h fun h => .of_next h (.flag (.inr (by simp [Instr.mnemonic])))
  | feq fs ra rb => exact .of_withElements h fun h => .of_next h (.flag (.inr (by simp [Instr.mnemonic])))
  | ldf fs rt addr => exact execLdf_completion h
  | stf fs rt addr =>
    exact .of_withRegion h fun hin h => .of_withElement h fun h =>
      .of_next h (.store (by simp [Instr.mnemonic]) (by rwa [length_bytes32]))
  | ldraw rt addr => exact .of_withRegion h fun _ h => .of_next h (.field (by simp [Instr.mnemonic]) (.inl rfl))
  | straw rt addr =>
    exact .of_withRegion h fun hin h => .of_next h (.store (by simp [Instr.mnemonic]) (by rwa [length_bytes32]))
  | ldg1 rt addr => exact execLdg1_completion h
  | stg1 rt addr =>
    exact .of_withRegion h fun hin h => .of_next h (.store (by simp [Instr.mnemonic]) (by rwa [length_encG1]))
  | ldg2 rt addr => exact execLdg2_completion h
  | stg2 rt addr =>
    exact .of_withRegion h fun hin h => .of_next h (.store (by simp [Instr.mnemonic]) (by rwa [length_encG2]))
  | g1add rd ra rb =>
    exact .of_next h (.point1 (by simp [Instr.mnemonic]) fun hv =>
      g1Valid_g1Words ((State.g1Good_point1 hv ra).add (State.g1Good_point1 hv rb)))
  | g2add rd ra rb =>
    exact .of_next h (.point2 (by simp [Instr.mnemonic]) fun hv =>
      g2Valid_g2Words ((State.g2Good_point2 hv ra).add (State.g2Good_point2 hv rb)))
  | g1smul rd ra rb =>
    exact .of_next h (.point1 (by simp [Instr.mnemonic]) fun hv =>
      g1Valid_g1Words ((State.g1Good_point1 hv ra).mul (s.raw_lt rb)))
  | g2smul rd ra rb =>
    exact .of_next h (.point2 (by simp [Instr.mnemonic]) fun hv =>
      g2Valid_g2Words ((State.g2Good_point2 hv ra).mul (s.raw_lt rb)))
  | g1onc addr => exact .of_withRegion h fun _ h => .of_next h (.flag (.inr (by simp [Instr.mnemonic])))
  | g1subg addr => exact .of_withRegion h fun _ h => .of_next h (.flag (.inr (by simp [Instr.mnemonic])))
  | g2onc addr => exact .of_withRegion h fun _ h => .of_next h (.flag (.inr (by simp [Instr.mnemonic])))
  | g2subg addr => exact .of_withRegion h fun _ h => .of_next h (.flag (.inr (by simp [Instr.mnemonic])))
  | accone => exact .of_next h (.accumulator (by simp [Instr.mnemonic]) (accReduced_accWords _) (.inl rfl))
  | miller ra rb => exact execMiller_completion h
  | fexp => exact execFexp_completion h
  | pperm rd ra => exact execPperm_completion h
  | phash rd ra rb =>
    exact .of_withElements h fun h => .of_next h (.field (by simp [Instr.mnemonic]) (.inl rfl))
  | vkload addr => exact execVkload_completion h
  | vkclr => exact .of_next h (.key (by simp [Instr.mnemonic]) (.inl rfl) (KeyStore.pointsValid_empty _))
  | verify n addr => exact execVerify_completion h
  | wipe sel => exact execWipe_completion h

/-- What no command changes: the host's registers, the parameters, the inputs to come and the read data; and that every
command ends idle with DONE set (20_memory.md R70). -/
theorem Completion.hostSide (h : Completion i s t) :
    t.cmd = s.cmd ∧ t.len = s.len ∧ t.ie = s.ie ∧ t.ovr = s.ovr ∧ t.params = s.params ∧ t.host = s.host ∧
      t.readData = s.readData ∧ t.busy = false ∧ t.done = true := by
  cases h <;> exact ⟨rfl, rfl, rfl, rfl, rfl, rfl, rfl, rfl, rfl⟩

/-- The complete step ends as a command does: an illegal word like one that raises an error (30_encoding.md R96). -/
theorem completeStep_completion (h : completeStep s = .next t) : ∃ i, Completion i s t := by
  unfold completeStep at h
  split at h
  · next i _ => exact ⟨i, exec_completion h⟩
  · exact ⟨.nop, .of_raise h (by decide)⟩

end Sys2Proof.Machine
end

section
/-! SUPPORT. What every step keeps: a predicate kept by each kind of turn is kept by `step`; with the host's accesses, said
once. -/

namespace Sys2Proof.Machine

variable {s t : State}

/-! ## The host's accesses -/

theorem withOffset_eq_next {w : BusWidth} {addr : Nat} {use : Nat → State} (h : withOffset w addr s use = .next t) :
    ∃ off, t = use off := by
  rcases withOffset_cases w addr s use with ⟨-, h'⟩ | ⟨off, -, ⟨-, h'⟩ | ⟨-, -, h'⟩ | ⟨-, -, h'⟩⟩ <;>
    rw [h'] at h <;> cases h
  exact ⟨off, rfl⟩

/-- A read changes nothing but the read data and OVR (20_memory.md R69, R71). -/
theorem State.readAt_eq (s : State) (w : BusWidth) (off : Nat) :
    ∃ d o, s.readAt w off = { s with readData := d, ovr := o } := by
  unfold State.readAt
  split
  · exact ⟨_, s.ovr, rfl⟩
  · rcases Bool.eq_false_or_eq_true s.busy with hb | hb
    · rw [State.readBuf_busy hb]
      dsimp only
      split
      · exact ⟨_, true, rfl⟩
      · exact ⟨_, s.ovr, rfl⟩
    · rw [State.readBuf_idle hb]
      exact ⟨_, s.ovr, rfl⟩

/-- All a write to the control registers can do. -/
theorem State.writeControl_cases (s : State) (off : Nat) (v : Reg32) :
    s.writeControl off v = s.writeCtrl v ∨ s.writeControl off v = s.writeStatus v ∨
      (s.busy = false ∧ s.writeControl off v = s.issue v) ∨
      s.writeControl off v = { s with len := v } ∨ s.writeControl off v = s.overrun ∨ s.writeControl off v = s := by
  unfold State.writeControl
  split
  · exact .inl rfl
  · exact .inr (.inl rfl)
  · unfold State.writeCmd
    cases s.busy <;> simp
  · unfold State.writeLen
    cases s.busy <;> simp
  · simp

/-- All a byte write to BUF can do (20_memory.md R63, R68, R69). -/
theorem State.writeBufByte_cases (s : State) (a : Nat) (v : Byte) :
    s.writeBufByte a v = s ∨ s.writeBufByte a v = s.overrun ∨
      (a < s.params.bufBytes ∧ s.writeBufByte a v = s.setBuf (s.buf.write a v)) := by
  unfold State.writeBufByte
  split
  · exact .inl rfl
  · next ha =>
    split
    · exact .inr (.inl rfl)
    · exact .inr (.inr ⟨Nat.not_le.mp ha, rfl⟩)

/-- What every byte write keeps, a write of several bytes keeps. -/
theorem State.writeBuf_induction {P : State → Prop} (hbyte : ∀ (s : State) (a : Nat) (v : Byte), P s → P (s.writeBufByte a v))
    (hs : P s) (a n v : Nat) : P (s.writeBuf a n v) := by
  induction n generalizing s a v with
  | zero => exact hs
  | succ n ih => exact ih (hbyte s a _ hs) _ _

/-! ## A predicate kept by every kind of turn -/

/-- A predicate of states that every kind of turn keeps: a write in its two address ranges, a command, a reset, and the
changes of the model's own fields `host` and `readData`. -/
structure KeptByTurns (P : State → Prop) : Prop where
  setHost : ∀ (s : State) (l : List HostEvent), P s → P (s.setHost l)
  read : ∀ (s : State) (d : BitVec 64) (o : Bool), P s → P { s with readData := d, ovr := o }
  control : ∀ (s : State) (off : Nat) (v : Reg32), P s → P (s.writeControl off v)
  bufByte : ∀ (s : State) (a : Nat) (v : Byte), P s → P (s.writeBufByte a v)
  command : ∀ (i : Instr) (s t : State), Completion i s t → P s → P t
  reset : ∀ s : State, P s → P (State.resetWith s.params)

theorem KeptByTurns.writeAt {P : State → Prop} (hP : KeptByTurns P) (hs : P s) (w : BusWidth) (off : Nat) (v : BitVec 64) :
    P (s.writeAt w off v) := by
  unfold State.writeAt
  split
  · exact hP.control s _ _ hs
  · exact State.writeBuf_induction hP.bufByte hs _ _ _

theorem KeptByTurns.completeStep {P : State → Prop} (hP : KeptByTurns P) (hs : P s) (h : completeStep s = .next t) : P t := by
  obtain ⟨i, hi⟩ := completeStep_completion h
  exact hP.command i s t hi hs

/-- The induction step of every safety claim: what the turns keep, a step keeps. -/
theorem KeptByTurns.step {P : State → Prop} (hP : KeptByTurns P) (hs : P s) (h : step s = .next t) : P t := by
  rcases step_next_cases h with ⟨w, addr, rest, -, h⟩ | ⟨w, addr, v, rest, -, h⟩ | ⟨rest, -, -, h⟩ | ⟨rest, -, -, rfl⟩ |
    ⟨rest, -, rfl⟩ | ⟨-, -, h⟩
  · obtain ⟨off, rfl⟩ := withOffset_eq_next h
    obtain ⟨d, o, hr⟩ := (s.setHost rest).readAt_eq w off
    rw [hr]
    exact hP.read _ d o (hP.setHost s rest hs)
  · obtain ⟨off, rfl⟩ := withOffset_eq_next h
    exact hP.writeAt (hP.setHost s rest hs) w off v
  · exact hP.completeStep (hP.setHost s rest hs) h
  · exact hP.setHost s rest hs
  · exact hP.setHost _ rest (hP.reset s hs)
  · exact hP.completeStep hs h

/-! ## The shape of the state -/

theorem State.wf_resetWith {p : Params} (hp : p.Wf) : (State.resetWith p).wf :=
  ⟨hp, Memory.wf_nil, by simp [State.resetWith], .inl rfl, by simp [State.resetWith]⟩

theorem Completion.wf {i : Instr} (h : Completion i s t) (hs : s.wf) : t.wf := by
  obtain ⟨hp, hbuf, hin, hvk, -⟩ := hs
  have hidle : ¬((false : Bool) = true ∧ (true : Bool) = true) := by simp
  cases h with
  | failure | flag | field | point1 | point2 | accumulator => exact ⟨hp, hbuf, hin, hvk, hidle⟩
  | keyFailure => exact ⟨hp, hbuf, hin, .inl rfl, hidle⟩
  | key _ hk => exact ⟨hp, hbuf, hin, hk, hidle⟩
  | store _ hl =>
    refine ⟨hp, Memory.wf_writeBytes hbuf _, fun c hc => ?_, hvk, hidle⟩
    rcases Memory.mem_writeBytes hc with ⟨-, hc⟩ | hc
    · exact lt_of_lt_of_le hc hl
    · exact hin c hc
  | wipe _ _ _ _ hm =>
    obtain rfl | rfl := hm
    · exact ⟨hp, hbuf, hin, hvk, hidle⟩
    · exact ⟨hp, Memory.wf_nil, by simp, hvk, hidle⟩

theorem State.wf_writeBufByte (hs : s.wf) (a : Nat) (v : Byte) : (s.writeBufByte a v).wf := by
  obtain ⟨hp, hbuf, hin, hvk, hflags⟩ := hs
  rcases s.writeBufByte_cases a v with h | h | ⟨ha, h⟩ <;> rw [h]
  · exact ⟨hp, hbuf, hin, hvk, hflags⟩
  · exact ⟨hp, hbuf, hin, hvk, hflags⟩
  · refine ⟨hp, Memory.wf_write hbuf a v, fun c hc => ?_, hvk, hflags⟩
    rcases Memory.mem_write hc with ⟨rfl, -⟩ | hc
    · exact ha
    · exact hin c hc

/-- A write of CMD to an idle engine takes DONE away with setting BUSY; a write of STATUS can only clear DONE (10_state.md
R32, R34). -/
theorem State.wf_writeControl (hs : s.wf) (off : Nat) (v : Reg32) : (s.writeControl off v).wf := by
  obtain ⟨hp, hbuf, hin, hvk, hflags⟩ := hs
  rcases s.writeControl_cases off v with h | h | ⟨-, h⟩ | h | h | h <;> rw [h]
  · exact ⟨hp, hbuf, hin, hvk, hflags⟩
  · refine ⟨hp, hbuf, hin, hvk, fun hbd => hflags ⟨hbd.1, ?_⟩⟩
    exact (Bool.and_eq_true_iff.mp hbd.2).1
  · exact ⟨hp, hbuf, hin, hvk, by simp⟩
  · exact ⟨hp, hbuf, hin, hvk, hflags⟩
  · exact ⟨hp, hbuf, hin, hvk, hflags⟩
  · exact ⟨hp, hbuf, hin, hvk, hflags⟩

theorem keptByTurns_wf : KeptByTurns State.wf where
  setHost _ _ hs := hs
  read _ _ _ hs := hs
  control _ off v hs := State.wf_writeControl hs off v
  bufByte _ a v hs := State.wf_writeBufByte hs a v
  command _ _ _ h hs := h.wf hs
  reset _ hs := State.wf_resetWith hs.1

/-! ## Valid points and a reduced accumulator -/

/-- The invariant of 10_state.md R24, and of R25 for the accumulator. -/
def State.typedValid (s : State) : Prop := s.pointsValid ∧ accReduced s.acc = true

/-- After one register of a file is written, what held of each register and of the new content holds of each. -/
theorem forall_get_set {α : Type} {n : Nat} {p : α → Bool} {v : Vector α n} {x : α} (hv : ∀ j : Fin n, p (v.get j) = true)
    (hx : p x = true) (i j : Fin n) : p ((v.set i x).get j) = true := by
  rw [Vector.get_eq_getElem, Vector.getElem_set]
  split
  · exact hx
  · exact hv j

theorem montWord_zero (fs : FieldSel) : montWord fs 0 = 0 := by simp [montWord, toMont, wordOf]

theorem montWord_one (fs : FieldSel) : montWord fs 1 = BitVec.ofNat 256 (Config.radix % modulus fs) := by
  rw [montWord, toMont, wordOf, Nat.one_mul]

/-- ACC at reset is the one of `Fq12` (10_state.md R40). -/
theorem State.resetWith_acc (p : Params) : (State.resetWith p).acc = accWords fq12One := by
  simp only [accWords, fq12One, ext2Words, montWord_zero, montWord_one]
  rfl

theorem State.typedValid_resetWith (p : Params) : (State.resetWith p).typedValid :=
  ⟨⟨fun i => by simp [State.resetWith, g1Valid], fun i => by simp [State.resetWith, g2Valid],
    KeyStore.pointsValid_empty p.icMax⟩, by rw [State.resetWith_acc]; exact accReduced_accWords _⟩

theorem Completion.typedValid {i : Instr} (h : Completion i s t) (hs : s.typedValid) : t.typedValid := by
  obtain ⟨⟨hg, hh, hvk⟩, hacc⟩ := hs
  cases h with
  | failure | flag | field | store => exact ⟨⟨hg, hh, hvk⟩, hacc⟩
  | keyFailure => exact ⟨⟨hg, hh, KeyStore.pointsValid_empty _⟩, hacc⟩
  | point1 _ hw => exact ⟨⟨forall_get_set hg (hw hg) _, hh, hvk⟩, hacc⟩
  | point2 _ hw => exact ⟨⟨hg, forall_get_set hh (hw hh) _, hvk⟩, hacc⟩
  | accumulator _ ha => exact ⟨⟨hg, hh, hvk⟩, ha⟩
  | key _ _ hv => exact ⟨⟨hg, hh, hv⟩, hacc⟩
  | wipe _ hg' hh' hacc' _ =>
    refine ⟨⟨?_, ?_, hvk⟩, ?_⟩
    · obtain rfl | rfl := hg'
      · exact hg
      · simp [g1Valid]
    · obtain rfl | rfl := hh'
      · exact hh
      · simp [g2Valid]
    · exact hacc'.elim (fun h => h ▸ hacc) id

theorem State.typedValid_writeBufByte (hs : s.typedValid) (a : Nat) (v : Byte) : (s.writeBufByte a v).typedValid := by
  rcases s.writeBufByte_cases a v with h | h | ⟨-, h⟩ <;> rw [h] <;> exact hs

theorem State.typedValid_writeControl (hs : s.typedValid) (off : Nat) (v : Reg32) : (s.writeControl off v).typedValid := by
  rcases s.writeControl_cases off v with h | h | ⟨-, h⟩ | h | h | h <;> rw [h] <;> exact hs

theorem keptByTurns_typedValid : KeptByTurns State.typedValid where
  setHost _ _ hs := hs
  read _ _ _ hs := hs
  control _ off v hs := State.typedValid_writeControl hs off v
  bufByte _ a v hs := State.typedValid_writeBufByte hs a v
  command _ _ _ h hs := h.typedValid hs
  reset s _ := State.typedValid_resetWith s.params

/-! ## The parameters the model's own reset state carries -/

theorem r_pos : 0 < Config.r := by decide

theorem wf_configPos : Config.pos.Wf := by
  have hmod : ∀ n, n % Config.r < Config.r := fun n => Nat.mod_lt n r_pos
  refine ⟨Nat.succ_pos _, Nat.mul_mod_right 2 _, by simp [Config.pos], ?_, ⟨hmod _, hmod _, hmod _⟩,
    ⟨hmod _, hmod _, hmod _⟩, ⟨hmod _, hmod _, hmod _⟩⟩
  intro c hc
  obtain ⟨k, -, rfl⟩ := List.mem_map.mp hc
  exact hmod _

theorem wf_configParams : Config.params.Wf :=
  ⟨by decide, by decide, by decide, by decide, by decide, Nat.mul_mod_right 65536 _, wf_configPos⟩

end Sys2Proof.Machine
end

section
/-! SUPPORT. The control registers: the words they show and what a read or a write of one does (10_state.md R30 to R37). -/

namespace Sys2Proof.Machine

variable {s : State}

/-! ## STATUS and CFG -/

theorem bit_eq_toNat (b : Bool) : bit b = b.toNat := by cases b <;> rfl

/-- STATUS as its bits from bit 0 up, with ERR in the second byte. -/
theorem State.status_eq_bits (s : State) :
    s.status = BitVec.ofNat 32 (Nat.bit s.busy (Nat.bit s.done (Nat.bit s.t (Nat.bit s.vk.valid (Nat.bit s.ovr
      (2 ^ 3 * s.err.code.toNat)))))) := by
  simp only [State.status, bit_eq_toNat, Nat.bit_val]
  congr 1
  omega

/-- The bits of STATUS (10_state.md R32). -/
theorem State.getLsbD_status (s : State) {k : Nat} (hk : k < 32) :
    s.status.getLsbD k =
      (if k = 0 then s.busy else if k = 1 then s.done else if k = 2 then s.t else if k = 3 then s.vk.valid
       else if k = 4 then s.ovr else if 8 ≤ k ∧ k < 16 then s.err.code.getLsbD (k - 8) else false) := by
  rw [State.status_eq_bits, BitVec.getLsbD_ofNat, decide_eq_true hk, Bool.true_and]
  rcases k with _ | _ | _ | _ | _ | k
  · exact Nat.testBit_bit_zero _ _
  · rw [Nat.testBit_bit_succ]; exact Nat.testBit_bit_zero _ _
  · simp only [Nat.testBit_bit_succ]; exact Nat.testBit_bit_zero _ _
  · simp only [Nat.testBit_bit_succ]; exact Nat.testBit_bit_zero _ _
  · simp only [Nat.testBit_bit_succ]; exact Nat.testBit_bit_zero _ _
  · simp only [Nat.testBit_bit_succ, Nat.testBit_two_pow_mul, BitVec.testBit_toNat]
    by_cases h3 : 3 ≤ k
    · by_cases h11 : k < 11
      · simp [h3, show k + 1 + 1 + 1 + 1 + 1 < 16 by omega]
      · simp [h3, BitVec.getLsbD_of_ge s.err.code (k - 3) (by omega)]
    · simp [h3]

theorem State.cfg_toNat (h : s.params.Wf) : s.cfg.toNat = s.params.icMax * 2 ^ 16 + s.params.bufBytes := by
  obtain ⟨-, -, hmax, -, hic, -⟩ := h
  rw [State.cfg, BitVec.toNat_ofNat, Nat.mod_eq_of_lt (by omega)]

/-- At reset STATUS shows BUSY alone (10_state.md R40). -/
theorem State.status_resetWith (p : Params) : (State.resetWith p).status = 1#32 := by
  simp [State.status, State.resetWith, KeyStore.empty, bit, Err.code]

theorem State.ctrl_toNat (s : State) : s.ctrl.toNat = if s.ie then 1 else 0 := by
  rw [State.ctrl, bit]; cases s.ie <;> rfl

theorem State.getLsbD_ctrl (s : State) : s.ctrl.getLsbD 0 = s.ie := by
  rw [State.ctrl, bit]; cases s.ie <;> rfl

/-! ## Accesses to the control registers -/

/-- The interface has every aligned 32-bit access below the BUF window (20_memory.md R62). -/
theorem offsetRefusal_control {off : Nat} (h : off < 0x8000) (ha : off % 4 = 0) : offsetRefusal .word off = none := by
  simp [offsetRefusal, bufWindow, h, ha]

/-- A read of a control register shows its word and has no other effect (20_memory.md R71). -/
theorem step_read_control {rest : List HostEvent} {off : Nat} (h : off < 0x8000) (ha : off % 4 = 0)
    (hs : s.host = .read .word (s.params.base + off) :: rest) :
    step s = .next { s with host := rest, readData := (s.readControl off).setWidth 64 } := by
  rw [step_readAt hs (offsetRefusal_control h ha), State.readAt, if_pos (show off < bufWindow from h)]
  rfl

/-- A write of a control register carries the low 32 bits of the data. -/
theorem step_write_control {rest : List HostEvent} {off : Nat} {v : BitVec 64} (h : off < 0x8000) (ha : off % 4 = 0)
    (hs : s.host = .write .word (s.params.base + off) v :: rest) :
    step s = .next ((s.setHost rest).writeControl off (v.setWidth 32)) := by
  rw [step_writeAt hs (offsetRefusal_control h ha), State.writeAt, if_pos (show off < bufWindow from h)]

/-- Above CFG the space is unmapped and reads 0 (20_memory.md R68). -/
theorem State.readControl_unmapped (s : State) {off : Nat} (h : 0x1C ≤ off) : s.readControl off = 0 := by
  unfold State.readControl
  split <;> try omega
  rfl

/-- ID, VKICN, CFG and the unmapped offsets ignore writes (10_state.md R33, R36, R37; 20_memory.md R68). -/
theorem State.writeControl_ignored (s : State) {off : Nat} (v : Reg32) (h : off = 0x00 ∨ 0x14 ≤ off) :
    s.writeControl off v = s := by
  unfold State.writeControl
  split <;> try omega
  rfl

theorem State.writeCmd_idle (hb : s.busy = false) (v : Reg32) : s.writeCmd v = s.issue v := by simp [State.writeCmd, hb]

theorem State.writeCmd_busy (hb : s.busy = true) (v : Reg32) : s.writeCmd v = s.overrun := by simp [State.writeCmd, hb]

theorem State.writeLen_idle (hb : s.busy = false) (v : Reg32) : s.writeLen v = { s with len := v } := by
  simp [State.writeLen, hb]

theorem State.writeLen_busy (hb : s.busy = true) (v : Reg32) : s.writeLen v = s.overrun := by simp [State.writeLen, hb]

end Sys2Proof.Machine
end

section
/-! The state's obligations (10_state.md): the two invariants, the writers of each part, reset, the control registers. -/

open Sys2Proof Sys2Proof.Machine

/-- Settles O52: each kind of turn keeps the shape. -/
theorem stepKeepsTheShape : Obligations.StepKeepsTheShape :=
  fun _ _ hs h => keptByTurns_wf.step hs h

/-- Settles O53: the commands store sums and multiples of points of the groups, or points that the parsers accepted. -/
theorem stepKeepsPointsValid : Obligations.StepKeepsPointsValid :=
  fun _ _ hp hacc h => keptByTurns_typedValid.step ⟨hp, hacc⟩ h

/-- Settles O54, by the two reset lemmas and the ranges of the default parameters. -/
theorem resetMeetsTheInvariants : Obligations.ResetMeetsTheInvariants :=
  ⟨fun _ hp => State.wf_resetWith hp, State.typedValid_resetWith, State.wf_resetWith wf_configParams⟩

/-- Settles O49: the flag in each way a command can finish. -/
theorem flagWriters : Obligations.FlagWriters := by
  intro i s t h
  cases exec_completion h with
  | failure he | keyFailure he => exact ⟨fun _ => rfl, fun hok => absurd hok he⟩
  | flag hb | field _ hb | accumulator _ _ hb => exact ⟨fun hne => absurd rfl hne, fun _ => hb⟩
  | point1 | point2 | key | store | wipe => exact ⟨fun hne => absurd rfl hne, fun _ => .inl rfl⟩

/-- Settles O50: each way a command can finish names the part it writes. -/
theorem stateWriters : Obligations.StateWriters := by
  intro i s t h
  have hc := exec_completion h
  have hside := hc.hostSide
  cases hc with
  | failure => exact ⟨.inl rfl, .inl rfl, .inl rfl, .inl rfl, .inl rfl, .inl rfl, hside⟩
  | keyFailure _ hi => exact ⟨.inl rfl, .inl rfl, .inl rfl, .inl rfl, .inr (by simp [hi]), .inl rfl, hside⟩
  | flag => exact ⟨.inl rfl, .inl rfl, .inl rfl, .inl rfl, .inl rfl, .inl rfl, hside⟩
  | field hi =>
    exact ⟨.inr (List.mem_append_left ["WIPE"] hi), .inl rfl, .inl rfl, .inl rfl, .inl rfl, .inl rfl, hside⟩
  | point1 hi =>
    exact ⟨.inl rfl, .inr (List.mem_append_left ["WIPE"] hi), .inl rfl, .inl rfl, .inl rfl, .inl rfl, hside⟩
  | point2 hi =>
    exact ⟨.inl rfl, .inl rfl, .inr (List.mem_append_left ["WIPE"] hi), .inl rfl, .inl rfl, .inl rfl, hside⟩
  | accumulator hi =>
    exact ⟨.inl rfl, .inl rfl, .inl rfl, .inr (List.mem_append_left ["WIPE"] hi), .inl rfl, .inl rfl, hside⟩
  | key hi => exact ⟨.inl rfl, .inl rfl, .inl rfl, .inl rfl, .inr hi, .inl rfl, hside⟩
  | store hi =>
    exact ⟨.inl rfl, .inl rfl, .inl rfl, .inl rfl, .inl rfl, .inr (List.mem_append_left ["WIPE"] hi), hside⟩
  | wipe hi =>
    refine ⟨.inr ?_, .inr ?_, .inr ?_, .inr ?_, .inl rfl, .inr ?_, hside⟩ <;> simp [hi]

/-- Settles O55: CMD and LEN read and written, idle and busy. -/
theorem commandAndLengthRegisters : Obligations.CommandAndLengthRegisters := by
  intro s rest v
  refine ⟨fun h => ?_, fun h => ?_, fun h => ?_, fun h => ?_⟩
  · rw [step_write_control (by decide) (by decide) h]
    exact ⟨fun hb => congrArg _ ((s.setHost rest).writeCmd_idle hb _),
      fun hb => congrArg _ ((s.setHost rest).writeCmd_busy hb _)⟩
  · rw [step_write_control (by decide) (by decide) h]
    exact ⟨fun hb => congrArg _ ((s.setHost rest).writeLen_idle hb _),
      fun hb => congrArg _ ((s.setHost rest).writeLen_busy hb _)⟩
  · exact step_read_control (by decide) (by decide) h
  · exact step_read_control (by decide) (by decide) h

/-- Settles O56: the bits of STATUS, then each register under a read and under a write. -/
theorem controlAndStatusRegisters : Obligations.ControlAndStatusRegisters := by
  refine ⟨fun s => ⟨fun k hk => s.getLsbD_status hk, ?_⟩, fun s rest off v hoff hal => ⟨fun h => ?_, fun h => ?_⟩⟩
  · rw [s.getLsbD_status (by decide), State.getLsbD_ctrl]
    rfl
  · refine ⟨_, step_read_control hoff hal h, ?_, ?_, ?_, ?_, ?_, ?_⟩
    · rintro rfl; rfl
    · rintro rfl; exact s.ctrl_toNat
    · rintro rfl; rfl
    · rintro rfl hicn; exact Nat.mod_eq_of_lt hicn
    · rintro rfl hwf; exact State.cfg_toNat hwf
    · exact s.readControl_unmapped
  · rw [step_write_control hoff hal h]
    refine ⟨?_, ?_, fun ho => ?_⟩
    · rintro rfl; simp [State.writeControl, State.writeCtrl, State.setHost]
    · rintro rfl; simp [State.writeControl, State.writeStatus, State.setHost]
    · rw [State.writeControl_ignored _ _ ho]; rfl

/-- Settles O7: each field at reset, then the words the registers show. -/
theorem resetStateIsAsStated : Obligations.ResetStateIsAsStated := by
  intro p
  have hacc : accCanon (State.resetWith p).acc = fq12One := by
    rw [State.resetWith_acc, accCanon_accWords canonical_fq12One]
  exact ⟨Vector.get_replicate _ _, Vector.get_replicate _ _, Vector.get_replicate _ _, hacc, rfl,
    ⟨rfl, rfl, rfl, rfl, rfl, rfl, fun _ => List.eq_of_mem_replicate⟩, fun _ => rfl, rfl, rfl, rfl, rfl, rfl,
    rfl, rfl, State.status_resetWith p, rfl, rfl, rfl, rfl,
    State.cfg_toNat (s := State.resetWith p), rfl, rfl⟩

end

section
/-! SUPPORT. Decoding undoes encoding: one lemma for each format the decoder reads, then the 35 commands (30_encoding.md R91,
R95). -/

namespace Sys2Proof

/-! ## The formats, read back -/

theorem decodeFieldR_encodeR {op rd ra rb : Nat} (fs : FieldSel) (rest : FieldSel → Except DecodeError Instr)
    (hop : op < 2 ^ 8) (hd : rd < 2 ^ 5) (ha : ra < 2 ^ 5) (hb : rb < 2 ^ 5) :
    decodeFieldR (encodeR op (fsBit fs) rd ra rb) rest = rest fs := by
  obtain ⟨-, hfs, h22, -, -, -, -, h4⟩ := bits_encodeR hop (fsBit_lt fs) hd ha hb
  rw [decodeFieldR, mbz_eq h22, mbz_eq h4, fsField_eq hfs]
  rfl

theorem decodeR_encodeR {op rd ra rb : Nat} (rest : Except DecodeError Instr) (hop : op < 2 ^ 8) (hd : rd < 2 ^ 5)
    (ha : ra < 2 ^ 5) (hb : rb < 2 ^ 5) : decodeR (encodeR op 0 rd ra rb) rest = rest := by
  obtain ⟨-, -, -, h23, -, -, -, h4⟩ := bits_encodeR hop (by decide : 0 < 2) hd ha hb
  rw [decodeR, mbz_eq h23, mbz_eq h4]
  rfl

theorem decodeF3_encodeR {op : Nat} (hop : op < 2 ^ 8) (fs : FieldSel) (rd ra rb : Fin 16)
    (mk : FieldSel → Fin 16 → Fin 16 → Fin 16 → Instr) :
    decodeF3 (encodeR op (fsBit fs) rd ra rb) mk = .ok (mk fs rd ra rb) := by
  have hd : rd.val < 2 ^ 5 := by omega
  have ha : ra.val < 2 ^ 5 := by omega
  have hb : rb.val < 2 ^ 5 := by omega
  obtain ⟨-, -, -, -, h19, h14, h9, -⟩ := bits_encodeR hop (fsBit_lt fs) hd ha hb
  rw [decodeF3, decodeFieldR_encodeR fs _ hop hd ha hb, regField_eq h19, regField_eq h14, regField_eq h9]
  rfl

theorem decodeF2_encodeR {op : Nat} (hop : op < 2 ^ 8) (fs : FieldSel) (rd ra : Fin 16)
    (mk : FieldSel → Fin 16 → Fin 16 → Instr) :
    decodeF2 (encodeR op (fsBit fs) rd ra 0) mk = .ok (mk fs rd ra) := by
  have hd : rd.val < 2 ^ 5 := by omega
  have ha : ra.val < 2 ^ 5 := by omega
  have h0 : 0 < 2 ^ 5 := by decide
  obtain ⟨-, -, -, -, h19, h14, h9, -⟩ := bits_encodeR hop (fsBit_lt fs) hd ha h0
  rw [decodeF2, decodeFieldR_encodeR fs _ hop hd ha h0, mbz_eq h9, regField_eq h19, regField_eq h14]
  rfl

theorem decodeR3_encodeR {op nd na nb : Nat} (hop : op < 2 ^ 8) (hnd : nd ≤ 2 ^ 5) (hna : na ≤ 2 ^ 5) (hnb : nb ≤ 2 ^ 5)
    (rd : Fin nd) (ra : Fin na) (rb : Fin nb) (mk : Fin nd → Fin na → Fin nb → Instr) :
    decodeR3 (encodeR op 0 rd ra rb) nd na nb mk = .ok (mk rd ra rb) := by
  have hd := rd.isLt.trans_le hnd
  have ha := ra.isLt.trans_le hna
  have hb := rb.isLt.trans_le hnb
  obtain ⟨-, -, -, -, h19, h14, h9, -⟩ := bits_encodeR hop (by decide : 0 < 2) hd ha hb
  rw [decodeR3, decodeR_encodeR _ hop hd ha hb, regField_eq h19, regField_eq h14, regField_eq h9]
  rfl

theorem decodeFieldM_encodeM {op : Nat} (hop : op < 2 ^ 8) (fs : FieldSel) (rt : Fin 16) (addr : BitVec 15)
    (mk : FieldSel → Fin 16 → BitVec 15 → Instr) :
    decodeFieldM (encodeM op (fsBit fs) rt addr.toNat) mk = .ok (mk fs rt addr) := by
  have ht : rt.val < 2 ^ 5 := by omega
  obtain ⟨-, hfs, h22, -, h19, -, h14⟩ := bits_encodeM hop (fsBit_lt fs) ht addr.isLt
  rw [decodeFieldM, mbz_eq h22, regField_eq h19, fsField_eq hfs, addrField_eq h14]
  rfl

theorem decodeM_encodeM {op n : Nat} (hop : op < 2 ^ 8) (hn : n ≤ 2 ^ 5) (rt : Fin n) (addr : BitVec 15)
    (mk : Fin n → BitVec 15 → Instr) : decodeM (encodeM op 0 rt addr.toNat) n mk = .ok (mk rt addr) := by
  obtain ⟨-, -, -, h23, h19, -, h14⟩ := bits_encodeM hop (by decide : 0 < 2) (rt.isLt.trans_le hn) addr.isLt
  rw [decodeM, mbz_eq h23, regField_eq h19, addrField_eq h14]
  rfl

theorem decodeAddr_encodeM {op : Nat} (hop : op < 2 ^ 8) (addr : BitVec 15) (mk : BitVec 15 → Instr) :
    decodeAddr (encodeM op 0 0 addr.toNat) mk = .ok (mk addr) := by
  obtain ⟨-, -, -, -, -, h23, h14⟩ := bits_encodeM hop (by decide : 0 < 2) (by decide : 0 < 2 ^ 5) addr.isLt
  rw [decodeAddr, mbz_eq h23, addrField_eq h14]
  rfl

theorem decodeNone_encodeS {op : Nat} (hop : op < 2 ^ 8) (i : Instr) : decodeNone (encodeS op 0) i = .ok i := by
  obtain ⟨-, -, -, h23⟩ := bits_encodeS hop (by decide : 0 < 2 ^ 5)
  rw [decodeNone, mbz_eq h23]
  rfl

/-! ## The commands with a format of their own -/

theorem decode_encode_fisz (fs : FieldSel) (ra : Fin 16) : decode (encode (.fisz fs ra)) = .ok (.fisz fs ra) := by
  have hop := opcode_lt (.fisz fs ra)
  have ha : ra.val < 2 ^ 5 := by omega
  have h0 : 0 < 2 ^ 5 := by decide
  obtain ⟨-, -, -, -, h19, h14, h9, -⟩ := bits_encodeR hop (fsBit_lt fs) h0 ha h0
  rw [decode_fisz (Laws.OpcodeByte.fisz fs ra), encode, decodeFieldR_encodeR fs _ hop h0 ha h0, mbz_eq h19, mbz_eq h9,
    regField_eq h14]
  rfl

theorem decode_encode_feq (fs : FieldSel) (ra rb : Fin 16) : decode (encode (.feq fs ra rb)) = .ok (.feq fs ra rb) := by
  have hop := opcode_lt (.feq fs ra rb)
  have ha : ra.val < 2 ^ 5 := by omega
  have hb : rb.val < 2 ^ 5 := by omega
  have h0 : 0 < 2 ^ 5 := by decide
  obtain ⟨-, -, -, -, h19, h14, h9, -⟩ := bits_encodeR hop (fsBit_lt fs) h0 ha hb
  rw [decode_feq (Laws.OpcodeByte.feq fs ra rb), encode, decodeFieldR_encodeR fs _ hop h0 ha hb, mbz_eq h19,
    regField_eq h14, regField_eq h9]
  rfl

theorem decode_encode_miller (ra : Fin 8) (rb : Fin 4) : decode (encode (.miller ra rb)) = .ok (.miller ra rb) := by
  have hop := opcode_lt (.miller ra rb)
  have ha : ra.val < 2 ^ 5 := by omega
  have hb : rb.val < 2 ^ 5 := by omega
  have h0 : 0 < 2 ^ 5 := by decide
  obtain ⟨-, -, -, -, h19, h14, h9, -⟩ := bits_encodeR hop (by decide : 0 < 2) h0 ha hb
  rw [decode_miller (Laws.OpcodeByte.miller ra rb), encode, decodeR_encodeR _ hop h0 ha hb, mbz_eq h19, regField_eq h14,
    regField_eq h9]
  rfl

/-- The one command whose operand types leave a check open (30_encoding.md R94). -/
theorem decode_encode_pperm {rd ra : Fin 16} (h : (Instr.pperm rd ra).wellFormed = true) :
    decode (encode (.pperm rd ra)) = .ok (.pperm rd ra) := by
  have hop := opcode_lt (.pperm rd ra)
  have hd : rd.val < 2 ^ 5 := by omega
  have ha : ra.val < 2 ^ 5 := by omega
  have h0 : 0 < 2 ^ 5 := by decide
  obtain ⟨-, -, -, -, h19, h14, h9, -⟩ := bits_encodeR hop (by decide : 0 < 2) hd ha h0
  rw [decode_pperm (Laws.OpcodeByte.pperm rd ra), encode, decodeR_encodeR _ hop hd ha h0, mbz_eq h9, regField_eq h19,
    regField_eq h14]
  exact if_pos h

theorem decode_encode_verify (n : BitVec 8) (addr : BitVec 15) :
    decode (encode (.verify n addr)) = .ok (.verify n addr) := by
  obtain ⟨-, h23, h15, h14⟩ := bits_encodeV (opcode_lt (.verify n addr)) n.isLt addr.isLt
  rw [decode_verify (Laws.OpcodeByte.verify n addr), encode, mbz_eq h15, h23, addrField_eq h14, BitVec.ofNat_toNat,
    BitVec.setWidth_eq]
  rfl

theorem decode_encode_wipe (sel : BitVec 5) : decode (encode (.wipe sel)) = .ok (.wipe sel) := by
  obtain ⟨-, h23, h4, -⟩ := bits_encodeS (opcode_lt (.wipe sel)) sel.isLt
  rw [decode_wipe (Laws.OpcodeByte.wipe sel), encode, mbz_eq h23, h4, BitVec.ofNat_toNat, BitVec.setWidth_eq]
  rfl

/-! ## Every command -/

open Laws in
/-- The decoder reads from a well-formed command's word that command. -/
theorem decode_encode {i : Instr} (h : i.wellFormed = true) : decode (encode i) = .ok i := by
  have hop := opcode_lt i
  cases i with
  | nop => exact (decode_nop OpcodeByte.nop).trans (decodeNone_encodeS hop _)
  | fadd fs rd ra rb => exact (decode_fadd (OpcodeByte.fadd fs rd ra rb)).trans (decodeF3_encodeR hop fs rd ra rb _)
  | fsub fs rd ra rb => exact (decode_fsub (OpcodeByte.fsub fs rd ra rb)).trans (decodeF3_encodeR hop fs rd ra rb _)
  | fneg fs rd ra => exact (decode_fneg (OpcodeByte.fneg fs rd ra)).trans (decodeF2_encodeR hop fs rd ra _)
  | fmul fs rd ra rb => exact (decode_fmul (OpcodeByte.fmul fs rd ra rb)).trans (decodeF3_encodeR hop fs rd ra rb _)
  | fsqr fs rd ra => exact (decode_fsqr (OpcodeByte.fsqr fs rd ra)).trans (decodeF2_encodeR hop fs rd ra _)
  | finv fs rd ra => exact (decode_finv (OpcodeByte.finv fs rd ra)).trans (decodeF2_encodeR hop fs rd ra _)
  | fpow fs rd ra rb => exact (decode_fpow (OpcodeByte.fpow fs rd ra rb)).trans (decodeF3_encodeR hop fs rd ra rb _)
  | fisz fs ra => exact decode_encode_fisz fs ra
  | feq fs ra rb => exact decode_encode_feq fs ra rb
  | ldf fs rt addr => exact (decode_ldf (OpcodeByte.ldf fs rt addr)).trans (decodeFieldM_encodeM hop fs rt addr _)
  | stf fs rt addr => exact (decode_stf (OpcodeByte.stf fs rt addr)).trans (decodeFieldM_encodeM hop fs rt addr _)
  | ldraw rt addr => exact (decode_ldraw (OpcodeByte.ldraw rt addr)).trans (decodeM_encodeM hop (by decide) rt addr _)
  | straw rt addr => exact (decode_straw (OpcodeByte.straw rt addr)).trans (decodeM_encodeM hop (by decide) rt addr _)
  | ldg1 rt addr => exact (decode_ldg1 (OpcodeByte.ldg1 rt addr)).trans (decodeM_encodeM hop (by decide) rt addr _)
  | stg1 rt addr => exact (decode_stg1 (OpcodeByte.stg1 rt addr)).trans (decodeM_encodeM hop (by decide) rt addr _)
  | ldg2 rt addr => exact (decode_ldg2 (OpcodeByte.ldg2 rt addr)).trans (decodeM_encodeM hop (by decide) rt addr _)
  | stg2 rt addr => exact (decode_stg2 (OpcodeByte.stg2 rt addr)).trans (decodeM_encodeM hop (by decide) rt addr _)
  | g1add rd ra rb =>
    exact (decode_g1add (OpcodeByte.g1add rd ra rb)).trans
      (decodeR3_encodeR hop (by decide) (by decide) (by decide) rd ra rb _)
  | g2add rd ra rb =>
    exact (decode_g2add (OpcodeByte.g2add rd ra rb)).trans
      (decodeR3_encodeR hop (by decide) (by decide) (by decide) rd ra rb _)
  | g1smul rd ra rb =>
    exact (decode_g1smul (OpcodeByte.g1smul rd ra rb)).trans
      (decodeR3_encodeR hop (by decide) (by decide) (by decide) rd ra rb _)
  | g2smul rd ra rb =>
    exact (decode_g2smul (OpcodeByte.g2smul rd ra rb)).trans
      (decodeR3_encodeR hop (by decide) (by decide) (by decide) rd ra rb _)
  | g1onc addr => exact (decode_g1onc (OpcodeByte.g1onc addr)).trans (decodeAddr_encodeM hop addr _)
  | g1subg addr => exact (decode_g1subg (OpcodeByte.g1subg addr)).trans (decodeAddr_encodeM hop addr _)
  | g2onc addr => exact (decode_g2onc (OpcodeByte.g2onc addr)).trans (decodeAddr_encodeM hop addr _)
  | g2subg addr => exact (decode_g2subg (OpcodeByte.g2subg addr)).trans (decodeAddr_encodeM hop addr _)
  | accone => exact (decode_accone OpcodeByte.accone).trans (decodeNone_encodeS hop _)
  | miller ra rb => exact decode_encode_miller ra rb
  | fexp => exact (decode_fexp OpcodeByte.fexp).trans (decodeNone_encodeS hop _)
  | pperm rd ra => exact decode_encode_pperm h
  | phash rd ra rb =>
    exact (decode_phash (OpcodeByte.phash rd ra rb)).trans
      (decodeR3_encodeR hop (by decide) (by decide) (by decide) rd ra rb _)
  | vkload addr => exact (decode_vkload (OpcodeByte.vkload addr)).trans (decodeAddr_encodeM hop addr _)
  | vkclr => exact (decode_vkclr OpcodeByte.vkclr).trans (decodeNone_encodeS hop _)
  | verify n addr => exact decode_encode_verify n addr
  | wipe sel => exact decode_encode_wipe sel

end Sys2Proof
end

section
/-! SUPPORT. How the complete step can end, said once over all 35 commands: with a next state, or refused over a point
outside its subgroup. -/

namespace Sys2Proof.Machine

/-- What a command's rule, begun in `s`, can answer: a next state, or the refusal of 44_pairing.md R199, which only a state
that breaks 10_state.md R24 meets. No rule answers a fault. -/
inductive Ending (s : State) : Result → Prop
  | next (t : State) : Ending s (.next t)
  | offSubgroup (h : ¬s.pointsValid) : Ending s (.refused .pairingOffSubgroup)

variable {s : State} {r : Result}

theorem Ending.answered (h : Ending s r) (hs : s.pointsValid) : ∃ t, r = .next t := by
  cases h with
  | next t => exact ⟨t, rfl⟩
  | offSubgroup hn => exact absurd hs hn

theorem Ending.ne_fault (h : Ending s r) (e : Fault) : r ≠ .fault e := by
  cases h <;> exact nofun

/-! ## The operand forms -/

theorem Ending.withElement {fs : FieldSel} {j : Fin 16} {use : Nat → Result} (hu : Ending s (use (s.raw j))) :
    Ending s (withElement fs j s use) := by
  rcases withElement_cases fs j s use with ⟨-, h⟩ | ⟨-, h⟩ <;> rw [h]
  · exact hu
  · exact .next _

theorem Ending.withElements {fs : FieldSel} {j k : Fin 16} {use : Nat → Nat → Result}
    (hu : Ending s (use (s.raw j) (s.raw k))) : Ending s (withElements fs j k s use) :=
  .withElement (.withElement hu)

theorem Ending.withRegion {addr : BitVec 15} {size : Nat} {use : Nat → Result} (hu : Ending s (use addr.toNat)) :
    Ending s (withRegion addr size s use) := by
  rcases withRegion_cases addr size s use with ⟨-, h⟩ | ⟨-, h⟩ <;> rw [h]
  · exact hu
  · exact .next _

/-! ## The rules with branches of their own -/

theorem ending_execLdf (fs : FieldSel) (rt : Fin 16) (addr : BitVec 15) (s : State) : Ending s (execLdf fs rt addr s) :=
  .withRegion (by dsimp only; split <;> exact .next _)

theorem ending_execLdg1 (rt : Fin 8) (addr : BitVec 15) (s : State) : Ending s (execLdg1 rt addr s) :=
  .withRegion (by split <;> exact .next _)

theorem ending_execLdg2 (rt : Fin 4) (addr : BitVec 15) (s : State) : Ending s (execLdg2 rt addr s) :=
  .withRegion (by split <;> exact .next _)

theorem ending_execMiller (ra : Fin 8) (rb : Fin 4) (s : State) : Ending s (execMiller ra rb s) := by
  unfold execMiller
  split
  · exact .next _
  · next h => exact .offSubgroup fun ⟨hg, hh, _⟩ => h (by rw [hg ra, hh rb]; rfl)

theorem ending_execPperm (rd ra : Fin 16) (s : State) : Ending s (execPperm rd ra s) := by
  unfold execPperm
  split
  · exact .withElement (.withElement (.withElement (.next _)))
  · exact .next _

theorem ending_execVkload (addr : BitVec 15) (s : State) : Ending s (execVkload addr s) :=
  .withRegion (by split <;> exact .next _)

theorem ending_execVerify (n : BitVec 8) (addr : BitVec 15) (s : State) : Ending s (execVerify n addr s) :=
  .withRegion (by
    dsimp only
    split
    · split
      · split
        · split
          · split
            · exact .next _
            · next h => exact .offSubgroup fun ⟨_, _, hvk⟩ => h hvk
          · exact .next _
        · exact .next _
      · exact .next _
    · exact .next _)

/-! ## Every command -/

theorem ending_exec (i : Instr) (s : State) : Ending s (exec i s) := by
  unfold exec
  cases i with
  | nop | g1add | g2add | g1smul | g2smul | accone | fexp | vkclr | wipe => exact .next _
  | fadd | fsub | fmul | feq | phash => exact .withElements (.next _)
  | fneg | fsqr | finv | fpow | fisz => exact .withElement (.next _)
  | ldraw | straw | stg1 | stg2 | g1onc | g1subg | g2onc | g2subg => exact .withRegion (.next _)
  | stf => exact .withRegion (.withElement (.next _))
  | ldf fs rt addr => exact ending_execLdf fs rt addr s
  | ldg1 rt addr => exact ending_execLdg1 rt addr s
  | ldg2 rt addr => exact ending_execLdg2 rt addr s
  | miller ra rb => exact ending_execMiller ra rb s
  | pperm rd ra => exact ending_execPperm rd ra s
  | vkload addr => exact ending_execVkload addr s
  | verify n addr => exact ending_execVerify n addr s

theorem completeStep_decoded {i : Instr} (h : decode s.cmd = .ok i) : completeStep s = exec i s := by
  rw [completeStep, h]

/-- An illegal word completes with `IllegalCommand` (30_encoding.md R96). -/
theorem completeStep_illegal {e : DecodeError} (h : decode s.cmd = .error e) :
    completeStep s = .next (failed .illegalCommand s) := by
  rw [completeStep, h, raise_eq]

theorem ending_completeStep (s : State) : Ending s (completeStep s) := by
  cases h : decode s.cmd with
  | ok i => rw [completeStep_decoded h]; exact ending_exec i s
  | error e => rw [completeStep_illegal h]; exact .next _

end Sys2Proof.Machine
end

section
/-! SUPPORT. The host's accesses: which of them the bus refuses, what they do in the BUF window, and that those to a busy
engine neither change nor see what a command works on (20_memory.md R61 to R69, R74). -/

namespace Sys2Proof.Machine

variable {s t : State} {w : BusWidth} {addr off : Nat} {use : Nat → State}

theorem step_cons {e : HostEvent} {rest : List HostEvent} (h : s.host = e :: rest) :
    step s = hostTurn e (s.setHost rest) := by
  rw [step, turn, h]

/-! ## Accesses the bus refuses, and those it does not -/

theorem offsetRefusal_misaligned (h : off < 0x8000) (ha : ¬(w = .word ∧ off % 4 = 0)) :
    offsetRefusal w off = some .controlAccess := by
  rw [offsetRefusal, if_pos (show off < bufWindow from h), if_neg ha]

theorem offsetRefusal_pastEnd (h : 0x8000 ≤ off) (he : 0x10000 < off + w.bytes) :
    offsetRefusal w off = some .outsideWindow := by
  rw [offsetRefusal, if_neg (show ¬off < bufWindow from Nat.not_lt.mpr h), if_neg (Nat.not_le.mpr he)]

theorem not_lt_bufWindow (a : Nat) : ¬0x8000 + a < bufWindow := Nat.not_lt.mpr (Nat.le_add_right _ _)

/-- The interface has every access that lies in the BUF window (20_memory.md R61, R63). -/
theorem offsetRefusal_buf {a : Nat} (h : 0x8000 + a + w.bytes ≤ 0x10000) : offsetRefusal w (0x8000 + a) = none := by
  rw [offsetRefusal, if_neg (not_lt_bufWindow a), if_pos h]

theorem withOffset_below (h : addr < s.params.base) : withOffset w addr s use = .refused .outsideWindow := by
  rw [withOffset, if_pos h]

theorem withOffset_refused {r : Refusal} (h : offsetRefusal w off = some r) :
    withOffset w (s.params.base + off) s use = .refused r := by
  simp [withOffset, h]

/-- An access is answered exactly where the interface has it, by `use` of its offset. -/
theorem withOffset_eq_next_iff : withOffset w addr s use = .next t ↔
    ∃ off, addr = s.params.base + off ∧ offsetRefusal w off = none ∧ t = use off := by
  constructor
  · intro h
    rcases withOffset_cases w addr s use with ⟨-, h'⟩ | ⟨off, ha, ⟨hn, h'⟩ | ⟨-, -, h'⟩ | ⟨-, -, h'⟩⟩ <;>
      rw [h'] at h <;> cases h
    exact ⟨off, ha, hn, rfl⟩
  · rintro ⟨off, rfl, hn, rfl⟩
    exact withOffset_inside hn

theorem hostRead_eq_next_iff : hostRead w addr s = .next t ↔
    ∃ off, addr = s.params.base + off ∧ offsetRefusal w off = none ∧ t = s.readAt w off :=
  withOffset_eq_next_iff

theorem hostWrite_eq_next_iff {v : BitVec 64} : hostWrite w addr v s = .next t ↔
    ∃ off, addr = s.params.base + off ∧ offsetRefusal w off = none ∧ t = s.writeAt w off v :=
  withOffset_eq_next_iff

theorem withOffset_answered (hb : s.params.base ≤ addr) (hn : offsetRefusal w (addr - s.params.base) = none) :
    ∃ t, withOffset w addr s use = .next t :=
  ⟨_, withOffset_eq_next_iff.mpr ⟨addr - s.params.base, (Nat.add_sub_cancel' hb).symm, hn, rfl⟩⟩

theorem withOffset_ne_fault (f : Fault) : withOffset w addr s use ≠ .fault f := by
  rcases withOffset_cases w addr s use with ⟨-, h⟩ | ⟨off, -, ⟨-, h⟩ | ⟨-, -, h⟩ | ⟨-, -, h⟩⟩ <;> rw [h] <;>
    exact nofun

/-- A refused offset refuses both a read and a write there. -/
theorem step_access_refused {rest : List HostEvent} {r : Refusal} (v : BitVec 64) (h : offsetRefusal w off = some r) :
    (s.host = .read w (s.params.base + off) :: rest → step s = .refused r) ∧
      (s.host = .write w (s.params.base + off) v :: rest → step s = .refused r) := by
  refine ⟨fun hh => ?_, fun hh => ?_⟩
  · rw [step_read hh]
    exact withOffset_refused (s := s.setHost rest) h
  · rw [step_write hh]
    exact withOffset_refused (s := s.setHost rest) h

/-! ## The BUF window -/

theorem BusWidth.bytes_ne_zero (w : BusWidth) : w.bytes ≠ 0 := by cases w <;> decide

theorem State.readAt_buf (s : State) (w : BusWidth) (a : Nat) :
    s.readAt w (0x8000 + a) =
      { (s.readBuf a w.bytes).2 with readData := BitVec.ofNat 64 (s.readBuf a w.bytes).1 } := by
  rw [State.readAt, if_neg (not_lt_bufWindow a), bufWindow, Nat.add_sub_cancel_left]

theorem State.writeAt_buf (s : State) (w : BusWidth) (a : Nat) (v : BitVec 64) :
    s.writeAt w (0x8000 + a) v = s.writeBuf a w.bytes v.toNat := by
  rw [State.writeAt, if_neg (not_lt_bufWindow a), bufWindow, Nat.add_sub_cancel_left]

/-- What an access to the BUF window leaves in a busy engine: OVR, where it touches BUF (20_memory.md R69). -/
theorem State.overrun_if_touched (s : State) (w : BusWidth) (a : Nat) :
    (if w.bytes ≠ 0 ∧ a < s.params.bufBytes then s.overrun else s) =
      { s with ovr := s.ovr || decide (a < s.params.bufBytes) } := by
  by_cases h : a < s.params.bufBytes
  · rw [if_pos ⟨w.bytes_ne_zero, h⟩, decide_eq_true h, Bool.or_true]
    rfl
  · rw [if_neg fun hc => h hc.2, decide_eq_false h, Bool.or_false]

theorem State.readAt_buf_busy (hb : s.busy = true) (w : BusWidth) (a : Nat) :
    s.readAt w (0x8000 + a) = { s with readData := 0, ovr := s.ovr || decide (a < s.params.bufBytes) } := by
  rw [State.readAt_buf, State.readBuf_busy hb, State.overrun_if_touched]
  rfl

theorem State.writeAt_buf_busy (hb : s.busy = true) (w : BusWidth) (a : Nat) (v : BitVec 64) :
    s.writeAt w (0x8000 + a) v = { s with ovr := s.ovr || decide (a < s.params.bufBytes) } := by
  rw [State.writeAt_buf, State.writeBuf_busy hb, State.overrun_if_touched]

/-! ## Accesses to a busy engine -/

/-- A write to the control registers of a busy engine changes IE, DONE and OVR at most (20_memory.md R69). -/
theorem State.writeControl_busy (hb : s.busy = true) (off : Nat) (v : Reg32) :
    ∃ ie done ovr, s.writeControl off v = { s with ie := ie, done := done, ovr := ovr } := by
  unfold State.writeControl
  split
  · exact ⟨_, s.done, s.ovr, rfl⟩
  · exact ⟨s.ie, _, _, rfl⟩
  · exact ⟨s.ie, s.done, true, s.writeCmd_busy hb v⟩
  · exact ⟨s.ie, s.done, true, s.writeLen_busy hb v⟩
  · exact ⟨s.ie, s.done, s.ovr, rfl⟩

theorem offset_cases (off : Nat) : off < bufWindow ∨ ∃ a, off = 0x8000 + a :=
  (Nat.lt_or_ge off bufWindow).imp_right Nat.exists_eq_add_of_le

theorem State.writeAt_busy (hb : s.busy = true) (w : BusWidth) (off : Nat) (v : BitVec 64) :
    ∃ ie done ovr, s.writeAt w off v = { s with ie := ie, done := done, ovr := ovr } := by
  rcases offset_cases off with h | ⟨a, rfl⟩
  · rw [State.writeAt, if_pos h]
    exact s.writeControl_busy hb off _
  · exact ⟨s.ie, s.done, _, s.writeAt_buf_busy hb w a v⟩

/-- An input that is an access, and not the wait or the reset. -/
def HostEvent.isAccess : HostEvent → Prop
  | .read _ _ | .write _ _ _ => True
  | .wait | .reset => False

theorem HostEvent.isAccess_of_ne {e : HostEvent} (hw : e ≠ .wait) (hr : e ≠ .reset) : e.isAccess := by
  cases e with
  | read | write => trivial
  | wait => exact hw rfl
  | reset => exact hr rfl

/-- All an access to a busy engine can change. -/
theorem hostTurn_busy {e : HostEvent} (he : e.isAccess) (hb : s.busy = true) (h : hostTurn e s = .next t) :
    ∃ ie done ovr d, t = { s with ie := ie, done := done, ovr := ovr, readData := d } := by
  cases e with
  | read w addr =>
    obtain ⟨off, -, -, rfl⟩ := hostRead_eq_next_iff.mp h
    obtain ⟨d, o, hr⟩ := s.readAt_eq w off
    exact ⟨s.ie, s.done, o, d, hr⟩
  | write w addr v =>
    obtain ⟨off, -, -, rfl⟩ := hostWrite_eq_next_iff.mp h
    obtain ⟨ie, done, ovr, hw⟩ := s.writeAt_busy hb w off v
    exact ⟨ie, done, ovr, s.readData, hw⟩
  | wait | reset => exact he.elim

/-! ## What the host cannot see of a busy engine -/

/-- `s` with the contents of `u` wherever a busy engine hides them from the host: the registers, ACC, BUF and the points of
the key. -/
def State.withHidden (s u : State) : State :=
  { s with f := u.f, g := u.g, h := u.h, acc := u.acc, buf := u.buf
           vk := { u.vk with valid := s.vk.valid, icn := s.vk.icn } }

theorem State.readControl_withHidden (s u : State) (off : Nat) : (s.withHidden u).readControl off = s.readControl off := rfl

theorem State.writeControl_withHidden (hb : s.busy = true) (u : State) (off : Nat) (v : Reg32) :
    (s.withHidden u).writeControl off v = (s.writeControl off v).withHidden u := by
  unfold State.writeControl
  split
  · rfl
  · rfl
  · rw [s.writeCmd_busy hb, (s.withHidden u).writeCmd_busy hb]; rfl
  · rw [s.writeLen_busy hb, (s.withHidden u).writeLen_busy hb]; rfl
  · rfl

theorem State.readAt_withHidden (hb : s.busy = true) (u : State) (w : BusWidth) (off : Nat) :
    (s.withHidden u).readAt w off = (s.readAt w off).withHidden u := by
  rcases offset_cases off with h | ⟨a, rfl⟩
  · rw [State.readAt, State.readAt, if_pos h, if_pos h, State.readControl_withHidden]; rfl
  · rw [s.readAt_buf_busy hb, (s.withHidden u).readAt_buf_busy hb]; rfl

theorem State.writeAt_withHidden (hb : s.busy = true) (u : State) (w : BusWidth) (off : Nat) (v : BitVec 64) :
    (s.withHidden u).writeAt w off v = (s.writeAt w off v).withHidden u := by
  rcases offset_cases off with h | ⟨a, rfl⟩
  · rw [State.writeAt, State.writeAt, if_pos h, if_pos h, State.writeControl_withHidden hb]
  · rw [s.writeAt_buf_busy hb, (s.withHidden u).writeAt_buf_busy hb]; rfl

/-- The hidden contents pass through an access to a busy engine and do not bear on the rest. -/
theorem hostTurn_withHidden {e : HostEvent} (he : e.isAccess) (hb : s.busy = true) (u : State) (h : hostTurn e s = .next t) :
    hostTurn e (s.withHidden u) = .next (t.withHidden u) := by
  cases e with
  | read w addr =>
    obtain ⟨off, ha, hn, rfl⟩ := hostRead_eq_next_iff.mp h
    exact hostRead_eq_next_iff.mpr ⟨off, ha, hn, (State.readAt_withHidden hb u w off).symm⟩
  | write w addr v =>
    obtain ⟨off, ha, hn, rfl⟩ := hostWrite_eq_next_iff.mp h
    exact hostWrite_eq_next_iff.mpr ⟨off, ha, hn, (State.writeAt_withHidden hb u w off v).symm⟩
  | wait | reset => exact he.elim

/-! ## Turns -/

/-- The engine moves where the host waits for it, or where no input is left (assumption 2). -/
theorem step_engine {rest : List HostEvent} (hb : s.busy = true)
    (h : s.host = .wait :: rest ∨ (s.host = [] ∧ rest = [])) : step s = completeStep (s.setHost rest) := by
  rcases h with h | ⟨h, rfl⟩
  · exact step_wait_busy h hb
  · rw [step_empty_busy h hb, ← h]
    rfl

/-- The step from an accepted write of CMD is the complete step with that word in CMD (10_state.md R34). -/
theorem step_withFetchWord (s : State) (w : Reg32) : step (s.withFetchWord 32 w.toNat) = completeStep (s.issue w) := by
  have hw : BitVec.ofNat 32 (w.toNat % 2 ^ 32) = w := by
    rw [Nat.mod_eq_of_lt w.isLt, BitVec.ofNat_toNat, BitVec.setWidth_eq]
  rw [State.withFetchWord, hw, step_wait_busy (s := s.withCommand w) rfl rfl]
  rfl

/-- With valid points and inputs the interface has, a step is safe (00_scope.md R11). -/
theorem safeStep_of_inInterface (hs : s.pointsValid) (hin : ∀ e ∈ s.host, e.inInterface s.params.base) : s.safeStep := by
  rcases hh : s.host with _ | ⟨e, rest⟩
  · cases hb : s.busy
    · exact .inr (step_empty_idle hh hb)
    · rw [State.safeStep, step_empty_busy hh hb]
      exact .inl ((ending_completeStep s).answered hs)
  · have he : e.inInterface s.params.base := hin e (by simp [hh])
    left
    cases e with
    | read w addr => rw [step_read hh]; exact withOffset_answered (s := s.setHost rest) he.1 he.2
    | write w addr v => rw [step_write hh]; exact withOffset_answered (s := s.setHost rest) he.1 he.2
    | wait =>
      cases hb : s.busy
      · exact ⟨_, step_wait_idle hh hb⟩
      · rw [step_wait_busy hh hb]
        exact (ending_completeStep (s.setHost rest)).answered hs
    | reset => exact ⟨_, step_reset hh⟩

/-- Neither an access nor a command answers a fault, so only an idle engine without input does (60_exceptions.md R266). -/
theorem step_eq_fault_iff : step s = .fault .idle ↔ s.host = [] ∧ s.busy = false := by
  refine ⟨fun h => ?_, fun ⟨hh, hb⟩ => step_empty_idle hh hb⟩
  rcases hh : s.host with _ | ⟨e, rest⟩
  · cases hb : s.busy
    · exact ⟨rfl, rfl⟩
    · exact absurd (step_empty_busy hh hb ▸ h) ((ending_completeStep s).ne_fault _)
  · exfalso
    cases e with
    | read w addr => exact withOffset_ne_fault _ (step_read hh ▸ h)
    | write w addr v => exact withOffset_ne_fault _ (step_write hh ▸ h)
    | wait =>
      cases hb : s.busy
      · rw [step_wait_idle hh hb] at h; cases h
      · exact (ending_completeStep _).ne_fault _ (step_wait_busy hh hb ▸ h)
    | reset => rw [step_reset hh] at h; cases h

end Sys2Proof.Machine
end

section
/-! The obligations of the host's accesses and of the step (20_memory.md). -/

open Sys2Proof Sys2Proof.Machine

/-- Settles O51: where points are valid no command is refused, and every command ends idle with DONE set. -/
theorem completeStepIsTotal : Obligations.CompleteStepIsTotal := by
  intro s hs
  obtain ⟨t, ht⟩ := (ending_completeStep s).answered hs
  obtain ⟨i, hi⟩ := completeStep_completion ht
  obtain ⟨hcmd, -, hie, -, -, -, -, hbusy, hdone⟩ := hi.hostSide
  exact ⟨t, ht, hbusy, hdone, hcmd, by rw [State.irq, hdone, hie, Bool.true_and]⟩

/-- Settles O57: the byte accesses of `State.readBuf` and `State.writeBuf`, idle and busy. -/
theorem hostBufAccesses : Obligations.HostBufAccesses := by
  intro s rest w a v hwf hin
  have hacc := offsetRefusal_buf hin
  refine ⟨fun h => ?_, fun h => ?_⟩
  · rw [step_readAt h hacc]
    refine ⟨fun hb => ?_, fun hb => congrArg _ ((s.setHost rest).readAt_buf_busy hb w a)⟩
    rw [State.readAt_buf, State.readBuf_idle (s := s.setHost rest) hb]
    rfl
  · rw [step_writeAt h hacc]
    refine ⟨fun hb => ?_, fun hb => congrArg _ ((s.setHost rest).writeAt_buf_busy hb w a v)⟩
    obtain ⟨m, hm, -, hread⟩ := (s.setHost rest).writeBuf_idle hb hwf a w.bytes v.toNat
    exact ⟨m, by rw [State.writeAt_buf, hm]; rfl, hread⟩

/-- Settles O58: what an access to a busy engine can change, and that it passes the hidden contents through. -/
theorem busyEngineIsIsolated : Obligations.BusyEngineIsIsolated := by
  refine ⟨fun s t e rest hb hh hw hr h => ?_, fun s s' t t' e rest hb hh hw hr hs' h h' => ?_⟩
  · rw [step_cons hh] at h
    obtain ⟨ie, done, ovr, d, rfl⟩ := hostTurn_busy (s := s.setHost rest) (HostEvent.isAccess_of_ne hw hr) hb h
    exact ⟨rfl, rfl, rfl, rfl, rfl, rfl, rfl, rfl, rfl, hb, rfl, rfl⟩
  · replace hs' : s' = s.withHidden s' := hs'
    have hh' : s'.host = e :: rest := by rw [hs']; exact hh
    have hset : s'.setHost rest = (s.setHost rest).withHidden s' := congrArg (State.setHost · rest) hs'
    rw [step_cons hh] at h
    rw [step_cons hh', hset, hostTurn_withHidden (s := s.setHost rest) (HostEvent.isAccess_of_ne hw hr) hb s' h] at h'
    cases h'
    exact ⟨rfl, rfl, rfl, rfl⟩

/-- Settles O60: what the bus refuses, by offset and by address; then an answer to every input it does not refuse. -/
theorem interfaceInputsAreAnswered : Obligations.InterfaceInputsAreAnswered :=
  ⟨fun _ _ _ _ v => ⟨fun ho ha => step_access_refused v (offsetRefusal_misaligned ho ha),
      fun ho he => step_access_refused v (offsetRefusal_pastEnd ho he)⟩,
    fun s rest _ _ _ hb => ⟨fun hh => (step_read hh).trans (withOffset_below (s := s.setHost rest) hb),
      fun hh => (step_write hh).trans (withOffset_below (s := s.setHost rest) hb)⟩,
    fun _ hs hin => safeStep_of_inInterface hs hin, fun _ => step_eq_fault_iff⟩

/-- Settles O6: the turns of a busy engine and of an idle one, and that decoding undoes encoding. -/
theorem stepRunsTheDecodedCommand : Obligations.StepRunsTheDecodedCommand := by
  refine ⟨fun s rest hb hh => ?_, fun s i hi => ?_, fun s hb hh => step_empty_idle hh hb,
    fun s rest hb hh => step_wait_idle hh hb, fun s rest w addr v => ⟨fun hh => step_read hh, fun hh => step_write hh⟩⟩
  · rw [step_engine hb hh]
    exact ⟨fun i hi => completeStep_decoded (s := s.setHost rest) hi,
      fun e he => completeStep_illegal (s := s.setHost rest) he⟩
  · rw [step_withFetchWord]
    exact completeStep_decoded (decode_encode hi)

end

section
/-! SUPPORT. What a row of the opcode table tests (30_encoding.md R101): the opcode, and a bound on each field; the bounds of
each format, and how a word is rebuilt from its fields (R91). -/

namespace Sys2Proof

/-! ## The bits of a field -/

theorem testBit_bits (w : Reg32) (hi lo j : Nat) :
    (bits w hi lo).testBit j = (decide (j < hi + 1 - lo) && w.getLsbD (j + lo)) := by
  rw [bits, Nat.testBit_mod_two_pow, Nat.testBit_div_two_pow, BitVec.testBit_toNat]

theorem bits_eq_bits_iff {v w : Reg32} {hi lo : Nat} :
    bits v hi lo = bits w hi lo ↔ ∀ k, lo ≤ k → k ≤ hi → v.getLsbD k = w.getLsbD k := by
  refine ⟨fun h k hlo hhi => ?_, fun h => Nat.eq_of_testBit_eq fun j => ?_⟩
  · have hj := congrArg (·.testBit (k - lo)) h
    simpa [testBit_bits, show k - lo < hi + 1 - lo by omega, Nat.sub_add_cancel hlo] using hj
  · rw [testBit_bits, testBit_bits]
    by_cases hj : j < hi + 1 - lo
    · rw [h (j + lo) (by omega) (by omega)]
    · simp [hj]

theorem bits_lt_two_pow_iff {w : Reg32} {hi lo n : Nat} :
    bits w hi lo < 2 ^ n ↔ ∀ k, lo + n ≤ k → k ≤ hi → w.getLsbD k = false := by
  refine ⟨fun h k hlo hhi => ?_, fun h => Nat.lt_pow_two_of_testBit _ fun j hj => ?_⟩
  · have hj := Nat.testBit_lt_two_pow (h.trans_le (Nat.pow_le_pow_right (by decide) (show n ≤ k - lo by omega)))
    simpa [testBit_bits, show k - lo < hi + 1 - lo by omega, show k - lo + lo = k by omega] using hj
  · rw [testBit_bits]
    by_cases hlt : j < hi + 1 - lo
    · rw [h (j + lo) (by omega) (by omega), Bool.and_false]
    · simp [hlt]

theorem bits_and (v w : Reg32) (hi lo : Nat) : bits (v &&& w) hi lo = bits v hi lo &&& bits w hi lo := by
  rw [bits, BitVec.toNat_and, Nat.and_div_two_pow, Nat.and_mod_two_pow]
  rfl

theorem and_eq_iff {w m v : Reg32} :
    w &&& m = v ↔ ∀ k < 32, (w.getLsbD k && m.getLsbD k) = v.getLsbD k := by
  refine ⟨fun h k _ => ?_, fun h => BitVec.eq_of_getLsbD_eq fun k hk => ?_⟩
  · rw [← h, BitVec.getLsbD_and]
  · rw [BitVec.getLsbD_and, h k hk]

/-! ## What a row's mask says -/

/-- A bound on a field of the word below the opcode: `w[hi:lo] < n`. It is 1 where the field must be zero (30_encoding.md
R91), and the size of the file where the field is a register index (R94). -/
structure Bound where
  hi : Nat
  lo : Nat
  n : Nat

def Bound.holds (b : Bound) (w : Reg32) : Prop := bits w b.hi b.lo < b.n

/-- The bits of the word that the bound makes zero. -/
def Bound.clears (b : Bound) (k : Nat) : Bool := decide (b.lo + b.n.log2 ≤ k ∧ k ≤ b.hi)

def TableRow.opcode (row : TableRow) : Nat := bits row.matchBits 31 24

/-- The row is the opcode and the bounds: its mask has the opcode's bits and those the bounds clear, and its match has no bit
below the opcode. -/
def TableRow.hasBounds (row : TableRow) (bs : List Bound) : Bool :=
  (List.range 32).all (fun k =>
    row.maskBits.getLsbD k == (decide (24 ≤ k) || bs.any (·.clears k)) && (decide (24 ≤ k) || !row.matchBits.getLsbD k)) &&
  bs.all fun b => decide (2 ^ b.n.log2 = b.n ∧ b.hi < 24)

theorem Bound.holds_iff {b : Bound} {w : Reg32} (hn : 2 ^ b.n.log2 = b.n) :
    b.holds w ↔ ∀ k, b.clears k = true → w.getLsbD k = false := by
  rw [Bound.holds, ← hn, bits_lt_two_pow_iff]
  simp [Bound.clears]

/-- A word matches a row when it has the row's opcode and its fields are in bounds. -/
theorem TableRow.covers_iff {row : TableRow} {bs : List Bound} (h : row.hasBounds bs = true) (w : Reg32) :
    row.covers w = true ↔ bits w 31 24 = row.opcode ∧ ∀ b ∈ bs, b.holds w := by
  simp only [TableRow.hasBounds, Bool.and_eq_true, List.all_eq_true, List.mem_range, beq_iff_eq, Bool.or_eq_true,
    decide_eq_true_eq, Bool.not_eq_true'] at h
  obtain ⟨hk, hb⟩ := h
  rw [TableRow.covers, decide_eq_true_iff, and_eq_iff, TableRow.opcode, bits_eq_bits_iff]
  refine ⟨fun h => ⟨fun k hlo hhi => ?_, fun b hmem => (b.holds_iff (hb b hmem).1).mpr fun k hc => ?_⟩,
    fun ⟨hop, hbs⟩ k hk32 => ?_⟩
  · simpa [(hk k (by omega)).1, hlo] using h k (by omega)
  · have hlt : k < 24 := by have := (hb b hmem).2; simp [Bound.clears] at hc; omega
    have hm : row.maskBits.getLsbD k = true := by
      rw [(hk k (by omega)).1, List.any_eq_true.mpr ⟨b, hmem, hc⟩, Bool.or_true]
    simpa [hm, (hk k (by omega)).2.resolve_left (by omega)] using h k (by omega)
  · rw [(hk k hk32).1]
    by_cases h24 : 24 ≤ k
    · rw [hop k h24 (by omega), decide_eq_true h24, Bool.true_or, Bool.and_true]
    · rw [(hk k hk32).2.resolve_left h24, decide_eq_false h24, Bool.false_or, Bool.and_eq_false_iff]
      cases hc : bs.any (·.clears k) with
      | false => exact .inr rfl
      | true =>
        obtain ⟨b, hmem, hc⟩ := List.any_eq_true.mp hc
        exact .inl ((b.holds_iff (hb b hmem).1).mp (hbs b hmem) k hc)

/-! ## The bounds of each format (30_encoding.md R91) -/

/-- Format R: `fs` below `nf`, which is 1 where the command has no `fs`, and each index below its file's size, which is 1
where the command does not use the field. -/
def boundsR (nf nd na nb : Nat) : List Bound := [⟨23, 23, nf⟩, ⟨22, 20, 1⟩, ⟨19, 15, nd⟩, ⟨14, 10, na⟩, ⟨9, 5, nb⟩, ⟨4, 0, 1⟩]

/-- Format M, with any `addr`. -/
def boundsM (nf nt : Nat) : List Bound := [⟨23, 23, nf⟩, ⟨22, 20, 1⟩, ⟨19, 15, nt⟩]

/-- Format V, with any `n` and `addr`. -/
def boundsV : List Bound := [⟨15, 15, 1⟩]

/-- Format S: `sel` below `ns`, which is 1 where the command has no selector. -/
def boundsS (ns : Nat) : List Bound := [⟨23, 5, 1⟩, ⟨4, 0, ns⟩]

section

variable {w : Reg32} {row : TableRow} {nf nd na nb nt ns : Nat}

theorem boundsR_hold_iff : (∀ b ∈ boundsR nf nd na nb, b.holds w) ↔
    bits w 23 23 < nf ∧ bits w 22 20 = 0 ∧ bits w 19 15 < nd ∧ bits w 14 10 < na ∧ bits w 9 5 < nb ∧ bits w 4 0 = 0 := by
  simp [boundsR, Bound.holds]

theorem boundsM_hold_iff : (∀ b ∈ boundsM nf nt, b.holds w) ↔
    bits w 23 23 < nf ∧ bits w 22 20 = 0 ∧ bits w 19 15 < nt := by
  simp [boundsM, Bound.holds]

theorem boundsV_hold_iff : (∀ b ∈ boundsV, b.holds w) ↔ bits w 15 15 = 0 := by
  simp [boundsV, Bound.holds]

theorem boundsS_hold_iff : (∀ b ∈ boundsS ns, b.holds w) ↔ bits w 23 5 = 0 ∧ bits w 4 0 < ns := by
  simp [boundsS, Bound.holds]

/-! ## A word is made of its fields -/

theorem encodeR_bits (h22 : bits w 22 20 = 0) (h4 : bits w 4 0 = 0) :
    encodeR (bits w 31 24) (bits w 23 23) (bits w 19 15) (bits w 14 10) (bits w 9 5) = w := by
  apply BitVec.eq_of_toNat_eq
  simp only [encodeR, bits, BitVec.toNat_ofNat] at *
  omega

theorem encodeM_bits (h22 : bits w 22 20 = 0) :
    encodeM (bits w 31 24) (bits w 23 23) (bits w 19 15) (bits w 14 0) = w := by
  apply BitVec.eq_of_toNat_eq
  simp only [encodeM, bits, BitVec.toNat_ofNat] at *
  omega

theorem encodeV_bits (h15 : bits w 15 15 = 0) : encodeV (bits w 31 24) (bits w 23 16) (bits w 14 0) = w := by
  apply BitVec.eq_of_toNat_eq
  simp only [encodeV, bits, BitVec.toNat_ofNat] at *
  omega

theorem encodeS_bits (h23 : bits w 23 5 = 0) : encodeS (bits w 31 24) (bits w 4 0) = w := by
  apply BitVec.eq_of_toNat_eq
  simp only [encodeS, bits, BitVec.toNat_ofNat] at *
  omega

theorem bits_lt {hi lo n : Nat} (hn : n = hi + 1 - lo := by rfl) : bits w hi lo < 2 ^ n :=
  hn ▸ Nat.mod_lt _ (Nat.two_pow_pos _)

theorem fsBit_fsField (w : Reg32) : fsBit (fsField w) = bits w 23 23 := by
  have : bits w 23 23 < 2 ^ 1 := bits_lt
  rw [fsField]
  split
  · next h => exact h.symm
  · simp only [fsBit]; omega

theorem toNat_ofNat_bits {hi lo n : Nat} (hn : n = hi + 1 - lo := by rfl) :
    (BitVec.ofNat n (bits w hi lo)).toNat = bits w hi lo := by
  rw [BitVec.toNat_ofNat, Nat.mod_eq_of_lt (bits_lt hn)]

theorem addrField_toNat (w : Reg32) : (addrField w).toNat = bits w 14 0 := toNat_ofNat_bits

theorem bits_23_20_eq_zero_iff : bits w 23 20 = 0 ↔ bits w 23 23 < 1 ∧ bits w 22 20 = 0 := by
  simp only [bits]; omega

theorem bits_23_15_eq_zero_iff :
    bits w 23 15 = 0 ↔ bits w 23 23 < 1 ∧ bits w 22 20 = 0 ∧ bits w 19 15 < 1 := by
  simp only [bits]; omega

theorem bits_23_0_eq_zero_iff : bits w 23 0 = 0 ↔ bits w 23 5 = 0 ∧ bits w 4 0 < 1 := by
  simp only [bits]; omega

end

end Sys2Proof
end

section
/-! SUPPORT. The table between the encoder and the decoder, said once for each of the 35 rows (30_encoding.md R101). From it:
the rows a word matches, and what a word is that the decoder accepts or rejects. -/

namespace Sys2Proof

/-! ## A row and the decoder -/

/-- The row's test stands between the encoder and the decoder on the word: a word that matches it is the word of a term with
the row's mnemonic, and a word that the decoder accepts matches it. -/
def TableRow.Agrees (row : TableRow) (w : Reg32) : Prop :=
  (row.covers w = true → ∃ i : Instr, i.mnemonic = row.mnemonic ∧ encode i = w) ∧
    ∀ i, decode w = .ok i → row.covers w = true

namespace TableRow.Agrees

variable {w : Reg32} {row : TableRow}

theorem of_bounds {bs : List Bound} {P : Prop} (hrow : row.hasBounds bs = true) (hop : bits w 31 24 = row.opcode)
    (hbs : (∀ b ∈ bs, b.holds w) ↔ P) (hword : P → ∃ i : Instr, i.mnemonic = row.mnemonic ∧ encode i = w)
    (hread : ∀ i, decode w = .ok i → P) : row.Agrees w :=
  ⟨fun hc => hword (hbs.mp ((row.covers_iff hrow w).mp hc).2),
    fun i hi => (row.covers_iff hrow w).mpr ⟨hop, hbs.mpr (hread i hi)⟩⟩

/-! One lemma for each format the decoder reads. -/

theorem of_decodeF3 {mk : FieldSel → Fin 16 → Fin 16 → Fin 16 → Instr} (hop : bits w 31 24 = row.opcode)
    (hdec : decode w = decodeF3 w mk) (hrow : row.hasBounds (boundsR 2 16 16 16) = true)
    (hmk : ∀ fs rd ra rb, (mk fs rd ra rb).mnemonic = row.mnemonic ∧
      encode (mk fs rd ra rb) = encodeR row.opcode (fsBit fs) rd ra rb) : row.Agrees w := by
  refine of_bounds hrow hop boundsR_hold_iff (fun ⟨_, h22, hd, ha, hb, h4⟩ => ?_) fun i hi => ?_
  · refine ⟨mk (fsField w) ⟨_, hd⟩ ⟨_, ha⟩ ⟨_, hb⟩, (hmk _ _ _ _).1, ?_⟩
    rw [(hmk _ _ _ _).2, fsBit_fsField, ← hop, encodeR_bits h22 h4]
  · simp only [hdec, decodeF3, decodeFieldR, bind_eq_ok, mbz_eq_ok, regField_eq_ok] at hi
    obtain ⟨-, h22, -, h4, rd, hd, ra, ha, rb, hb, -⟩ := hi
    exact ⟨bits_lt, h22, hd ▸ rd.isLt, ha ▸ ra.isLt, hb ▸ rb.isLt, h4⟩

theorem of_decodeF2 {mk : FieldSel → Fin 16 → Fin 16 → Instr} (hop : bits w 31 24 = row.opcode)
    (hdec : decode w = decodeF2 w mk) (hrow : row.hasBounds (boundsR 2 16 16 1) = true)
    (hmk : ∀ fs rd ra, (mk fs rd ra).mnemonic = row.mnemonic ∧
      encode (mk fs rd ra) = encodeR row.opcode (fsBit fs) rd ra 0) : row.Agrees w := by
  refine of_bounds hrow hop boundsR_hold_iff (fun ⟨_, h22, hd, ha, hb, h4⟩ => ?_) fun i hi => ?_
  · refine ⟨mk (fsField w) ⟨_, hd⟩ ⟨_, ha⟩, (hmk _ _ _).1, ?_⟩
    rw [(hmk _ _ _).2, fsBit_fsField, ← hop, ← Nat.lt_one_iff.mp hb, encodeR_bits h22 h4]
  · simp only [hdec, decodeF2, decodeFieldR, bind_eq_ok, mbz_eq_ok, regField_eq_ok] at hi
    obtain ⟨-, h22, -, h4, -, hb, rd, hd, ra, ha, -⟩ := hi
    exact ⟨bits_lt, h22, hd ▸ rd.isLt, ha ▸ ra.isLt, Nat.lt_one_iff.mpr hb, h4⟩

theorem of_decodeR3 {nd na nb : Nat} {mk : Fin nd → Fin na → Fin nb → Instr} (hop : bits w 31 24 = row.opcode)
    (hdec : decode w = decodeR3 w nd na nb mk) (hrow : row.hasBounds (boundsR 1 nd na nb) = true)
    (hmk : ∀ rd ra rb, (mk rd ra rb).mnemonic = row.mnemonic ∧
      encode (mk rd ra rb) = encodeR row.opcode 0 rd ra rb) : row.Agrees w := by
  refine of_bounds hrow hop boundsR_hold_iff (fun ⟨h23, h22, hd, ha, hb, h4⟩ => ?_) fun i hi => ?_
  · refine ⟨mk ⟨_, hd⟩ ⟨_, ha⟩ ⟨_, hb⟩, (hmk _ _ _).1, ?_⟩
    rw [(hmk _ _ _).2, ← hop, ← Nat.lt_one_iff.mp h23, encodeR_bits h22 h4]
  · simp only [hdec, decodeR3, decodeR, bind_eq_ok, mbz_eq_ok, regField_eq_ok, bits_23_20_eq_zero_iff] at hi
    obtain ⟨-, ⟨h23, h22⟩, -, h4, rd, hd, ra, ha, rb, hb, -⟩ := hi
    exact ⟨h23, h22, hd ▸ rd.isLt, ha ▸ ra.isLt, hb ▸ rb.isLt, h4⟩

theorem of_decodeFieldM {mk : FieldSel → Fin 16 → BitVec 15 → Instr} (hop : bits w 31 24 = row.opcode)
    (hdec : decode w = decodeFieldM w mk) (hrow : row.hasBounds (boundsM 2 16) = true)
    (hmk : ∀ fs rt addr, (mk fs rt addr).mnemonic = row.mnemonic ∧
      encode (mk fs rt addr) = encodeM row.opcode (fsBit fs) rt addr.toNat) : row.Agrees w := by
  refine of_bounds hrow hop boundsM_hold_iff (fun ⟨_, h22, ht⟩ => ?_) fun i hi => ?_
  · refine ⟨mk (fsField w) ⟨_, ht⟩ (addrField w), (hmk _ _ _).1, ?_⟩
    rw [(hmk _ _ _).2, fsBit_fsField, addrField_toNat, ← hop, encodeM_bits h22]
  · simp only [hdec, decodeFieldM, bind_eq_ok, mbz_eq_ok, regField_eq_ok] at hi
    obtain ⟨-, h22, rt, ht, -⟩ := hi
    exact ⟨bits_lt, h22, ht ▸ rt.isLt⟩

theorem of_decodeM {n : Nat} {mk : Fin n → BitVec 15 → Instr} (hop : bits w 31 24 = row.opcode)
    (hdec : decode w = decodeM w n mk) (hrow : row.hasBounds (boundsM 1 n) = true)
    (hmk : ∀ rt addr, (mk rt addr).mnemonic = row.mnemonic ∧
      encode (mk rt addr) = encodeM row.opcode 0 rt addr.toNat) : row.Agrees w := by
  refine of_bounds hrow hop boundsM_hold_iff (fun ⟨h23, h22, ht⟩ => ?_) fun i hi => ?_
  · refine ⟨mk ⟨_, ht⟩ (addrField w), (hmk _ _).1, ?_⟩
    have hw := encodeM_bits h22
    rw [Nat.lt_one_iff.mp h23] at hw
    rw [(hmk _ _).2, addrField_toNat, ← hop, hw]
  · simp only [hdec, decodeM, bind_eq_ok, mbz_eq_ok, regField_eq_ok, bits_23_20_eq_zero_iff] at hi
    obtain ⟨-, ⟨h23, h22⟩, rt, ht, -⟩ := hi
    exact ⟨h23, h22, ht ▸ rt.isLt⟩

theorem of_decodeAddr {mk : BitVec 15 → Instr} (hop : bits w 31 24 = row.opcode)
    (hdec : decode w = decodeAddr w mk) (hrow : row.hasBounds (boundsM 1 1) = true)
    (hmk : ∀ addr, (mk addr).mnemonic = row.mnemonic ∧ encode (mk addr) = encodeM row.opcode 0 0 addr.toNat) :
    row.Agrees w := by
  refine of_bounds hrow hop boundsM_hold_iff (fun ⟨h23, h22, ht⟩ => ?_) fun i hi => ?_
  · refine ⟨mk (addrField w), (hmk _).1, ?_⟩
    have hw := encodeM_bits h22
    rw [Nat.lt_one_iff.mp h23, Nat.lt_one_iff.mp ht] at hw
    rw [(hmk _).2, addrField_toNat, ← hop, hw]
  · simp only [hdec, decodeAddr, bind_eq_ok, mbz_eq_ok, bits_23_15_eq_zero_iff] at hi
    obtain ⟨-, hb, -⟩ := hi
    exact hb

theorem of_decodeNone {j : Instr} (hop : bits w 31 24 = row.opcode) (hdec : decode w = decodeNone w j)
    (hrow : row.hasBounds (boundsS 1) = true) (hj : j.mnemonic = row.mnemonic ∧ encode j = encodeS row.opcode 0) :
    row.Agrees w := by
  refine of_bounds hrow hop boundsS_hold_iff (fun ⟨h23, h4⟩ => ?_) fun i hi => ?_
  · refine ⟨j, hj.1, ?_⟩
    rw [hj.2, ← hop, ← Nat.lt_one_iff.mp h4, encodeS_bits h23]
  · simp only [hdec, decodeNone, bind_eq_ok, mbz_eq_ok, bits_23_0_eq_zero_iff] at hi
    obtain ⟨-, hb, -⟩ := hi
    exact hb

/-! The commands that share their way of decoding with no other. -/

theorem of_opcode_fisz (h : bits w 31 24 = 0x17) : Agrees ⟨"FISZ", 0x17000000#32, 0xFF7FC3FF#32⟩ w := by
  refine of_bounds (bs := boundsR 2 1 16 1) (by decide) h boundsR_hold_iff (fun ⟨_, h22, hd, ha, hb, h4⟩ => ?_)
    fun i hi => ?_
  · have hw := encodeR_bits h22 h4
    rw [h, Nat.lt_one_iff.mp hd, Nat.lt_one_iff.mp hb, ← fsBit_fsField] at hw
    exact ⟨.fisz (fsField w) ⟨_, ha⟩, rfl, hw⟩
  · simp only [decode_fisz h, decodeFieldR, bind_eq_ok, mbz_eq_ok, regField_eq_ok] at hi
    obtain ⟨-, h22, -, h4, -, hd, -, hb, ra, ha, -⟩ := hi
    exact ⟨bits_lt, h22, Nat.lt_one_iff.mpr hd, ha ▸ ra.isLt, Nat.lt_one_iff.mpr hb, h4⟩

theorem of_opcode_feq (h : bits w 31 24 = 0x18) : Agrees ⟨"FEQ", 0x18000000#32, 0xFF7FC21F#32⟩ w := by
  refine of_bounds (bs := boundsR 2 1 16 16) (by decide) h boundsR_hold_iff (fun ⟨_, h22, hd, ha, hb, h4⟩ => ?_)
    fun i hi => ?_
  · have hw := encodeR_bits h22 h4
    rw [h, Nat.lt_one_iff.mp hd, ← fsBit_fsField] at hw
    exact ⟨.feq (fsField w) ⟨_, ha⟩ ⟨_, hb⟩, rfl, hw⟩
  · simp only [decode_feq h, decodeFieldR, bind_eq_ok, mbz_eq_ok, regField_eq_ok] at hi
    obtain ⟨-, h22, -, h4, -, hd, ra, ha, rb, hb, -⟩ := hi
    exact ⟨bits_lt, h22, Nat.lt_one_iff.mpr hd, ha ▸ ra.isLt, hb ▸ rb.isLt, h4⟩

theorem of_opcode_miller (h : bits w 31 24 = 0x41) : Agrees ⟨"MILLER", 0x41000000#32, 0xFFFFE39F#32⟩ w := by
  refine of_bounds (bs := boundsR 1 1 8 4) (by decide) h boundsR_hold_iff (fun ⟨h23, h22, hd, ha, hb, h4⟩ => ?_)
    fun i hi => ?_
  · have hw := encodeR_bits h22 h4
    rw [h, Nat.lt_one_iff.mp h23, Nat.lt_one_iff.mp hd] at hw
    exact ⟨.miller ⟨_, ha⟩ ⟨_, hb⟩, rfl, hw⟩
  · simp only [decode_miller h, decodeR, bind_eq_ok, mbz_eq_ok, regField_eq_ok, bits_23_20_eq_zero_iff] at hi
    obtain ⟨-, ⟨h23, h22⟩, -, h4, -, hd, ra, ha, rb, hb, -⟩ := hi
    exact ⟨h23, h22, Nat.lt_one_iff.mpr hd, ha ▸ ra.isLt, hb ▸ rb.isLt, h4⟩

/-- The term need not be well formed: no mask expresses PPERM's test (30_encoding.md R101). -/
theorem of_opcode_pperm (h : bits w 31 24 = 0x50) : Agrees ⟨"PPERM", 0x50000000#32, 0xFFF843FF#32⟩ w := by
  refine of_bounds (bs := boundsR 1 16 16 1) (by decide) h boundsR_hold_iff (fun ⟨h23, h22, hd, ha, hb, h4⟩ => ?_)
    fun i hi => ?_
  · have hw := encodeR_bits h22 h4
    rw [h, Nat.lt_one_iff.mp h23, Nat.lt_one_iff.mp hb] at hw
    exact ⟨.pperm ⟨_, hd⟩ ⟨_, ha⟩, rfl, hw⟩
  · simp only [decode_pperm h, decodeR, bind_eq_ok, mbz_eq_ok, regField_eq_ok, bits_23_20_eq_zero_iff] at hi
    obtain ⟨-, ⟨h23, h22⟩, -, h4, -, hb, rd, hd, ra, ha, -⟩ := hi
    exact ⟨h23, h22, hd ▸ rd.isLt, ha ▸ ra.isLt, Nat.lt_one_iff.mpr hb, h4⟩

theorem of_opcode_verify (h : bits w 31 24 = 0x62) : Agrees ⟨"VERIFY", 0x62000000#32, 0xFF008000#32⟩ w := by
  refine of_bounds (bs := boundsV) (by decide) h boundsV_hold_iff (fun h15 => ?_) fun i hi => ?_
  · have hw := encodeV_bits h15
    rw [h, ← addrField_toNat, ← toNat_ofNat_bits (n := 8)] at hw
    exact ⟨.verify _ (addrField w), rfl, hw⟩
  · simp only [decode_verify h, bind_eq_ok, mbz_eq_ok] at hi
    obtain ⟨-, h15, -⟩ := hi
    exact h15

theorem of_opcode_wipe (h : bits w 31 24 = 0x70) : Agrees ⟨"WIPE", 0x70000000#32, 0xFFFFFFE0#32⟩ w := by
  refine of_bounds (bs := boundsS 32) (by decide) h boundsS_hold_iff (fun ⟨h23, _⟩ => ?_) fun i hi => ?_
  · have hw := encodeS_bits h23
    rw [h, ← toNat_ofNat_bits (n := 5)] at hw
    exact ⟨.wipe _, rfl, hw⟩
  · simp only [decode_wipe h, bind_eq_ok, mbz_eq_ok] at hi
    obtain ⟨-, h23, -⟩ := hi
    exact ⟨h23, bits_lt⟩

end TableRow.Agrees

/-! ## Every row -/

section

open TableRow.Agrees

variable {w : Reg32}

theorem fieldRows_agree : ∀ row ∈ fieldRows, bits w 31 24 = row.opcode → row.Agrees w := by
  simp only [fieldRows, List.forall_mem_cons]
  exact ⟨fun h => of_decodeNone h (decode_nop h) (by decide) ⟨rfl, rfl⟩,
    fun h => of_decodeF3 h (decode_fadd h) (by decide) fun _ _ _ _ => ⟨rfl, rfl⟩,
    fun h => of_decodeF3 h (decode_fsub h) (by decide) fun _ _ _ _ => ⟨rfl, rfl⟩,
    fun h => of_decodeF2 h (decode_fneg h) (by decide) fun _ _ _ => ⟨rfl, rfl⟩,
    fun h => of_decodeF3 h (decode_fmul h) (by decide) fun _ _ _ _ => ⟨rfl, rfl⟩,
    fun h => of_decodeF2 h (decode_fsqr h) (by decide) fun _ _ _ => ⟨rfl, rfl⟩,
    fun h => of_decodeF2 h (decode_finv h) (by decide) fun _ _ _ => ⟨rfl, rfl⟩,
    fun h => of_decodeF3 h (decode_fpow h) (by decide) fun _ _ _ _ => ⟨rfl, rfl⟩, of_opcode_fisz,
    of_opcode_feq, nofun⟩

theorem moveRows_agree : ∀ row ∈ moveRows, bits w 31 24 = row.opcode → row.Agrees w := by
  simp only [moveRows, List.forall_mem_cons]
  exact ⟨fun h => of_decodeFieldM h (decode_ldf h) (by decide) fun _ _ _ => ⟨rfl, rfl⟩,
    fun h => of_decodeFieldM h (decode_stf h) (by decide) fun _ _ _ => ⟨rfl, rfl⟩,
    fun h => of_decodeM h (decode_ldraw h) (by decide) fun _ _ => ⟨rfl, rfl⟩,
    fun h => of_decodeM h (decode_straw h) (by decide) fun _ _ => ⟨rfl, rfl⟩,
    fun h => of_decodeM h (decode_ldg1 h) (by decide) fun _ _ => ⟨rfl, rfl⟩,
    fun h => of_decodeM h (decode_stg1 h) (by decide) fun _ _ => ⟨rfl, rfl⟩,
    fun h => of_decodeM h (decode_ldg2 h) (by decide) fun _ _ => ⟨rfl, rfl⟩,
    fun h => of_decodeM h (decode_stg2 h) (by decide) fun _ _ => ⟨rfl, rfl⟩, nofun⟩

theorem curveRows_agree : ∀ row ∈ curveRows, bits w 31 24 = row.opcode → row.Agrees w := by
  simp only [curveRows, List.forall_mem_cons]
  exact ⟨fun h => of_decodeR3 h (decode_g1add h) (by decide) fun _ _ _ => ⟨rfl, rfl⟩,
    fun h => of_decodeR3 h (decode_g2add h) (by decide) fun _ _ _ => ⟨rfl, rfl⟩,
    fun h => of_decodeR3 h (decode_g1smul h) (by decide) fun _ _ _ => ⟨rfl, rfl⟩,
    fun h => of_decodeR3 h (decode_g2smul h) (by decide) fun _ _ _ => ⟨rfl, rfl⟩,
    fun h => of_decodeAddr h (decode_g1onc h) (by decide) fun _ => ⟨rfl, rfl⟩,
    fun h => of_decodeAddr h (decode_g1subg h) (by decide) fun _ => ⟨rfl, rfl⟩,
    fun h => of_decodeAddr h (decode_g2onc h) (by decide) fun _ => ⟨rfl, rfl⟩,
    fun h => of_decodeAddr h (decode_g2subg h) (by decide) fun _ => ⟨rfl, rfl⟩, nofun⟩

theorem pairingRows_agree : ∀ row ∈ pairingRows, bits w 31 24 = row.opcode → row.Agrees w := by
  simp only [pairingRows, List.forall_mem_cons]
  exact ⟨fun h => of_decodeNone h (decode_accone h) (by decide) ⟨rfl, rfl⟩, of_opcode_miller,
    fun h => of_decodeNone h (decode_fexp h) (by decide) ⟨rfl, rfl⟩, nofun⟩

theorem otherRows_agree : ∀ row ∈ otherRows, bits w 31 24 = row.opcode → row.Agrees w := by
  simp only [otherRows, List.forall_mem_cons]
  exact ⟨of_opcode_pperm, fun h => of_decodeR3 h (decode_phash h) (by decide) fun _ _ _ => ⟨rfl, rfl⟩,
    fun h => of_decodeAddr h (decode_vkload h) (by decide) fun _ => ⟨rfl, rfl⟩,
    fun h => of_decodeNone h (decode_vkclr h) (by decide) ⟨rfl, rfl⟩, of_opcode_verify, of_opcode_wipe, nofun⟩

theorem opcodeTable_agrees : ∀ row ∈ opcodeTable, bits w 31 24 = row.opcode → row.Agrees w := by
  simp only [opcodeTable, List.forall_mem_append]
  exact ⟨⟨⟨⟨fieldRows_agree, moveRows_agree⟩, curveRows_agree⟩, pairingRows_agree⟩, otherRows_agree⟩

/-! ## The opcodes of the table -/

/-- The 35 opcodes (30_encoding.md R95). -/
theorem opcodes_eq : opcodeTable.map TableRow.opcode =
    [0x00, 0x10, 0x11, 0x12, 0x13, 0x14, 0x15, 0x16, 0x17, 0x18, 0x20, 0x21, 0x22, 0x23, 0x24, 0x25, 0x26, 0x27,
      0x30, 0x31, 0x32, 0x33, 0x34, 0x35, 0x36, 0x37, 0x40, 0x41, 0x42, 0x50, 0x51, 0x60, 0x61, 0x62, 0x70] := rfl

/-- The decoder accepts no opcode but those of the table (30_encoding.md R97). -/
theorem opcode_mem_of_decode {i : Instr} (h : decode w = .ok i) : bits w 31 24 ∈ opcodeTable.map TableRow.opcode := by
  by_contra hn
  simp only [opcodes_eq, List.mem_cons, not_or] at hn
  simp [decode, decodeField, decodeMove, decodeCurve, decodePairingPoseidon, decodeGrothSystem, hn] at h

theorem maskBits_opcode : ∀ row ∈ opcodeTable, bits row.maskBits 31 24 = 2 ^ 8 - 1 := by decide

theorem opcode_of_covers {row : TableRow} (hrow : row ∈ opcodeTable) (h : row.covers w = true) :
    bits w 31 24 = row.opcode := by
  have hlt : bits w 31 24 < 2 ^ 8 := bits_lt
  rw [TableRow.opcode, ← of_decide_eq_true h, bits_and, maskBits_opcode row hrow, Nat.and_two_pow_sub_one_of_lt_two_pow hlt]

/-! ## The rows a word matches -/

/-- No two rows have one opcode, so no two match one word. -/
theorem length_coveringRows_le_one (w : Reg32) : (coveringRows w).length ≤ 1 := by
  have hnodup : ((coveringRows w).map TableRow.opcode).Nodup :=
    (List.filter_sublist.map _).nodup (by rw [opcodes_eq]; decide)
  have hsame : (coveringRows w).map TableRow.opcode = List.replicate (coveringRows w).length (bits w 31 24) := by
    refine List.eq_replicate_iff.mpr ⟨List.length_map _, List.forall_mem_map.mpr fun row hrow => ?_⟩
    obtain ⟨hmem, hc⟩ := List.mem_filter.mp hrow
    exact (opcode_of_covers hmem hc).symm
  exact List.nodup_replicate.mp (hsame ▸ hnodup)

/-- A row that a word matches is its only one, and the word is that of a term with the row's mnemonic. -/
theorem exists_word_of_mem_coveringRows {row : TableRow} (h : row ∈ coveringRows w) :
    ∃ i : Instr, encode i = w ∧ (coveringRows w).map TableRow.mnemonic = [i.mnemonic] := by
  obtain ⟨hmem, hc⟩ := List.mem_filter.mp h
  obtain ⟨i, hi, hw⟩ := (opcodeTable_agrees row hmem (opcode_of_covers hmem hc)).1 hc
  obtain ⟨r, hr⟩ := List.length_eq_one_iff.mp
    (le_antisymm (length_coveringRows_le_one w) (List.length_pos_of_mem h))
  obtain rfl : row = r := List.mem_singleton.mp (hr ▸ h)
  exact ⟨i, hw, by rw [hr, hi]; rfl⟩

/-- A word the decoder accepts matches a row. -/
theorem exists_mem_coveringRows_of_decode {i : Instr} (h : decode w = .ok i) : ∃ row, row ∈ coveringRows w := by
  obtain ⟨row, hmem, hop⟩ := List.mem_map.mp (opcode_mem_of_decode h)
  exact ⟨row, List.mem_filter.mpr ⟨hmem, (opcodeTable_agrees row hmem hop.symm).2 i h⟩⟩

end

/-! ## Terms that are not well formed -/

theorem eq_pperm_of_mnemonic {i : Instr} (h : i.mnemonic = "PPERM") : ∃ rd ra, i = .pperm rd ra := by
  cases i with
  | pperm rd ra => exact ⟨rd, ra, rfl⟩
  | _ => simp [Instr.mnemonic] at h

theorem eq_pperm_of_not_wellFormed {i : Instr} (h : i.wellFormed ≠ true) : ∃ rd ra, i = .pperm rd ra := by
  cases i with
  | pperm rd ra => exact ⟨rd, ra, rfl⟩
  | _ => exact absurd rfl h

/-- PPERM's test on the word is the check on the term (30_encoding.md R94, R101). -/
theorem ppermTest_encode (rd ra : Fin 16) :
    ppermTest (encode (.pperm rd ra)) = (Instr.pperm rd ra).wellFormed := by
  obtain ⟨-, -, -, -, h19, h14, -⟩ := bits_encodeR (opcode_lt (.pperm rd ra)) (by decide : 0 < 2)
    (show rd.val < 2 ^ 5 by omega) (show ra.val < 2 ^ 5 by omega) (by decide : 0 < 2 ^ 5)
  rw [ppermTest, encode, h19, h14, Bool.decide_and]
  rfl

theorem decode_encode_pperm_illFormed {rd ra : Fin 16} (h : (Instr.pperm rd ra).wellFormed ≠ true) :
    decode (encode (.pperm rd ra)) = .error .indexOutOfRange := by
  have hd : rd.val < 2 ^ 5 := by omega
  have ha : ra.val < 2 ^ 5 := by omega
  have h0 : 0 < 2 ^ 5 := by decide
  have hop := opcode_lt (.pperm rd ra)
  obtain ⟨-, -, -, -, h19, h14, h9, -⟩ := bits_encodeR hop (by decide : 0 < 2) hd ha h0
  rw [decode_pperm (Laws.OpcodeByte.pperm rd ra), encode, decodeR_encodeR _ hop hd ha h0, mbz_eq h9, regField_eq h19,
    regField_eq h14]
  exact if_neg h

/-- A term is read back from its word exactly where it is well formed. -/
theorem decode_encode_eq_ok {i j : Instr} (h : decode (encode i) = .ok j) : i.wellFormed = true ∧ i = j := by
  by_cases hwf : i.wellFormed = true
  · exact ⟨hwf, Except.ok.inj ((decode_encode hwf).symm.trans h)⟩
  · obtain ⟨rd, ra, rfl⟩ := eq_pperm_of_not_wellFormed hwf
    rw [decode_encode_pperm_illFormed hwf] at h
    cases h

/-- What an accepted word is: the word of a well-formed command, which names its only row. -/
theorem word_of_decode {w : Reg32} {i : Instr} (h : decode w = .ok i) :
    i.wellFormed = true ∧ encode i = w ∧ (coveringRows w).map TableRow.mnemonic = [i.mnemonic] := by
  obtain ⟨row, hrow⟩ := exists_mem_coveringRows_of_decode h
  obtain ⟨j, rfl, hm⟩ := exists_word_of_mem_coveringRows hrow
  obtain ⟨hwf, rfl⟩ := decode_encode_eq_ok h
  exact ⟨hwf, rfl, hm⟩

theorem ppermTest_of_decode {w : Reg32} {i : Instr} (h : decode w = .ok i) (hm : i.mnemonic = "PPERM") :
    ppermTest w = true := by
  obtain ⟨hwf, rfl, -⟩ := word_of_decode h
  obtain ⟨rd, ra, rfl⟩ := eq_pperm_of_mnemonic hm
  rw [ppermTest_encode, hwf]

/-- A row that an illegal word matches is PPERM's, and the word fails its test. -/
theorem illegal_of_decode_error {w : Reg32} {e : DecodeError} (h : decode w = .error e) :
    coveringRows w = [] ∨ ((coveringRows w).map TableRow.mnemonic = ["PPERM"] ∧ ppermTest w = false) := by
  refine or_iff_not_imp_left.mpr fun hne => ?_
  obtain ⟨row, hrow⟩ := List.exists_mem_of_ne_nil _ hne
  obtain ⟨i, rfl, hm⟩ := exists_word_of_mem_coveringRows hrow
  have hwf : i.wellFormed ≠ true := fun hwf => by rw [decode_encode hwf] at h; cases h
  obtain ⟨rd, ra, rfl⟩ := eq_pperm_of_not_wellFormed hwf
  exact ⟨hm, by rw [ppermTest_encode, Bool.eq_false_of_not_eq_true hwf]⟩

/-- The converse of `illegal_of_decode_error`. -/
theorem decode_error_of_illegal {w : Reg32}
    (h : coveringRows w = [] ∨ ((coveringRows w).map TableRow.mnemonic = ["PPERM"] ∧ ppermTest w = false)) :
    ∃ e, decode w = .error e := by
  cases hd : decode w with
  | error e => exact ⟨e, rfl⟩
  | ok i =>
    obtain ⟨-, -, hm⟩ := word_of_decode hd
    rcases h with h | ⟨hp, ht⟩
    · rw [h] at hm; cases hm
    · have hi : i.mnemonic = "PPERM" := List.singleton_inj.mp (hm.symm.trans hp)
      rw [ppermTest_of_decode hd hi] at ht
      cases ht

end Sys2Proof
end

section
/-! The obligations of the encoding (30_encoding.md). -/

open Sys2Proof Sys2Proof.Machine

/-- Settles O1, format by format, in `decode_encode`. -/
theorem encodedCommandsDecode : Obligations.EncodedCommandsDecode :=
  fun _ h => decode_encode h

/-- Settles O2: an accepted word matches a row, and so is some term's word, which decodes to no other term. -/
theorem decodedWordsEncode : Obligations.DecodedWordsEncode := by
  intro w i h
  obtain ⟨hwf, hw, -⟩ := word_of_decode h
  exact ⟨hwf, hw⟩

/-- Settles O3: the rows' opcodes differ, and on one opcode the row agrees with the decoder. -/
theorem tableRowsDecideTheCommand : Obligations.TableRowsDecideTheCommand := by
  refine ⟨length_coveringRows_le_one, fun w i h => ?_, fun w e h => illegal_of_decode_error h⟩
  obtain ⟨-, -, hm⟩ := word_of_decode h
  exact ⟨hm, ppermTest_of_decode h⟩

/-- Settles O5: such a word does not decode, and a row's opcode lies in none of the unused ranges. -/
theorem illegalWordsRaiseIllegalCommand : Obligations.IllegalWordsRaiseIllegalCommand := by
  refine ⟨fun s w h => ?_, fun w h => List.eq_nil_iff_forall_not_mem.mpr fun row hrow => ?_⟩
  · obtain ⟨e, he⟩ := decode_error_of_illegal h
    exact completeStep_illegal (s := { s with cmd := w }) he
  · obtain ⟨hmem, hc⟩ := List.mem_filter.mp hrow
    have hop : row.opcode ∈ opcodeTable.map TableRow.opcode := List.mem_map_of_mem hmem
    rw [← opcode_of_covers hmem hc, opcodes_eq] at hop
    simp only [List.mem_cons, List.not_mem_nil, or_false] at hop
    omega

/-- Settles O4: each word is the encoding of its command, which the decoder reads back. -/
theorem writtenOutWordsDecode : Obligations.WrittenOutWordsDecode :=
  ⟨decode_encode (i := .fmul .base 3 1 2) rfl, decode_encode (i := .fmul .scalar 3 1 2) rfl,
    decode_encode (i := .ldf .scalar 1 0x040#15) rfl, decode_encode (i := .ldg2 1 0x100#15) rfl,
    decode_encode (i := .g1smul 2 0 5) rfl, decode_encode (i := .miller 3 1) rfl,
    decode_encode (i := .verify 2#8 0x300#15) rfl, decode_encode (i := .wipe 0x1f#5) rfl,
    decode_encode (i := .nop) rfl⟩

end

section
/-! SUPPORT. The Montgomery forms as elements of `ZMod p` (40_field.md R121, R122): each conversion and product is one
multiplication there, so that what a field command does to forms is told by an equation in `ZMod p`. -/

namespace Sys2Proof.Machine

theorem modulus_prime (fs : FieldSel) : (modulus fs).Prime := by
  cases fs with
  | base => exact q_prime
  | scalar => exact r_prime

/-! ## Residues -/

/-- One subtraction reduces a number below `2 * p`. -/
theorem mod_eq_of_lt_twice {p n : Nat} (h : n < 2 * p) : n % p = if p ≤ n then n - p else n := by
  split
  · next hp => rw [Nat.mod_eq_sub_mod hp, Nat.mod_eq_of_lt (by omega)]
  · next hp => exact Nat.mod_eq_of_lt (Nat.lt_of_not_le hp)

theorem addMod_lt {p : Nat} (hp : 0 < p) (a b : Nat) : addMod p a b < p := Nat.mod_lt _ hp

/-- FADD's two cases (40_field.md R123). -/
theorem addMod_eq {p : Nat} (ha : a < p) (hb : b < p) : addMod p a b = if a + b < p then a + b else a + b - p := by
  rw [addMod, mod_eq_of_lt_twice (by omega)]
  split <;> split <;> omega

/-- A residue is the remainder of any number it equals in `ZMod p`. -/
theorem eq_mod_of_cast_eq {p x y : Nat} (hx : x < p) (h : (x : ZMod p) = y) : x = y % p := by
  rw [← (ZMod.natCast_eq_natCast_iff' x y p).mp h, Nat.mod_eq_of_lt hx]

/-- The power `p - 2` inverts, by Fermat's little theorem (40_field.md R128). -/
theorem pow_sub_two_mul_self {p v : Nat} (hp : p.Prime) (hv : v < p) (h0 : v ≠ 0) : v ^ (p - 2) % p * v % p = 1 := by
  have : Fact p.Prime := ⟨hp⟩
  have hne : (v : ZMod p) ≠ 0 := by
    rw [Ne, ZMod.natCast_eq_zero_iff]
    exact Nat.not_dvd_of_pos_of_lt (Nat.pos_of_ne_zero h0) hv
  refine (eq_mod_of_cast_eq hp.one_lt ?_).symm
  rw [Nat.cast_mul, cast_mod, Nat.cast_pow, ← pow_succ, show p - 2 + 1 = p - 1 by have := hp.two_le; omega,
    ZMod.pow_card_sub_one_eq_one hne, Nat.cast_one]

/-! ## The radix, and the forms in `ZMod p` -/

theorem cast_radix_mul_rInv (fs : FieldSel) : (Config.radix : ZMod (modulus fs)) * rInv fs = 1 := by
  rw [← Nat.cast_mul, ← Nat.cast_one, ZMod.natCast_eq_natCast_iff', radix_mul_rInv, Nat.mod_eq_of_lt (modulus_pos fs)]

/-- The radix can be cancelled modulo either prime. -/
theorem modEq_of_mul_radix {fs : FieldSel} {x y : Nat}
    (h : x * Config.radix ≡ y * Config.radix [MOD modulus fs]) : x ≡ y [MOD modulus fs] :=
  h.cancel_right_of_coprime (Nat.Coprime.symm (Nat.coprime_of_mul_modEq_one (rInv fs) (by
    rw [Nat.ModEq, radix_mul_rInv, Nat.mod_eq_of_lt (modulus_pos fs)])))

@[simp] theorem cast_toMont (fs : FieldSel) (v : Nat) : (toMont fs v : ZMod (modulus fs)) = v * Config.radix := by
  rw [toMont, cast_mod, Nat.cast_mul]

@[simp] theorem cast_fromMont (fs : FieldSel) (a : Nat) : (fromMont fs a : ZMod (modulus fs)) = a * rInv fs := by
  rw [fromMont, cast_mod, Nat.cast_mul]

@[simp] theorem cast_montMul (fs : FieldSel) (a b : Nat) :
    (montMul fs a b : ZMod (modulus fs)) = a * b * rInv fs := by
  rw [montMul, cast_mod, Nat.cast_mul, Nat.cast_mul]

/-! ## Conversions (40_field.md R122) -/

theorem toMont_zero (fs : FieldSel) : toMont fs 0 = 0 := by simp [toMont]

theorem toMont_one (fs : FieldSel) : toMont fs 1 = 2 ^ 256 % modulus fs := by
  rw [toMont, Nat.one_mul, Config.radix]

theorem fromMont_zero (fs : FieldSel) : fromMont fs 0 = 0 := by simp [fromMont]

/-- Reduced forms are equal when the elements are (40_field.md R131). -/
theorem eq_iff_fromMont_eq {fs : FieldSel} {a b : Nat} (ha : a < modulus fs) (hb : b < modulus fs) :
    a = b ↔ fromMont fs a = fromMont fs b := by
  refine ⟨congrArg _, fun h => ?_⟩
  rw [← toMont_fromMont ha, h, toMont_fromMont hb]

/-- Zero is the only element whose form is 0 (40_field.md R130). -/
theorem eq_zero_iff_fromMont_eq_zero {fs : FieldSel} {a : Nat} (ha : a < modulus fs) :
    a = 0 ↔ fromMont fs a = 0 := by
  simpa only [fromMont_zero] using eq_iff_fromMont_eq ha (ha.trans_le' (Nat.zero_le a))

theorem toMont_eq_montMul (fs : FieldSel) (v : Nat) :
    toMont fs v = montMul fs v (2 ^ 256 * 2 ^ 256 % modulus fs) := by
  have hR := cast_radix_mul_rInv fs
  refine eq_of_cast_eq (toMont_lt fs v) (montMul_lt fs v _) ?_
  rw [cast_toMont, cast_montMul, cast_mod, Nat.cast_mul, ← Config.radix]
  linear_combination -(v * Config.radix : ZMod (modulus fs)) * hR

theorem fromMont_eq_montMul (fs : FieldSel) (a : Nat) : fromMont fs a = montMul fs a 1 := by
  rw [fromMont, montMul, Nat.mul_one]

/-! ## What an operation on forms does to the elements -/

section

variable {fs : FieldSel} {a b : Nat}

theorem fromMont_addMod : fromMont fs (addMod (modulus fs) a b) = (fromMont fs a + fromMont fs b) % modulus fs := by
  refine eq_mod_of_cast_eq (fromMont_lt _ _) ?_
  simp only [cast_fromMont, cast_addMod, Nat.cast_add]
  ring

theorem fromMont_subMod :
    (fromMont fs (subMod (modulus fs) a b) + fromMont fs b) % modulus fs = fromMont fs a := by
  refine (eq_mod_of_cast_eq (fromMont_lt _ _) ?_).symm
  simp only [cast_fromMont, cast_subMod (modulus_prime fs).pos, Nat.cast_add]
  ring

theorem fromMont_negMod : (fromMont fs (negMod (modulus fs) a) + fromMont fs a) % modulus fs = 0 := by
  refine (eq_mod_of_cast_eq (modulus_prime fs).pos ?_).symm
  simp only [cast_fromMont, cast_negMod (modulus_prime fs).pos, Nat.cast_add, Nat.cast_zero]
  ring

/-- The Montgomery product of two forms is the form of the product (40_field.md R126). -/
theorem fromMont_montMul : fromMont fs (montMul fs a b) = fromMont fs a * fromMont fs b % modulus fs := by
  refine eq_mod_of_cast_eq (fromMont_lt _ _) ?_
  simp only [cast_fromMont, cast_montMul, Nat.cast_mul]
  ring

/-- The raw product of two forms is `R^2` times the product of the elements. -/
theorem mul_mod_of_fromMont (h : fromMont fs a * fromMont fs b % modulus fs = 1) :
    a * b % modulus fs = 2 ^ 256 * 2 ^ 256 % modulus fs := by
  have hR := cast_radix_mul_rInv fs
  have h1 : (a * rInv fs * (b * rInv fs) : ZMod (modulus fs)) = 1 := by
    rw [← cast_fromMont, ← cast_fromMont, ← Nat.cast_mul, ← cast_mod, h, Nat.cast_one]
  rw [← ZMod.natCast_eq_natCast_iff', ← Config.radix, Nat.cast_mul, Nat.cast_mul]
  linear_combination (Config.radix * Config.radix : ZMod (modulus fs)) * h1 -
    (a * b * (Config.radix * rInv fs + 1) : ZMod (modulus fs)) * hR

end

/-! ## The words that field commands write -/

theorem toNat_wordOf_lt {fs : FieldSel} {n : Nat} (h : n < modulus fs) : (wordOf n).toNat = n :=
  toNat_wordOf (h.trans (modulus_lt_radix fs))

theorem canonWord_wordOf {fs : FieldSel} {n : Nat} (h : n < modulus fs) : canonWord fs (wordOf n) = fromMont fs n := by
  rw [canonWord, toNat_wordOf_lt h]

/-- The form of a power (40_field.md R129). -/
theorem canonWord_montWord_powMod (fs : FieldSel) (v e : Nat) :
    canonWord fs (montWord fs (powMod (modulus fs) v e)) = v ^ e % modulus fs := by
  rw [powMod_eq (modulus_pos fs), canonWord_montWord (Nat.mod_lt _ (modulus_prime fs).pos)]

/-- A positive power of zero is the zero word. -/
theorem montWord_powMod_zero (fs : FieldSel) {e : Nat} (he : e ≠ 0) :
    montWord fs (powMod (modulus fs) (fromMont fs 0) e) = 0#256 := by
  rw [powMod_eq (modulus_pos fs), fromMont_zero, Nat.zero_pow (Nat.pos_of_ne_zero he), Nat.zero_mod, montWord_zero]
  rfl

end Sys2Proof.Machine
end

section
/-! SUPPORT. Each field command: its word as a number (30_encoding.md R91), and its meaning as an operand form applied to an
ending (40_field.md R123 to R131). -/

namespace Sys2Proof

/-- The word of format R as a number (30_encoding.md R91). -/
theorem toNat_encodeR {op fs rd ra rb : Nat} (hop : op < 2 ^ 8) (hfs : fs < 2) (hd : rd < 2 ^ 5) (ha : ra < 2 ^ 5)
    (hb : rb < 2 ^ 5) :
    (encodeR op fs rd ra rb).toNat = op * 2 ^ 24 + fs * 2 ^ 23 + rd * 2 ^ 15 + ra * 2 ^ 10 + rb * 2 ^ 5 := by
  rw [encodeR, BitVec.toNat_ofNat]
  omega

/-- The same for a command that does not use `rb`. -/
theorem toNat_encodeR_zero {op fs rd ra : Nat} (hop : op < 2 ^ 8) (hfs : fs < 2) (hd : rd < 2 ^ 5) (ha : ra < 2 ^ 5) :
    (encodeR op fs rd ra 0).toNat = op * 2 ^ 24 + fs * 2 ^ 23 + rd * 2 ^ 15 + ra * 2 ^ 10 := by
  rw [toNat_encodeR hop hfs hd ha (by decide), Nat.zero_mul, Nat.add_zero]

end Sys2Proof

namespace Sys2Proof.Machine

/-- Two field operands, either of them out of range (40_field.md R120). -/
theorem withElements_outOfRange {fs : FieldSel} {i j : Fin 16} {s : State} {use : Nat → Nat → Result}
    (h : modulus fs ≤ s.raw i ∨ modulus fs ≤ s.raw j) :
    withElements fs i j s use = .next (failed .outOfRange s) := by
  rcases withElements_cases fs i j s use with ⟨hi, hj, -⟩ | ⟨-, h'⟩
  · omega
  · exact h'

variable (fs : FieldSel) (rd ra rb : Fin 16) (s : State)

theorem exec_fadd : exec (.fadd fs rd ra rb) s = withElements fs ra rb s fun a b =>
    .next (completed (s.setF rd (wordOf (addMod (modulus fs) a b)))) := rfl

theorem exec_fsub : exec (.fsub fs rd ra rb) s = withElements fs ra rb s fun a b =>
    .next (completed (s.setF rd (wordOf (subMod (modulus fs) a b)))) := rfl

theorem exec_fneg : exec (.fneg fs rd ra) s = withElement fs ra s fun a =>
    .next (completed (s.setF rd (wordOf (negMod (modulus fs) a)))) := rfl

theorem exec_fmul : exec (.fmul fs rd ra rb) s = withElements fs ra rb s fun a b =>
    .next (completed (s.setF rd (wordOf (montMul fs a b)))) := rfl

theorem exec_fsqr : exec (.fsqr fs rd ra) s = withElement fs ra s fun a =>
    .next (completed (s.setF rd (wordOf (montMul fs a a)))) := rfl

theorem exec_finv : exec (.finv fs rd ra) s = withElement fs ra s fun a =>
    .next (completed { s.setF rd (montWord fs (powMod (modulus fs) (fromMont fs a) (modulus fs - 2))) with
      t := !decide (a = 0) }) := rfl

theorem exec_fpow : exec (.fpow fs rd ra rb) s = withElement fs ra s fun a =>
    .next (completed (s.setF rd (montWord fs (powMod (modulus fs) (fromMont fs a) (s.raw rb))))) := rfl

theorem exec_fisz : exec (.fisz fs ra) s = withElement fs ra s fun a =>
    .next (completed { s with t := decide (a = 0) }) := rfl

theorem exec_feq : exec (.feq fs ra rb) s = withElements fs ra rb s fun a b =>
    .next (completed { s with t := decide (a = b) }) := rfl

/-- FSQR is FMUL with both sources `ra`, also where the operand is out of range (40_field.md R127). -/
theorem exec_fsqr_eq_fmul : exec (.fsqr fs rd ra) s = exec (.fmul fs rd ra ra) s := by
  rw [exec_fsqr, exec_fmul]
  rcases Nat.lt_or_ge (s.raw ra) (modulus fs) with ha | ha
  · rw [withElement_inRange ha, withElements_inRange ha ha]
  · rw [withElement_outOfRange ha, withElements_outOfRange (.inl ha)]

end Sys2Proof.Machine
end

section
/-! SUPPORT. The limb-interleaved multiplication (40_field.md R121): what each half of a turn does to the number that the
working limbs spell, and the invariant that the four turns keep. -/

namespace Sys2Proof.Machine

theorem limb_pow_four : limb ^ 4 = Config.radix := by decide

theorem limbOf_lt (n i : Nat) : limbOf n i < limb := Nat.mod_lt _ (by decide)

/-- A number below `R` is spelled by its four limbs. -/
theorem value_limbs {n : Nat} (hn : n < Config.radix) :
    (CiosState.mk (limbOf n 0) (limbOf n 1) (limbOf n 2) (limbOf n 3) 0 0).value = n := by
  simp only [CiosState.value, limbOf, limb, Config.radix] at *
  omega

/-- The bits of `n` below limb `i + 1` are those below limb `i` and limb `i`. -/
theorem mod_limb_pow_succ (n i : Nat) : n % limb ^ (i + 1) = n % limb ^ i + limb ^ i * limbOf n i := by
  rw [pow_succ, Nat.mod_mul, limbOf]

/-! ## The two halves of a turn -/

/-- The first half adds `a * b[i]`, with the carry in the sixth limb. -/
theorem ciosAdd_value {a : Nat} (ha : a < Config.radix) (bi : Nat) (t : CiosState) :
    (ciosAdd a bi t).value + (ciosAdd a bi t).t5 * limb ^ 5 = t.value + a * bi := by
  have hrow : a * bi = limbOf a 0 * bi + limbOf a 1 * bi * limb + limbOf a 2 * bi * limb ^ 2 +
      limbOf a 3 * bi * limb ^ 3 := by
    conv_lhs => rw [← value_limbs ha, CiosState.value]
    ring
  rw [hrow]
  simp only [ciosAdd, CiosState.value, limb]
  omega

/-- The multiplier `m` of the reduction. -/
def ciosMultiplier (fs : FieldSel) (t : CiosState) : Nat := t.t0 * pinv fs % limb

/-- The reduction is the addition of `m * p`, with the limbs moved down by one. -/
theorem ciosReduce_eq (fs : FieldSel) (t : CiosState) :
    ciosReduce fs t =
      let u := ciosAdd (modulus fs) (ciosMultiplier fs t) t
      ⟨u.t1, u.t2, u.t3, u.t4, t.t5 + u.t5, t.t5⟩ := by
  simp only [ciosReduce, ciosAdd, ciosMultiplier, Nat.mul_comm]

/-- `pinv` is `-p^-1` modulo the limb (40_field.md R121). -/
theorem limb_dvd_pinv (fs : FieldSel) : limb ∣ 1 + limbOf (modulus fs) 0 * pinv fs := by cases fs <;> decide

/-- The multiplier makes the lowest limb zero. -/
theorem ciosAdd_multiplier_t0 (fs : FieldSel) (t : CiosState) :
    (ciosAdd (modulus fs) (ciosMultiplier fs t) t).t0 = 0 := by
  have h : (t.t0 + limbOf (modulus fs) 0 * (t.t0 * pinv fs % limb)) % limb =
      t.t0 * (1 + limbOf (modulus fs) 0 * pinv fs) % limb := by
    rw [Nat.add_mod, Nat.mul_mod_mod, ← Nat.add_mod]
    congr 1
    ring
  exact h.trans (Nat.mod_eq_zero_of_dvd ((limb_dvd_pinv fs).mul_left _))

/-- The reduction adds `m * p` and divides by the limb, exactly. -/
theorem ciosReduce_value (fs : FieldSel) (t : CiosState) :
    (ciosReduce fs t).value * limb = t.value + t.t5 * limb ^ 5 + modulus fs * ciosMultiplier fs t := by
  have hsum := ciosAdd_value (modulus_lt_radix fs) (ciosMultiplier fs t) t
  have hzero := ciosAdd_multiplier_t0 fs t
  rw [ciosReduce_eq]
  simp only [CiosState.value] at hsum ⊢
  rw [hzero] at hsum
  linarith

/-! ## The turns -/

/-- One turn divides `t + a * b[i] + m * p` by the limb, exactly. -/
theorem ciosTurn_value (fs : FieldSel) {a : Nat} (ha : a < Config.radix) (b i : Nat) (t : CiosState) :
    ∃ m < limb, (ciosTurn fs a b i t).value * limb = t.value + a * limbOf b i + modulus fs * m :=
  ⟨ciosMultiplier fs (ciosAdd a (limbOf b i) t), Nat.mod_lt _ (by decide), by
    rw [ciosTurn, ciosReduce_value, ciosAdd_value ha]⟩

/-- After `i` turns the limbs spell a number below `2 * p` that is congruent to `a` times the low `i` limbs of `b`, divided by
the limb `i` times. -/
structure CiosInvariant (fs : FieldSel) (a b i : Nat) (t : CiosState) : Prop where
  congr : t.value * limb ^ i ≡ a * (b % limb ^ i) [MOD modulus fs]
  lt : t.value < 2 * modulus fs

namespace CiosInvariant

variable {fs : FieldSel} {a b i : Nat} {t : CiosState}

theorem start (fs : FieldSel) (a b : Nat) : CiosInvariant fs a b 0 ⟨0, 0, 0, 0, 0, 0⟩ where
  congr := by simp [CiosState.value, Nat.mod_one, Nat.ModEq.refl]
  lt := by have := modulus_pos fs; simp only [CiosState.value]; omega

theorem turn (h : CiosInvariant fs a b i t) (ha : a < modulus fs) :
    CiosInvariant fs a b (i + 1) (ciosTurn fs a b i t) := by
  obtain ⟨m, hm, hv⟩ := ciosTurn_value fs (ha.trans (modulus_lt_radix fs)) b i t
  constructor
  · calc (ciosTurn fs a b i t).value * limb ^ (i + 1)
        = t.value * limb ^ i + a * limbOf b i * limb ^ i + modulus fs * (m * limb ^ i) := by
          rw [pow_succ', ← Nat.mul_assoc, hv]; ring
      _ ≡ t.value * limb ^ i + a * limbOf b i * limb ^ i [MOD modulus fs] := Nat.add_mul_mod_self_left _ _ _
      _ ≡ a * (b % limb ^ i) + a * limbOf b i * limb ^ i [MOD modulus fs] := h.congr.add_right _
      _ = a * (b % limb ^ (i + 1)) := by rw [mod_limb_pow_succ]; ring
  · have hlt := h.lt
    have hb : a * limbOf b i ≤ modulus fs * (limb - 1) :=
      Nat.mul_le_mul ha.le (Nat.le_sub_one_of_lt (limbOf_lt b i))
    have hp : modulus fs * m ≤ modulus fs * (limb - 1) := Nat.mul_le_mul_left _ (Nat.le_sub_one_of_lt hm)
    simp only [limb] at hv hb hp
    omega

end CiosInvariant

/-! ## The result -/

/-- The limbs end at a number below `2 * p` congruent to the product, which one subtraction reduces. -/
theorem cios_eq_montMul {fs : FieldSel} {a b : Nat} (ha : a < modulus fs) (hb : b < modulus fs) :
    cios fs a b = montMul fs a b := by
  have h := ((((CiosInvariant.start fs a b).turn ha).turn ha).turn ha).turn ha
  have hc := h.congr
  rw [limb_pow_four, Nat.mod_eq_of_lt (hb.trans (modulus_lt_radix fs))] at hc
  calc cios fs a b
      = _ % modulus fs := (mod_eq_of_lt_twice h.lt).symm
    _ = montMul fs a b % modulus fs := modEq_of_mul_radix (hc.trans (montMul_radix fs a b).symm)
    _ = montMul fs a b := Nat.mod_eq_of_lt (montMul_lt fs a b)

end Sys2Proof.Machine
end

section
/-! The obligations of the field commands (40_field.md). -/

open Sys2Proof Sys2Proof.Machine

/-- Settles O17: four turns keep the invariant, and the last subtraction reduces the result. -/
theorem ciosComputesMontMul : Obligations.CiosComputesMontMul :=
  fun _ _ _ => cios_eq_montMul

/-- Settles O16, by `R * R^-1 = 1`. -/
theorem montgomeryConversions : Obligations.MontgomeryConversions :=
  fun fs v hv => ⟨toMont_lt fs v, fromMont_lt fs v, fromMont_toMont hv, toMont_fromMont hv, toMont_eq_montMul fs v,
    fromMont_eq_montMul fs v, toMont_zero fs, toMont_one fs⟩

/-- Settles O9: the sum of forms is the form of the sum. -/
theorem faddAddsModulo : Obligations.FaddAddsModulo := by
  intro fs rd ra rb s
  rw [exec_fadd]
  refine ⟨toNat_encodeR (opcode_lt _) (fsBit_lt fs) (by omega) (by omega) (by omega), fun ha hb => ?_,
    withElements_outOfRange⟩
  have hlt := addMod_lt (modulus_prime fs).pos (s.raw ra) (s.raw rb)
  refine ⟨_, withElements_inRange ha hb, ?_, ?_⟩
  · rw [toNat_wordOf_lt hlt, addMod_eq ha hb]
  · rw [canonWord_wordOf hlt, fromMont_addMod]

/-- Settles O10: the difference of forms is the form of the difference. -/
theorem fsubSubtractsModulo : Obligations.FsubSubtractsModulo := by
  intro fs rd ra rb s
  rw [exec_fsub]
  refine ⟨toNat_encodeR (opcode_lt _) (fsBit_lt fs) (by omega) (by omega) (by omega), fun ha hb => ?_,
    withElements_outOfRange⟩
  have hlt := subMod_lt (modulus_prime fs).pos (s.raw ra) (s.raw rb)
  refine ⟨_, withElements_inRange ha hb, ?_, ?_⟩
  · rw [toNat_wordOf_lt hlt, subMod_eq ha hb]
  · rw [canonWord_wordOf hlt, fromMont_subMod]

/-- Settles O11: the negative of a form is the form of the negative. -/
theorem fnegNegatesModulo : Obligations.FnegNegatesModulo := by
  intro fs rd ra s
  rw [exec_fneg]
  refine ⟨toNat_encodeR_zero (opcode_lt _) (fsBit_lt fs) (by omega) (by omega), fun ha => ?_, withElement_outOfRange⟩
  have hlt := negMod_lt (modulus_prime fs).pos (s.raw ra)
  refine ⟨_, withElement_inRange ha, ?_, ?_⟩
  · rw [toNat_wordOf_lt hlt, negMod_eq ha]
  · rw [canonWord_wordOf hlt, fromMont_negMod]

/-- Settles O12: the Montgomery product of forms is the form of the product. -/
theorem fmulMultipliesMontgomeryForms : Obligations.FmulMultipliesMontgomeryForms := by
  refine ⟨fun fs rd ra rb s => ?_, fun fs rd ra s => ?_⟩
  · rw [exec_fmul]
    refine ⟨toNat_encodeR (opcode_lt _) (fsBit_lt fs) (by omega) (by omega) (by omega), fun ha hb => ?_,
      withElements_outOfRange⟩
    have hlt := montMul_lt fs (s.raw ra) (s.raw rb)
    refine ⟨_, withElements_inRange ha hb, ?_, ?_, ?_⟩
    · rwa [toNat_wordOf_lt hlt]
    · rw [toNat_wordOf_lt hlt]; exact montMul_radix fs _ _
    · rw [canonWord_wordOf hlt, fromMont_montMul]
  · refine ⟨toNat_encodeR_zero (opcode_lt _) (fsBit_lt fs) (by omega) (by omega), exec_fsqr_eq_fmul fs rd ra s, ?_⟩
    rw [exec_fsqr]
    exact ⟨fun ha => ⟨_, withElement_inRange ha⟩, withElement_outOfRange⟩

/-- Settles O13: the power is the inverse by Fermat's little theorem. -/
theorem finvInvertsOrGivesZero : Obligations.FinvInvertsOrGivesZero := by
  intro fs rd ra s
  rw [exec_finv, decide_not]
  refine ⟨toNat_encodeR_zero (opcode_lt _) (fsBit_lt fs) (by omega) (by omega), fun ha => ?_, withElement_outOfRange⟩
  have hcanon := canonWord_montWord_powMod fs (fromMont fs (s.raw ra)) (modulus fs - 2)
  refine ⟨_, withElement_inRange ha, ?_, hcanon, fun h0 => ?_, fun h0 => ?_⟩
  · rw [toNat_montWord]; exact toMont_lt fs _
  · rw [h0, montWord_powMod_zero fs (by cases fs <;> decide)]
  · have hinv := pow_sub_two_mul_self (modulus_prime fs) (fromMont_lt fs _) (mt (eq_zero_iff_fromMont_eq_zero ha).mpr h0)
    rw [← hcanon] at hinv
    exact ⟨hinv, mul_mod_of_fromMont hinv⟩

/-- Settles O14: the ladder computes the power, which is 1 for the exponent 0. -/
theorem fpowRaisesToARawExponent : Obligations.FpowRaisesToARawExponent := by
  intro fs rd ra rb s
  rw [exec_fpow]
  refine ⟨fun ha => ?_, withElement_outOfRange⟩
  refine ⟨_, withElement_inRange ha, ?_, canonWord_montWord_powMod fs _ _, fun he => ?_, fun h0 he => ?_⟩
  · rw [toNat_montWord]; exact toMont_lt fs _
  · rw [toNat_montWord, powMod_eq (modulus_pos fs), he, pow_zero, Nat.mod_eq_of_lt (modulus_pos fs), toMont_one]
  · rw [h0, montWord_powMod_zero fs he]

/-- Settles O15: reduced forms are equal exactly when the elements are. -/
theorem fieldPredicatesWriteT : Obligations.FieldPredicatesWriteT := by
  refine ⟨fun fs ra s => ?_, fun fs ra rb s => ?_⟩
  · rw [exec_fisz]
    refine ⟨?_, fun ha => ⟨withElement_inRange ha, eq_zero_iff_fromMont_eq_zero ha⟩, withElement_outOfRange⟩
    have h := toNat_encodeR_zero (opcode_lt (.fisz fs ra)) (fsBit_lt fs) (by decide : 0 < 2 ^ 5) (by omega : ra.val < 2 ^ 5)
    rwa [Nat.zero_mul, Nat.add_zero] at h
  · rw [exec_feq]
    refine ⟨?_, fun ha hb => ⟨withElements_inRange ha hb, eq_iff_fromMont_eq ha hb⟩, withElements_outOfRange⟩
    have h := toNat_encodeR (opcode_lt (.feq fs ra rb)) (fsBit_lt fs) (by decide : 0 < 2 ^ 5) (by omega : ra.val < 2 ^ 5)
      (by omega : rb.val < 2 ^ 5)
    rwa [Nat.zero_mul, Nat.add_zero] at h

end

section
/-! SUPPORT. Elements of 32 bytes in BUF (41_move.md, 20_memory.md R64): the value that commands read is the sum over the
digits, and what a store leaves in its range and outside it. -/

namespace Sys2Proof.Machine

variable {m : Memory} {a : Nat}

/-! ## Reading -/

/-- A big-endian number in BUF, digit by digit. -/
theorem be_readBytes (m : Memory) (a n : Nat) :
    be (m.readBytes a n) = ∑ k ∈ Finset.range n, (m.read (a + k)).toNat * 256 ^ (n - 1 - k) := by
  induction n generalizing a with
  | zero => rfl
  | succ n ih =>
    rw [Memory.readBytes, be_cons, Memory.length_readBytes, ih, Finset.sum_range_succ', Nat.add_comm]
    congr 1
    refine Finset.sum_congr rfl fun k _ => ?_
    rw [Nat.add_right_comm, Nat.add_assoc, Nat.add_sub_cancel, Nat.sub_sub, Nat.add_comm 1 k]

theorem be_readBytes_32 (m : Memory) (a : Nat) : be (m.readBytes a 32) = wireValue m a := be_readBytes m a 32

/-- An element inside a longer region. -/
theorem beAt_readBytes (m : Memory) (a : Nat) {n k : Nat} (h : k + 32 ≤ n) :
    beAt (m.readBytes a n) k = wireValue m (a + k) := by
  obtain ⟨d, rfl⟩ := Nat.exists_eq_add_of_le h
  rw [beAt, Nat.add_assoc, Memory.readBytes_append, List.drop_left' (Memory.length_readBytes ..),
    Memory.readBytes_append, List.take_left' (Memory.length_readBytes ..), be_readBytes_32]

theorem wireValue_lt (m : Memory) (a : Nat) : wireValue m a < 2 ^ 256 := by
  rw [← be_readBytes_32]
  calc be (m.readBytes a 32) < 256 ^ (m.readBytes a 32).length := be_lt _
    _ = 2 ^ 256 := by rw [Memory.length_readBytes]; norm_num

/-- The bytes of BUF spell the element they are read as. -/
theorem bytes32_wireValue (m : Memory) (a : Nat) : bytes32 (wireValue m a) = m.readBytes a 32 := by
  simpa only [bytes32, Memory.length_readBytes, be_readBytes_32] using beBytes_be (m.readBytes a 32)

/-- A region is a string when it is so byte by byte. -/
theorem readBytes_eq_iff {n : Nat} {l : List Byte} (hl : l.length = n) :
    m.readBytes a n = l ↔ ∀ k (hk : k < n), m.read (a + k) = l[k] := by
  constructor
  · rintro rfl k hk
    rw [Memory.getElem_readBytes]
  · intro h
    refine List.ext_getElem (by rw [Memory.length_readBytes, hl]) fun k _ hk => ?_
    rw [Memory.getElem_readBytes, h k (hl ▸ hk)]

theorem getElem_bytes32 {v k : Nat} (h : k < (bytes32 v).length) : (bytes32 v)[k] = wireByte v k := getElem_beBytes 32 v k h

theorem spells_iff_readBytes {v : Nat} : spells m a v ↔ m.readBytes a 32 = bytes32 v := by
  rw [readBytes_eq_iff (length_bytes32 v)]
  exact forall₂_congr fun k _ => by rw [getElem_bytes32]

theorem readBytes_eq_replicate_iff {n : Nat} {b : Byte} :
    m.readBytes a n = List.replicate n b ↔ ∀ k < n, m.read (a + k) = b := by
  rw [readBytes_eq_iff List.length_replicate]
  exact forall₂_congr fun k _ => by rw [List.getElem_replicate]

/-- A region that holds one string after another. -/
theorem readBytes_eq_append {n k : Nat} {l l' : List Byte} (h : m.readBytes a (n + k) = l ++ l') (hl : l.length = n) :
    m.readBytes a n = l ∧ m.readBytes (a + n) k = l' :=
  List.append_inj (Memory.readBytes_append m a n k ▸ h) (by rw [Memory.length_readBytes, hl])

theorem spells_of_readBytes_pair {v w : Nat} (h : m.readBytes a 64 = bytes32 v ++ bytes32 w) :
    spells m a v ∧ spells m (a + 32) w := by
  obtain ⟨hv, hw⟩ := readBytes_eq_append (n := 32) (k := 32) h (length_bytes32 v)
  exact ⟨spells_iff_readBytes.mpr hv, spells_iff_readBytes.mpr hw⟩

theorem spells_of_readBytes_four {v w v' w' : Nat}
    (h : m.readBytes a 128 = (bytes32 v ++ bytes32 w) ++ (bytes32 v' ++ bytes32 w')) :
    spells m a v ∧ spells m (a + 32) w ∧ spells m (a + 64) v' ∧ spells m (a + 96) w' := by
  obtain ⟨h, h'⟩ := readBytes_eq_append (n := 64) (k := 64) h (by simp only [List.length_append, length_bytes32])
  obtain ⟨hv, hw⟩ := spells_of_readBytes_pair h
  exact ⟨hv, hw, spells_of_readBytes_pair h'⟩

/-! ## Storing -/

variable (hm : m.wf)

include hm

theorem sameOutside_writeBytes (a : Nat) (l : List Byte) : sameOutside m (m.writeBytes a l) a l.length := by
  intro b hb
  rw [Memory.read_writeBytes hm]
  split
  · rw [List.getD_eq_default _ _ (by omega)]
  · rfl

/-- A stored string reads back. -/
theorem readBytes_writeBytes (a : Nat) {n : Nat} {l : List Byte} (hl : l.length = n) : (m.writeBytes a l).readBytes a n = l := by
  refine (readBytes_eq_iff hl).mpr fun k hk => ?_
  rw [Memory.read_writeBytes hm, if_pos (Nat.le_add_right a k), Nat.add_sub_cancel_left, List.getD_eq_getElem]

/-- Storing what a region holds changes no byte. -/
theorem read_writeBytes_readBytes (a n b : Nat) : (m.writeBytes a (m.readBytes a n)).read b = m.read b := by
  rw [Memory.read_writeBytes hm]
  split
  · next hb =>
    rcases Nat.lt_or_ge (b - a) (m.readBytes a n).length with hk | hk
    · rw [List.getD_eq_getElem _ _ hk, Memory.getElem_readBytes, Nat.add_sub_of_le hb]
    · rw [List.getD_eq_default _ _ hk]
  · rfl

theorem spells_writeBytes (a v : Nat) : spells (m.writeBytes a (bytes32 v)) a v :=
  spells_iff_readBytes.mpr (readBytes_writeBytes hm a (length_bytes32 v))

end Sys2Proof.Machine
end

section
/-! SUPPORT. Points on the wire (41_move.md R145, R149, R150): what `ParseG1` and `ParseG2` accept, told by the elements in
BUF and the points 10_state.md R24 allows; and that they undo `EncG1` and `EncG2`. -/

namespace Sys2Proof.Machine

/-! ## The points of R24, by their equations -/

theorem onCurve_fq_iff {x y : Nat} :
    onCurve fq Config.b1 x y = true ↔ y * y % Config.q = (x * x * x + 3) % Config.q := by
  simp only [onCurve, decide_eq_true_iff, fq, mulMod, addMod, Nat.mod_mul_mod, Nat.mod_add_mod, Config.b1]

theorem onCurve_fq2_iff {x y : Ext2 Nat} :
    onCurve fq2 Config.b2 x y = true ↔ toFq2 y * toFq2 y = toFq2 x * toFq2 x * toFq2 x + toFq2 Config.b2 := by
  have := fact_q
  have := fact_fq2
  exact (onCurve_iff (M := fq2Model)).trans shortCurve_equation

theorem inSubgroup_eq_true_iff {F : Type} [DecidableEq F] {K : CoordOps F} {P : Pt F} :
    inSubgroup K P = true ↔ ptMul K Config.r P = .inf := by
  rw [inSubgroup, decide_eq_true_iff]

/-- The finite points of G1. -/
theorem g1Good_aff_iff {x y : Nat} :
    G1Good (.aff x y) ↔ (x < Config.q ∧ y < Config.q ∧ y * y % Config.q = (x * x * x + 3) % Config.q) ∧
      ptMul fq Config.r (.aff x y) = .inf := by
  have := fact_q
  rw [← onCurve_fq_iff, ← inSubgroup_eq_true_iff, and_assoc, and_assoc]
  exact good_aff (M := fqModel) b1_ne

/-- The finite points of G2. -/
theorem g2Good_aff_iff {x y : Ext2 Nat} :
    G2Good (.aff x y) ↔ ((Canonical2 x ∧ Canonical2 y) ∧
      toFq2 y * toFq2 y = toFq2 x * toFq2 x * toFq2 x + toFq2 Config.b2) ∧ ptMul fq2 Config.r (.aff x y) = .inf := by
  have := fact_q
  have := fact_fq2
  rw [← onCurve_fq2_iff, ← inSubgroup_eq_true_iff, and_assoc, and_assoc]
  exact good_aff (M := fq2Model) b2_ne

/-- The pair that spells infinity is no point of G1. -/
theorem not_g1Good_zero : ¬G1Good (.aff 0 0) := fun h =>
  absurd (g1Good_aff_iff.mp h).1.2.2 (by decide)

/-- The pair that spells infinity is no point of G2. -/
theorem not_g2Good_zero : ¬G2Good (.aff fq2.zero fq2.zero) := fun h =>
  absurd (onCurve_fq2_iff.mpr (g2Good_aff_iff.mp h).1.2) (by decide)

/-! ## What the parsers accept -/

/-- `ParseG1` (41_move.md R145): zeros are infinity, and the coordinates of a point of G1 are that point. -/
theorem parseG1_eq_some {l : List Byte} {P : Pt Nat} :
    parseG1 l = some P ↔
      (beAt l 0 = 0 ∧ beAt l 32 = 0) ∧ P = .inf ∨ P = .aff (beAt l 0) (beAt l 32) ∧ G1Good P := by
  constructor
  · intro h
    obtain ⟨-, -, ⟨h0, h1, rfl⟩ | ⟨-, -, rfl⟩⟩ := g1Candidate_eq_some.mp (subgroupChecked_eq_some.mp h).1
    · exact .inl ⟨⟨h0, h1⟩, rfl⟩
    · exact .inr ⟨rfl, g1Good_of_parseG1 h⟩
  · rintro (⟨⟨h0, h1⟩, rfl⟩ | ⟨rfl, hP⟩)
    · exact subgroupChecked_eq_some.mpr
        ⟨g1Candidate_eq_some.mpr ⟨h0.trans_lt q_pos, h1.trans_lt q_pos, .inl ⟨h0, h1, rfl⟩⟩, .inl rfl⟩
    · obtain ⟨⟨hx, hy, hcurve⟩, hr⟩ := g1Good_aff_iff.mp hP
      have hne : ¬(beAt l 0 = 0 ∧ beAt l 32 = 0) := fun ⟨h0, h1⟩ => not_g1Good_zero (by rwa [h0, h1] at hP)
      exact subgroupChecked_eq_some.mpr
        ⟨g1Candidate_eq_some.mpr ⟨hx, hy, .inr ⟨hne, onCurve_fq_iff.mpr hcurve, rfl⟩⟩,
          .inr (inSubgroup_eq_true_iff.mpr hr)⟩

theorem canonical2_fromWire_iff {ord : WireOrder} {e0 e1 : Nat} :
    Canonical2 (fromWire ord e0 e1) ↔ e0 < Config.q ∧ e1 < Config.q := by
  cases ord
  · exact and_comm
  · exact Iff.rfl

theorem fromWire_eq_zero_iff {ord : WireOrder} {e0 e1 : Nat} : fromWire ord e0 e1 = fq2.zero ↔ e0 = 0 ∧ e1 = 0 := by
  cases ord
  · exact (Ext2.mk.injEq ..).to_iff.trans and_comm
  · exact (Ext2.mk.injEq ..).to_iff

/-- The coordinate whose two wire elements stand at offset `k` (41_move.md R149). -/
def ext2At (ord : WireOrder) (l : List Byte) (k : Nat) : Ext2 Nat := fromWire ord (beAt l k) (beAt l (k + 32))

/-- The tests of a parser before the subgroup line, in their order (41_move.md R145, R150). -/
theorem candidate_eq_some {F : Type} {outside zero curve : Prop} [Decidable outside] [Decidable zero] [Decidable curve]
    {Q P : Pt F} :
    (if outside then none else if zero then some .inf else if curve then some Q else none) = some P ↔
      ¬outside ∧ (zero ∧ P = .inf ∨ ¬zero ∧ curve ∧ P = Q) := by
  by_cases ho : outside
  · simp [ho]
  · by_cases hz : zero
    · simp [ho, hz, eq_comm]
    · simp [ho, hz, eq_comm]

/-- `ParseG2` up to the subgroup line (41_move.md R150). -/
theorem g2Candidate_eq_some {ord : WireOrder} {l : List Byte} {P : TwistPt} :
    g2Candidate ord l = some P ↔
      (Canonical2 (ext2At ord l 0) ∧ Canonical2 (ext2At ord l 64)) ∧
      ((ext2At ord l 0 = fq2.zero ∧ ext2At ord l 64 = fq2.zero) ∧ P = .inf ∨
       ¬(ext2At ord l 0 = fq2.zero ∧ ext2At ord l 64 = fq2.zero) ∧
        onCurve fq2 Config.b2 (ext2At ord l 0) (ext2At ord l 64) = true ∧
        P = .aff (ext2At ord l 0) (ext2At ord l 64)) := by
  have hcanon : (Canonical2 (ext2At ord l 0) ∧ Canonical2 (ext2At ord l 64)) ↔
      ¬(Config.q ≤ beAt l 0 ∨ Config.q ≤ beAt l 32 ∨ Config.q ≤ beAt l 64 ∨ Config.q ≤ beAt l 96) := by
    simp only [ext2At, canonical2_fromWire_iff, not_or, Nat.not_le, and_assoc]
  rw [hcanon]
  exact candidate_eq_some

/-- `ParseG2` (41_move.md R150): zeros are infinity, and the coordinates of a point of G2 are that point. -/
theorem parseG2_eq_some {ord : WireOrder} {l : List Byte} {P : TwistPt} :
    parseG2 ord l = some P ↔
      (ext2At ord l 0 = fq2.zero ∧ ext2At ord l 64 = fq2.zero) ∧ P = .inf ∨
      P = .aff (ext2At ord l 0) (ext2At ord l 64) ∧ G2Good P := by
  constructor
  · intro h
    obtain ⟨-, ⟨h0, rfl⟩ | ⟨-, -, rfl⟩⟩ := g2Candidate_eq_some.mp (subgroupChecked_eq_some.mp h).1
    · exact .inl ⟨h0, rfl⟩
    · exact .inr ⟨rfl, g2Good_of_parseG2 h⟩
  · rintro (⟨⟨h0, h1⟩, rfl⟩ | ⟨rfl, hP⟩)
    · have hz : Canonical2 fq2.zero := ⟨q_pos, q_pos⟩
      exact subgroupChecked_eq_some.mpr
        ⟨g2Candidate_eq_some.mpr ⟨⟨h0 ▸ hz, h1 ▸ hz⟩, .inl ⟨⟨h0, h1⟩, rfl⟩⟩, .inl rfl⟩
    · obtain ⟨⟨hcanon, hcurve⟩, hr⟩ := g2Good_aff_iff.mp hP
      have hne : ¬(ext2At ord l 0 = fq2.zero ∧ ext2At ord l 64 = fq2.zero) :=
        fun ⟨h0, h1⟩ => not_g2Good_zero (by rwa [h0, h1] at hP)
      exact subgroupChecked_eq_some.mpr
        ⟨g2Candidate_eq_some.mpr ⟨hcanon, .inr ⟨hne, onCurve_fq2_iff.mpr hcurve, rfl⟩⟩,
          .inr (inSubgroup_eq_true_iff.mpr hr)⟩

/-! ## The parsers undo the encoders -/

/-- The element at the front of a string. -/
theorem beAt_bytes32 {v : Nat} (hv : v < Config.q) (l : List Byte) : beAt (bytes32 v ++ l) 0 = v := by
  rw [beAt, List.drop_zero, List.take_left' (length_bytes32 v), be_bytes32 (hv.trans (modulus_lt_radix .base))]

/-- An offset past the first part of a string. -/
theorem beAt_append_add {l : List Byte} {n : Nat} (hl : l.length = n) (l' : List Byte) (k : Nat) :
    beAt (l ++ l') (n + k) = beAt l' k := by
  rw [beAt, ← List.drop_drop, List.drop_left' hl, beAt]

theorem beAt_bytes32_append (v : Nat) (l : List Byte) : beAt (bytes32 v ++ l) 32 = beAt l 0 :=
  beAt_append_add (length_bytes32 v) l 0

/-- Zero bytes are the element zero. -/
theorem beAt_replicate_zero (n k : Nat) : beAt (List.replicate n 0) k = 0 := by
  rw [beAt, List.drop_replicate, List.take_replicate]
  generalize min 32 (n - k) = d
  induction d with
  | zero => rfl
  | succ d ih => rw [List.replicate_succ, be_cons, ih]; simp

/-- `ParseG1(EncG1(P)) = P` (41_move.md R146). -/
theorem parseG1_encG1 {P : Pt Nat} (hP : G1Good P) : parseG1 (encG1 P) = some P := by
  rcases P with _ | ⟨x, y⟩
  · exact parseG1_eq_some.mpr (.inl ⟨⟨beAt_replicate_zero 64 0, beAt_replicate_zero 64 32⟩, rfl⟩)
  · obtain ⟨hx, hy⟩ := hP.canon
    refine parseG1_eq_some.mpr (.inr ⟨?_, hP⟩)
    rw [encG1, beAt_bytes32 hx, beAt_bytes32_append, ← List.append_nil (bytes32 y), beAt_bytes32 hy]

/-- The coordinate at the front of a string. -/
theorem ext2At_toWire (ord : WireOrder) {c : Ext2 Nat} (hc : Canonical2 c) (l : List Byte) :
    ext2At ord (toWire ord c ++ l) 0 = c := by
  obtain ⟨hre, him⟩ := hc
  cases ord
  · rw [ext2At, toWire, List.append_assoc, beAt_bytes32 him, Nat.zero_add, beAt_bytes32_append, beAt_bytes32 hre]
    rfl
  · rw [ext2At, toWire, List.append_assoc, beAt_bytes32 hre, Nat.zero_add, beAt_bytes32_append, beAt_bytes32 him]
    rfl

theorem ext2At_toWire_append (ord : WireOrder) (c : Ext2 Nat) (l : List Byte) :
    ext2At ord (toWire ord c ++ l) 64 = ext2At ord l 0 := by
  have h := beAt_append_add (length_toWire ord c) l
  rw [ext2At, ext2At, ← h 0, ← h (0 + 32)]

/-- `ParseG2(EncG2(P)) = P` (41_move.md R151). -/
theorem parseG2_encG2 (ord : WireOrder) {P : TwistPt} (hP : G2Good P) : parseG2 ord (encG2 ord P) = some P := by
  rcases P with _ | ⟨x, y⟩
  · refine parseG2_eq_some.mpr (.inl ⟨?_, rfl⟩)
    simp only [encG2, ext2At, beAt_replicate_zero, fromWire_eq_zero_iff, and_self]
  · obtain ⟨hx, hy⟩ := hP.canon
    refine parseG2_eq_some.mpr (.inr ⟨?_, hP⟩)
    rw [encG2, ext2At_toWire ord hx, ext2At_toWire_append, ← List.append_nil (toWire ord y), ext2At_toWire ord hy]

/-! ## Points in BUF -/

/-- A property of the four wire elements of a twist point, coordinate by coordinate. -/
theorem forall_lt_four_iff {p : Nat → Prop} : (∀ k < 4, p k) ↔ (p 0 ∧ p 1) ∧ p 2 ∧ p 3 := by
  simp only [Nat.forall_lt_succ_right, Nat.not_lt_zero, false_imp_iff, implies_true, true_and, and_assoc]

variable {m : Memory} {a : Nat}

/-- `ParseG1` of the 64 bytes at `a` (41_move.md R145). -/
theorem parseG1At_eq_some {P : Pt Nat} :
    parseG1At m a = some P ↔
      (wireValue m a = 0 ∧ wireValue m (a + 32) = 0) ∧ P = .inf ∨
      P = .aff (wireValue m a) (wireValue m (a + 32)) ∧ G1Good P := by
  rw [parseG1At, parseG1_eq_some, beAt_readBytes m a (by decide), beAt_readBytes m a (by decide), Nat.add_zero]

/-- The coordinate whose two wire elements stand in BUF at `a` (41_move.md R149). -/
def wireExt2 (ord : WireOrder) (m : Memory) (a : Nat) : Ext2 Nat := fromWire ord (wireValue m a) (wireValue m (a + 32))

/-- The coordinate by cases on the wire order (41_move.md R149). -/
theorem ite_eq_wireExt2 (ord : WireOrder) (m : Memory) (a : Nat) :
    (if ord = .c1First then ⟨wireValue m (a + 32), wireValue m a⟩ else ⟨wireValue m a, wireValue m (a + 32)⟩) =
      wireExt2 ord m a := by
  cases ord <;> rfl

theorem ext2At_readBytes (ord : WireOrder) (m : Memory) (a : Nat) {n k : Nat} (h : k + 64 ≤ n) :
    ext2At ord (m.readBytes a n) k = wireExt2 ord m (a + k) := by
  rw [ext2At, beAt_readBytes m a (by omega), beAt_readBytes m a (by omega), wireExt2, Nat.add_assoc]

/-- `ParseG2` of the 128 bytes at `a` (41_move.md R150). -/
theorem parseG2At_eq_some {ord : WireOrder} {P : TwistPt} :
    parseG2At ord m a = some P ↔
      (wireExt2 ord m a = fq2.zero ∧ wireExt2 ord m (a + 64) = fq2.zero) ∧ P = .inf ∨
      P = .aff (wireExt2 ord m a) (wireExt2 ord m (a + 64)) ∧ G2Good P := by
  rw [parseG2At, parseG2_eq_some, ext2At_readBytes ord m a (by decide), ext2At_readBytes ord m a (by decide),
    Nat.add_zero]

end Sys2Proof.Machine
end

section
/-! SUPPORT. Each move command: its word as a number (30_encoding.md R91), and its meaning as a region of BUF applied to an
ending (41_move.md R141 to R153). -/

namespace Sys2Proof

/-- The word of format M as a number (30_encoding.md R91). -/
theorem toNat_encodeM {op fs rt addr : Nat} (hop : op < 2 ^ 8) (hfs : fs < 2) (ht : rt < 2 ^ 5) (ha : addr < 2 ^ 15) :
    (encodeM op fs rt addr).toNat = op * 2 ^ 24 + fs * 2 ^ 23 + rt * 2 ^ 15 + addr := by
  rw [encodeM, BitVec.toNat_ofNat]
  omega

/-- The same for a command without `fs`. -/
theorem toNat_encodeM_zero {op rt addr : Nat} (hop : op < 2 ^ 8) (ht : rt < 2 ^ 5) (ha : addr < 2 ^ 15) :
    (encodeM op 0 rt addr).toNat = op * 2 ^ 24 + rt * 2 ^ 15 + addr := by
  rw [toNat_encodeM hop (by decide) ht ha, Nat.zero_mul, Nat.add_zero]

end Sys2Proof

namespace Sys2Proof.Machine

/-- A register read after it is written. -/
@[simp] theorem get_set_self {α : Type} {n : Nat} (v : Vector α n) (i : Fin n) (x : α) : (v.set i x).get i = x := by
  rw [Vector.get_eq_getElem, Vector.getElem_set_self]

/-! ## Field registers -/

theorem State.raw_setF_self (s : State) (i : Fin 16) (w : Word) : (completed (s.setF i w)).raw i = w.toNat :=
  congrArg BitVec.toNat (get_set_self s.f i w)

section

variable (fs : FieldSel) (rt : Fin 16) (addr : BitVec 15) (s : State)

theorem exec_ldf : exec (.ldf fs rt addr) s = withRegion addr 32 s fun a =>
    if wireValue s.buf a < modulus fs then .next (completed (s.setF rt (montWord fs (wireValue s.buf a))))
    else .next (failed .outOfRange s) := by
  simp only [← be_readBytes_32]
  rfl

theorem exec_stf : exec (.stf fs rt addr) s = withRegion addr 32 s fun a => withElement fs rt s fun v =>
    .next (completed (s.setBuf (s.buf.writeBytes a (bytes32 (fromMont fs v))))) := rfl

theorem exec_ldraw : exec (.ldraw rt addr) s = withRegion addr 32 s fun a =>
    .next (completed (s.setF rt (wordOf (wireValue s.buf a)))) := by
  simp only [← be_readBytes_32]
  rfl

theorem exec_straw : exec (.straw rt addr) s = withRegion addr 32 s fun a =>
    .next (completed (s.setBuf (s.buf.writeBytes a (bytes32 (s.raw rt))))) := rfl

variable {fs rt addr s} (hin : addr.toNat + 32 ≤ s.params.bufBytes)

include hin

/-- LDF of a value below the modulus (41_move.md R141). -/
theorem exec_ldf_inRange (hv : wireValue s.buf addr.toNat < modulus fs) :
    exec (.ldf fs rt addr) s = .next (completed (s.setF rt (montWord fs (wireValue s.buf addr.toNat)))) := by
  rw [exec_ldf, withRegion_inside hin, if_pos hv]

theorem exec_ldf_outOfRange (hv : modulus fs ≤ wireValue s.buf addr.toNat) :
    exec (.ldf fs rt addr) s = .next (failed .outOfRange s) := by
  rw [exec_ldf, withRegion_inside hin, if_neg (Nat.not_lt.mpr hv)]

/-- STF of a register below the modulus (41_move.md R142). -/
theorem exec_stf_inRange (hv : s.raw rt < modulus fs) : exec (.stf fs rt addr) s =
    .next (completed (s.setBuf (s.buf.writeBytes addr.toNat (bytes32 (fromMont fs (s.raw rt)))))) := by
  rw [exec_stf, withRegion_inside hin, withElement_inRange hv]

theorem exec_stf_outOfRange (hv : modulus fs ≤ s.raw rt) : exec (.stf fs rt addr) s = .next (failed .outOfRange s) := by
  rw [exec_stf, withRegion_inside hin, withElement_outOfRange hv]

end

/-! ## Point registers -/

section

variable {rt : Fin 8} {addr : BitVec 15} {s : State}

theorem exec_ldg1 : exec (.ldg1 rt addr) s = withRegion addr 64 s fun a =>
    (parseG1At s.buf a).elim (.next (failed .invalidPoint s)) fun P => .next (completed (s.setG rt (g1Words P))) := by
  simp only [exec, execLdg1, complete_eq, raise_eq]
  congr 1
  funext a
  rw [parseG1At]
  cases parseG1 _ <;> rfl

theorem exec_stg1 : exec (.stg1 rt addr) s = withRegion addr 64 s fun a =>
    .next (completed (s.setBuf (s.buf.writeBytes a (encG1 (s.point1 rt))))) := rfl

variable (hin : addr.toNat + 64 ≤ s.params.bufBytes)

include hin

/-- LDG1 of a valid point (41_move.md R147). -/
theorem exec_ldg1_some {P : Pt Nat} (hP : parseG1At s.buf addr.toNat = some P) :
    exec (.ldg1 rt addr) s = .next (completed (s.setG rt (g1Words P))) := by
  rw [exec_ldg1, withRegion_inside hin, hP, Option.elim_some]

theorem exec_ldg1_none (hP : parseG1At s.buf addr.toNat = none) :
    exec (.ldg1 rt addr) s = .next (failed .invalidPoint s) := by
  rw [exec_ldg1, withRegion_inside hin, hP, Option.elim_none]

theorem exec_stg1_inside : exec (.stg1 rt addr) s =
    .next (completed (s.setBuf (s.buf.writeBytes addr.toNat (encG1 (s.point1 rt))))) := by
  rw [exec_stg1, withRegion_inside hin]

end

section

variable {rt : Fin 4} {addr : BitVec 15} {s : State}

theorem exec_ldg2 : exec (.ldg2 rt addr) s = withRegion addr 128 s fun a =>
    (parseG2At s.params.wireOrder s.buf a).elim (.next (failed .invalidPoint s))
      fun P => .next (completed (s.setH rt (g2Words P))) := by
  simp only [exec, execLdg2, complete_eq, raise_eq]
  congr 1
  funext a
  rw [parseG2At]
  cases parseG2 _ _ <;> rfl

theorem exec_stg2 : exec (.stg2 rt addr) s = withRegion addr 128 s fun a =>
    .next (completed (s.setBuf (s.buf.writeBytes a (encG2 s.params.wireOrder (s.point2 rt))))) := rfl

variable (hin : addr.toNat + 128 ≤ s.params.bufBytes)

include hin

/-- LDG2 of a valid point (41_move.md R152). -/
theorem exec_ldg2_some {P : TwistPt} (hP : parseG2At s.params.wireOrder s.buf addr.toNat = some P) :
    exec (.ldg2 rt addr) s = .next (completed (s.setH rt (g2Words P))) := by
  rw [exec_ldg2, withRegion_inside hin, hP, Option.elim_some]

theorem exec_ldg2_none (hP : parseG2At s.params.wireOrder s.buf addr.toNat = none) :
    exec (.ldg2 rt addr) s = .next (failed .invalidPoint s) := by
  rw [exec_ldg2, withRegion_inside hin, hP, Option.elim_none]

theorem exec_stg2_inside : exec (.stg2 rt addr) s =
    .next (completed (s.setBuf (s.buf.writeBytes addr.toNat (encG2 s.params.wireOrder (s.point2 rt))))) := by
  rw [exec_stg2, withRegion_inside hin]

end

end Sys2Proof.Machine
end

section
/-! The obligations of the move commands (41_move.md). -/

open Sys2Proof Sys2Proof.Machine

/-- Settles O18: each of the fourteen commands tests its region first. -/
theorem addressesOutsideBufRaiseBadAddress : Obligations.AddressesOutsideBufRaiseBadAddress := by
  intro s addr
  refine ⟨fun h => ?_, fun h => ?_, fun h => ?_, fun n h => ?_, fun h => ?_⟩
  · simp only [exec, execLdf, execStf, execLdraw, execStraw, withRegion_outside h, implies_true, and_self]
  · simp only [exec, execLdg1, execStg1, execG1onc, execG1subg, withRegion_outside h, implies_true, and_self]
  · simp only [exec, execLdg2, execStg2, execG2onc, execG2subg, withRegion_outside h, implies_true, and_self]
  · rw [Nat.add_assoc] at h
    simp only [exec, execVerify, withRegion_outside h]
  · simp only [exec, execVkload, withRegion_outside h]

/-- Settles O19: the bytes are the digits of the value loaded. -/
theorem loadsReadBigEndianElements : Obligations.LoadsReadBigEndianElements := by
  intro rt addr s
  refine ⟨fun fs => ⟨toNat_encodeM (opcode_lt _) (fsBit_lt fs) (by omega) addr.isLt,
    fun hin hv => ⟨_, exec_ldf_inRange hin hv, toNat_montWord fs _⟩, exec_ldf_outOfRange,
    fun h => (exec_ldf fs rt addr s).trans (withRegion_outside h)⟩,
    toNat_encodeM_zero (opcode_lt _) (by omega) addr.isLt, ?_⟩
  rw [exec_ldraw]
  exact ⟨fun hin => ⟨_, withRegion_inside hin, toNat_wordOf (wireValue_lt s.buf addr.toNat)⟩, withRegion_outside⟩

/-- Settles O20: a store of 32 bytes spells the value, and keeps what is outside. -/
theorem storesWriteBigEndianElements : Obligations.StoresWriteBigEndianElements := by
  intro rt addr s hwf
  have hout := fun v => length_bytes32 v ▸ sameOutside_writeBytes hwf addr.toNat (bytes32 v)
  refine ⟨fun fs => ⟨toNat_encodeM (opcode_lt _) (fsBit_lt fs) (by omega) addr.isLt,
    fun hin hv => ⟨_, exec_stf_inRange hin hv, spells_writeBytes hwf _ _, hout _⟩, exec_stf_outOfRange,
    fun h => (exec_stf fs rt addr s).trans (withRegion_outside h)⟩,
    toNat_encodeM_zero (opcode_lt _) (by omega) addr.isLt, ?_⟩
  rw [exec_straw]
  exact ⟨fun hin => ⟨_, withRegion_inside hin, spells_writeBytes hwf _ _, hout _⟩, withRegion_outside⟩

/-- Settles O21: the conversions are inverse below the modulus, and the bytes spell the value they are read as. -/
theorem stfRestoresWhatLdfLoaded : Obligations.StfRestoresWhatLdfLoaded := by
  intro fs rt addr s hwf hin hv
  obtain ⟨t, ht, hraw, hbuf, hparams, herr⟩ : ∃ t, exec (.ldf fs rt addr) s = .next t ∧
      t.raw rt = toMont fs (wireValue s.buf addr.toNat) ∧ t.buf = s.buf ∧ t.params = s.params ∧ t.err = .ok :=
    ⟨_, exec_ldf_inRange hin hv, (s.raw_setF_self rt _).trans (toNat_montWord fs _), rfl, rfl, rfl⟩
  have hlt : t.raw rt < modulus fs := hraw ▸ toMont_lt fs _
  refine ⟨t, _, ht, exec_stf_inRange (hparams ▸ hin) hlt, herr, rfl, fun a => ?_⟩
  rw [State.setBuf_buf, hraw, fromMont_toMont hv, bytes32_wireValue, hbuf, read_writeBytes_readBytes hwf]

/-- Settles O22: LDG1 accepts zeros and the coordinates of the points of G1. -/
theorem ldg1LoadsValidPoints : Obligations.Ldg1LoadsValidPoints := by
  intro rt addr s hin x y onTheCurve
  refine ⟨fun h0 => exec_ldg1_some hin (parseG1At_eq_some.mpr (.inl ⟨h0, rfl⟩)), fun h => ?_, fun h0 h => ?_⟩
  · exact ⟨_, _, exec_ldg1_some hin (parseG1At_eq_some.mpr (.inr ⟨rfl, g1Good_aff_iff.mpr h⟩)),
      toNat_montWord .base x, toNat_montWord .base y⟩
  · refine exec_ldg1_none hin (Option.eq_none_iff_forall_ne_some.mpr fun P hP => ?_)
    obtain ⟨h', -⟩ | ⟨rfl, hgood⟩ := parseG1At_eq_some.mp hP
    · exact h0 h'
    · exact h (g1Good_aff_iff.mp hgood)

/-- Settles O23: LDG2 accepts zeros and the coordinates of the points of G2, read in the engine's wire order. -/
theorem ldg2LoadsValidPoints : Obligations.Ldg2LoadsValidPoints := by
  intro rt addr s hin e x y onTheTwist
  have hx : x = wireExt2 s.params.wireOrder s.buf addr.toNat := ite_eq_wireExt2 ..
  have hy : y = wireExt2 s.params.wireOrder s.buf (addr.toNat + 64) := ite_eq_wireExt2 ..
  have hzero : (∀ k < 4, e k = 0) ↔ x = fq2.zero ∧ y = fq2.zero := by
    rw [hx, hy, wireExt2, wireExt2, fromWire_eq_zero_iff, fromWire_eq_zero_iff]
    exact forall_lt_four_iff
  have hcanon : (∀ k < 4, e k < Config.q) ↔ Canonical2 x ∧ Canonical2 y := by
    rw [hx, hy, wireExt2, wireExt2, canonical2_fromWire_iff, canonical2_fromWire_iff]
    exact forall_lt_four_iff
  have hgood : onTheTwist ∧ ptMul fq2 Config.r (.aff x y) = .inf ↔ G2Good (.aff x y) := by
    rw [g2Good_aff_iff, ← hcanon]
  have hparse : ∀ {P}, parseG2At s.params.wireOrder s.buf addr.toNat = some P ↔
      (x = fq2.zero ∧ y = fq2.zero) ∧ P = .inf ∨ P = .aff x y ∧ G2Good P := by
    rw [hx, hy]
    exact parseG2At_eq_some
  rw [hzero, hgood]
  refine ⟨fun h0 => exec_ldg2_some hin (hparse.mpr (.inl ⟨h0, rfl⟩)), fun h => ?_, fun h0 h => ?_⟩
  · exact ⟨_, _, exec_ldg2_some hin (hparse.mpr (.inr ⟨rfl, h⟩)), toNat_montWord .base x.re, toNat_montWord .base x.im,
      toNat_montWord .base y.re, toNat_montWord .base y.im⟩
  · refine exec_ldg2_none hin (Option.eq_none_iff_forall_ne_some.mpr fun P hP => ?_)
    obtain ⟨h', -⟩ | ⟨rfl, hP⟩ := hparse.mp hP
    · exact h0 h'
    · exact h hP

/-- Settles O24: what the stored string spells, part by part. -/
theorem pointStoresWriteTheWireForm : Obligations.PointStoresWriteTheWireForm := by
  refine ⟨fun rt addr s hwf hin => ?_, fun rt addr s hwf hin => ?_⟩
  · have hread := readBytes_writeBytes hwf addr.toNat (length_encG1 (s.point1 rt))
    refine ⟨_, exec_stg1_inside hin, length_encG1 _ ▸ sameOutside_writeBytes hwf _ _, fun h => ?_, fun x y h => ?_⟩
    · rw [State.point1, h, g1Canon, encG1] at hread ⊢
      exact readBytes_eq_replicate_iff.mp hread
    · rw [State.point1, h] at hread ⊢
      exact spells_of_readBytes_pair hread
  · have hread := readBytes_writeBytes hwf addr.toNat (length_encG2 s.params.wireOrder (s.point2 rt))
    refine ⟨_, exec_stg2_inside hin, length_encG2 .. ▸ sameOutside_writeBytes hwf _ _, fun h => ?_, fun x y h ho => ?_,
      fun x y h ho => ?_⟩
    · rw [State.point2, h, g2Canon, encG2] at hread ⊢
      exact readBytes_eq_replicate_iff.mp hread
    · rw [State.point2, h, ho] at hread ⊢
      exact spells_of_readBytes_four hread
    · rw [State.point2, h, ho] at hread ⊢
      exact spells_of_readBytes_four hread

/-- Settles O25: a stored string reads back, the parsers undo the encoders on the points of R24, and reduced words are the
forms of the elements they stand for. -/
theorem storedPointsLoadBack : Obligations.StoredPointsLoadBack := by
  refine ⟨fun rt rt' addr s hwf hin hv => ?_, fun rt rt' addr s hwf hin hv => ?_⟩
  · obtain ⟨hred, hgood⟩ := g1Valid_iff.mp hv
    obtain ⟨t, ht, hbuf, hparams⟩ : ∃ t, exec (.stg1 rt addr) s = .next t ∧
        t.buf = s.buf.writeBytes addr.toNat (encG1 (s.point1 rt)) ∧ t.params = s.params :=
      ⟨_, exec_stg1_inside hin, rfl, rfl⟩
    have hparse : parseG1At t.buf addr.toNat = some (s.point1 rt) := by
      rw [parseG1At, hbuf, readBytes_writeBytes hwf _ (length_encG1 _)]
      exact parseG1_encG1 hgood
    exact ⟨t, _, ht, exec_ldg1_some (hparams ▸ hin) hparse, rfl, (get_set_self ..).trans (g1Words_g1Canon hred)⟩
  · obtain ⟨hred, hgood⟩ := g2Valid_iff.mp hv
    obtain ⟨t, ht, hbuf, hparams⟩ : ∃ t, exec (.stg2 rt addr) s = .next t ∧
        t.buf = s.buf.writeBytes addr.toNat (encG2 s.params.wireOrder (s.point2 rt)) ∧ t.params = s.params :=
      ⟨_, exec_stg2_inside hin, rfl, rfl⟩
    have hparse : parseG2At t.params.wireOrder t.buf addr.toNat = some (s.point2 rt) := by
      rw [parseG2At, hbuf, hparams, readBytes_writeBytes hwf _ (length_encG2 ..)]
      exact parseG2_encG2 _ hgood
    exact ⟨t, _, ht, exec_ldg2_some (hparams ▸ hin) hparse, rfl, (get_set_self ..).trans (g2Words_g2Canon hred)⟩

end

section
/-! SUPPORT. The model's group law solves the equations of 42_curve.md R162 and R163, over any coordinate field of the model;
and the multiples by `r` and `r + 1`. -/

namespace Sys2Proof.Machine

section

variable {F E : Type} [Field E] {K : CoordOps F} (M : FieldModel K E)

namespace FieldModel

/-- The point over `E` that a point of the model stands for. -/
def valPt : Pt F → Pt E
  | .inf => .inf
  | .aff x y => .aff (M.val x) (M.val y)

theorem val_eq_zero_iff {a : F} (ha : M.canon a) : M.val a = 0 ↔ a = K.zero := by
  refine ⟨fun h => M.val_inj ha M.canon_zero (h.trans M.val_zero.symm), ?_⟩
  rintro rfl
  exact M.val_zero

theorem val_eq_iff {a b : F} (ha : M.canon a) (hb : M.canon b) : M.val a = M.val b ↔ a = b :=
  ⟨M.val_inj ha hb, congrArg M.val⟩

/-- The tangent's slope solves its equation (R162). -/
theorem val_tangent_mul {x y : F} (hy : M.val y ≠ 0) :
    M.val (tangent K x y) * (2 * M.val y) = 3 * M.val x * M.val x := by
  have h2y : 2 * M.val y ≠ 0 := mul_ne_zero M.two_ne hy
  simp only [tangent, M.val_mul, M.val_inv, M.val_two, M.val_three]
  rw [inv_mul_cancel_right₀ h2y, mul_assoc]

/-- The chord's slope solves its equation (R162). -/
theorem val_chord_mul {x1 y1 x2 y2 : F} (hx : M.val x1 ≠ M.val x2) :
    M.val (chord K x1 y1 x2 y2) * (M.val x2 - M.val x1) = M.val y2 - M.val y1 := by
  simp only [chord, M.val_mul, M.val_inv, M.val_sub]
  exact inv_mul_cancel_right₀ (sub_ne_zero.mpr hx.symm) _

theorem canonPt_thirdPoint (lam x1 y1 x2 : F) : CanonPt M.canon (thirdPoint K lam x1 y1 x2) :=
  ⟨M.canon_sub _ _, M.canon_sub _ _⟩

theorem valPt_thirdPoint (lam x1 y1 x2 : F) : M.valPt (thirdPoint K lam x1 y1 x2) =
    .aff (M.val lam * M.val lam - M.val x1 - M.val x2)
      (M.val lam * (M.val x1 - (M.val lam * M.val lam - M.val x1 - M.val x2)) - M.val y1) := by
  simp only [thirdPoint, valPt, M.val_sub, M.val_mul]

variable [DecidableEq F]

theorem canonPt_ptAdd {P S : Pt F} (hP : CanonPt M.canon P) (hS : CanonPt M.canon S) :
    CanonPt M.canon (ptAdd K P S) := by
  rcases P with _ | ⟨x1, y1⟩
  · exact hS
  · rcases S with _ | ⟨x2, y2⟩
    · exact hP
    · simp only [ptAdd]
      split_ifs
      · exact M.canonPt_thirdPoint _ _ _ _
      · trivial
      · exact M.canonPt_thirdPoint _ _ _ _

/-- The sum of two points stands in the group law relation to them, in each case of R162. -/
theorem groupLaw_ptAdd {P S : Pt F} (hP : CanonPt M.canon P) (hS : CanonPt M.canon S) :
    groupLaw (M.valPt P) (M.valPt S) (M.valPt (ptAdd K P S)) := by
  rcases P with _ | ⟨x1, y1⟩
  · exact rfl
  rcases S with _ | ⟨x2, y2⟩
  · exact rfl
  obtain ⟨hx1, hy1⟩ := hP
  obtain ⟨hx2, hy2⟩ := hS
  have hx := M.val_eq_iff hx1 hx2
  have hy := M.val_eq_iff hy1 hy2
  have hy0 := M.val_eq_zero_iff hy1
  simp only [ptAdd]
  split_ifs with h h'
  · obtain ⟨hyy, hne⟩ := h'
    have hne0 := mt hy0.mp hne
    exact .inr ⟨_, _, _, M.valPt_thirdPoint _ _ _ _, rfl, rfl,
      .inl ⟨hx.mpr h, hy.mpr hyy, hne0, M.val_tangent_mul hne0⟩⟩
  · exact .inl ⟨hx.mpr h, fun ⟨hyy, hne⟩ => h' ⟨hy.mp hyy, mt hy0.mpr hne⟩, rfl⟩
  · have hxne := mt hx.mp h
    exact .inr ⟨_, _, _, M.valPt_thirdPoint _ _ _ _, rfl, rfl, .inr ⟨hxne, M.val_chord_mul hxne⟩⟩

end FieldModel

end

theorem ptAdd_inf {F : Type} [DecidableEq F] {K : CoordOps F} (P : Pt F) : ptAdd K P .inf = P := by
  cases P <;> rfl

section

variable {F E : Type} [Field E] {K : CoordOps F} {M : FieldModel K E} {b : F} [DecidableEq F] [DecidableEq E]

theorem ptMul_r {P : Pt F} (h : Good M b P) : ptMul K Config.r P = .inf := by
  obtain ⟨Q, hQ, hr⟩ := h
  exact inSubgroup_eq_true_iff.mp ((inSubgroup_iff hQ).mpr hr)

theorem ptMul_r_succ {P : Pt F} (h : Good M b P) : ptMul K (Config.r + 1) P = P :=
  (ptMul_r_add h (by decide)).trans (ptMul_one h)

end

/-! ## The registers -/

theorem canonPt_g1Canon (w : G1Reg) : CanonPt (· < Config.q) (g1Canon w) := by
  rcases w with _ | ⟨x, y⟩
  · trivial
  · exact ⟨canonWord_lt .base x, canonWord_lt .base y⟩

theorem canonPt_g2Canon (w : G2Reg) : CanonPt Canonical2 (g2Canon w) := by
  rcases w with _ | ⟨x, y⟩
  · trivial
  · exact ⟨⟨canonWord_lt .base x.re, canonWord_lt .base x.im⟩, ⟨canonWord_lt .base y.re, canonWord_lt .base y.im⟩⟩

theorem g1Element_eq_valPt (w : G1Reg) : haveI := fact_q; g1Element w = fqModel.valPt (g1Canon w) := by
  cases w <;> rfl

theorem g2Element_eq_valPt (w : G2Reg) :
    haveI := fact_q; haveI := fact_fq2; g2Element w = fq2Model.valPt (g2Canon w) := by
  cases w <;> rfl

/-- The sum of two G1 registers, as the elements they hold (R162). -/
theorem groupLaw_g1Words_ptAdd (v w : G1Reg) :
    groupLaw (g1Element v) (g1Element w) (g1Element (g1Words (ptAdd fq (g1Canon v) (g1Canon w)))) := by
  have := fact_q
  have hv := canonPt_g1Canon v
  have hw := canonPt_g1Canon w
  rw [g1Element_eq_valPt, g1Element_eq_valPt, g1Element_eq_valPt, g1Canon_g1Words (fqModel.canonPt_ptAdd hv hw)]
  exact fqModel.groupLaw_ptAdd hv hw

/-- The sum of two G2 registers, as the elements they hold (R163). -/
theorem groupLaw_g2Words_ptAdd (v w : G2Reg) :
    groupLaw (g2Element v) (g2Element w) (g2Element (g2Words (ptAdd fq2 (g2Canon v) (g2Canon w)))) := by
  have := fact_q
  have := fact_fq2
  have hv := canonPt_g2Canon v
  have hw := canonPt_g2Canon w
  rw [g2Element_eq_valPt, g2Element_eq_valPt, g2Element_eq_valPt, g2Canon_g2Words (fq2Model.canonPt_ptAdd hv hw)]
  exact fq2Model.groupLaw_ptAdd hv hw

end Sys2Proof.Machine
end

section
/-! SUPPORT. Every point of the G1 curve has order dividing `r` (42_curve.md R160). The generator has order `r`, so `r`
divides the number of points; that number is at most `2 * (q + 1)`, below `3 * r`, since an abscissa belongs to at most two
points; and there is no point of order 2, since -3 is no cube modulo `q`. -/

namespace Sys2Proof.Machine

/-! ## Counting points -/

section

variable {F : Type} [Field F]

/-- The abscissa of a point, none at infinity. -/
def abscissa {W : WeierstrassCurve.Affine F} : W.Point → Option F
  | .zero => none
  | .some x _ _ => some x

theorem eq_or_eq_neg_of_abscissa_eq {W : WeierstrassCurve.Affine F} {P Q : W.Point} (h : abscissa P = abscissa Q) :
    P = Q ∨ P = -Q := by
  cases P with
  | zero =>
    cases Q with
    | zero => exact .inl rfl
    | some => cases h
  | some =>
    cases Q with
    | zero => cases h
    | some => exact WeierstrassCurve.Affine.Point.X_eq_iff.mp (Option.some.inj h)

theorem finite_point [Finite F] (W : WeierstrassCurve.Affine F) : Finite W.Point :=
  have : Finite (WithZero {xy : F × F // W.Nonsingular xy.1 xy.2}) :=
    inferInstanceAs (Finite (Option {xy : F × F // W.Nonsingular xy.1 xy.2}))
  .of_equiv _ W.nonsingularPointEquiv.symm

/-- At most two points have one abscissa. -/
theorem card_point_le [Fintype F] (W : WeierstrassCurve.Affine F) : Nat.card W.Point ≤ 2 * (Fintype.card F + 1) := by
  classical
  have := finite_point W
  have := Fintype.ofFinite W.Point
  have hfibre : ∀ X : Option F, (Finset.univ.filter fun P : W.Point => abscissa P = X).card ≤ 2 := fun X => by
    rcases (Finset.univ.filter fun P : W.Point => abscissa P = X).eq_empty_or_nonempty with h | ⟨P, hP⟩
    · simp [h]
    · refine (Finset.card_le_card fun Q hQ => ?_).trans (Finset.card_le_two (a := P) (b := -P))
      rw [Finset.mem_filter] at hP hQ
      simpa using eq_or_eq_neg_of_abscissa_eq (hQ.2.trans hP.2.symm)
  rw [Nat.card_eq_fintype_card, ← Fintype.card_option]
  exact Finset.card_le_mul_card_image_of_maps_to (fun P _ => Finset.mem_univ (abscissa P)) 2 fun X _ => hfibre X

end

/-- In a group of order `n` or `2 * n` without elements of order 2, `n` takes every element to zero. -/
theorem nsmul_eq_zero_of_card_lt {G : Type} [AddCommGroup G] [Finite G] {n : Nat} (hdvd : n ∣ Nat.card G)
    (hcard : Nat.card G < 3 * n) (htwo : ∀ T : G, 2 • T = 0 → T = 0) (Q : G) : n • Q = 0 := by
  have hQ : Nat.card G • Q = 0 := card_nsmul_eq_zero'
  obtain ⟨k, hk⟩ := hdvd
  have hk0 : k ≠ 0 := by
    rintro rfl
    exact Nat.card_pos.ne' hk
  have hk3 : k < 3 := Nat.lt_of_mul_lt_mul_left (a := n) (by rw [← hk, Nat.mul_comm]; exact hcard)
  rw [hk, mul_nsmul] at hQ
  obtain rfl | rfl : k = 1 ∨ k = 2 := by omega
  · rwa [one_nsmul] at hQ
  · exact htwo _ hQ

/-! ## The curve of G1 -/

/-- `r` takes the generator to infinity (42_curve.md R160). -/
theorem ptMul_r_generator : ptMul fq Config.r (.aff 1 2) = .inf := by decide +kernel

section

variable [Fact (Nat.Prime Config.q)]

/-- -3 is no cube modulo `q`: its power by `(q - 1) / 3` is not 1. -/
theorem cube_add_three_ne_zero (x : ZMod Config.q) : x * x * x + 3 ≠ 0 := by
  intro h
  have hx : x ≠ 0 := by
    rintro rfl
    exact small_ne_zero (n := 3) (by decide) (by decide) (by simpa using h)
  have hcube : x ^ 3 = ((Config.q - 3 : Nat) : ZMod Config.q) := by
    rw [Nat.cast_sub (by decide), ZMod.natCast_self, Nat.cast_ofNat]
    linear_combination h
  have hone : ((Config.q - 3 : Nat) : ZMod Config.q) ^ ((Config.q - 1) / 3) = 1 := by
    rw [← hcube, ← pow_mul, show 3 * ((Config.q - 1) / 3) = Config.q - 1 by decide]
    exact ZMod.pow_card_sub_one_eq_one hx
  have hpow : powMod Config.q (Config.q - 3) ((Config.q - 1) / 3) = 1 := by
    rw [powMod_eq q_prime.one_lt]
    refine eq_of_cast_eq (Nat.mod_lt _ q_pos) q_prime.one_lt ?_
    rw [cast_mod, Nat.cast_pow, hone, Nat.cast_one]
  exact absurd hpow (by decide +kernel)

/-- The G1 curve has no point of order 2: its ordinate would be 0. -/
theorem eq_zero_of_two_nsmul {T : (shortCurve (fqModel.val Config.b1)).Point} (h : 2 • T = 0) : T = 0 := by
  rw [two_nsmul, add_eq_zero_iff_eq_neg] at h
  cases T with
  | zero => rfl
  | some x y n =>
    rw [WeierstrassCurve.Affine.Point.neg_some, WeierstrassCurve.Affine.Point.some.injEq, shortCurve_negY] at h
    have hy : y = 0 := (mul_eq_zero.mp (by linear_combination h.2 : 2 * y = 0)).resolve_left fqModel.two_ne
    have hxy := shortCurve_equation.mp n.1
    rw [hy, mul_zero] at hxy
    exact absurd hxy.symm (cube_add_three_ne_zero x)

/-- The generator `(1, 2)` has order `r` (42_curve.md R160), so `r` divides the number of points. -/
theorem r_dvd_card_g1 : Config.r ∣ Nat.card (shortCurve (fqModel.val Config.b1)).Point := by
  have := Fact.mk r_prime
  obtain ⟨G, hG, hr⟩ : G1Good (.aff 1 2) := g1Good_aff_iff.mpr ⟨by decide, ptMul_r_generator⟩
  have hne : G ≠ 0 := by
    rintro rfl
    cases stands_left_unique hG stands_inf
  exact addOrderOf_eq_prime hr hne ▸ addOrderOf_dvd_natCard G

/-- `r` takes every point of the G1 curve to infinity (42_curve.md R160). -/
theorem r_nsmul_g1_eq_zero (Q : (shortCurve (fqModel.val Config.b1)).Point) : Config.r • Q = 0 := by
  have := finite_point (shortCurve (fqModel.val Config.b1))
  have hle := card_point_le (shortCurve (fqModel.val Config.b1))
  rw [ZMod.card] at hle
  exact nsmul_eq_zero_of_card_lt r_dvd_card_g1 (hle.trans_lt (by decide)) (fun _ => eq_zero_of_two_nsmul) Q

end

/-- Every canonical solution of the G1 equation is a point of G1 (42_curve.md R160). -/
theorem g1Good_of_onCurve {x y : Nat} (hx : x < Config.q) (hy : y < Config.q)
    (h : onCurve fq Config.b1 x y = true) : G1Good (.aff x y) := by
  have := fact_q
  obtain ⟨Q, hQ⟩ := exists_stands (M := fqModel) b1_ne hx hy h
  exact ⟨Q, hQ, r_nsmul_g1_eq_zero Q⟩

/-- So the subgroup line of `ParseG1` rejects nothing (41_move.md R145). -/
theorem parseG1_eq_g1Candidate (l : List Byte) : parseG1 l = g1Candidate l := by
  refine Option.ext fun P => subgroupChecked_eq_some.trans (and_iff_left_of_imp fun h => ?_)
  obtain ⟨hx, hy, ⟨-, -, rfl⟩ | ⟨-, hcurve, rfl⟩⟩ := g1Candidate_eq_some.mp h
  · exact .inl rfl
  · exact .inr (inSubgroup_eq_true_iff.mpr (g1Good_aff_iff.mp (g1Good_of_onCurve hx hy hcurve)).2)

end Sys2Proof.Machine
end

section
/-! SUPPORT. Each curve command: its meaning as an ending applied to the points of the registers, or to a candidate in BUF
(42_curve.md R165 to R172). -/

namespace Sys2Proof.Machine

section

variable (s : State)

theorem exec_g1add (rd ra rb : Fin 8) : exec (.g1add rd ra rb) s =
    .next (completed (s.setG rd (g1Words (ptAdd fq (s.point1 ra) (s.point1 rb))))) := rfl

theorem exec_g2add (rd ra rb : Fin 4) : exec (.g2add rd ra rb) s =
    .next (completed (s.setH rd (g2Words (ptAdd fq2 (s.point2 ra) (s.point2 rb))))) := rfl

theorem exec_g1smul (rd ra : Fin 8) (rb : Fin 16) : exec (.g1smul rd ra rb) s =
    .next (completed (s.setG rd (g1Words (ptMul fq (s.raw rb) (s.point1 ra))))) := rfl

theorem exec_g2smul (rd ra : Fin 4) (rb : Fin 16) : exec (.g2smul rd ra rb) s =
    .next (completed (s.setH rd (g2Words (ptMul fq2 (s.raw rb) (s.point2 ra))))) := rfl

theorem exec_g1onc (addr : BitVec 15) : exec (.g1onc addr) s = withRegion addr 64 s fun a =>
    .next (completed (s.setT (g1Candidate (s.buf.readBytes a 64)).isSome)) := rfl

theorem exec_g1subg (addr : BitVec 15) : exec (.g1subg addr) s = withRegion addr 64 s fun a =>
    .next (completed (s.setT (parseG1At s.buf a).isSome)) := rfl

theorem exec_g2onc (addr : BitVec 15) : exec (.g2onc addr) s = withRegion addr 128 s fun a =>
    .next (completed (s.setT (g2Candidate s.params.wireOrder (s.buf.readBytes a 128)).isSome)) := rfl

theorem exec_g2subg (addr : BitVec 15) : exec (.g2subg addr) s = withRegion addr 128 s fun a =>
    .next (completed (s.setT (parseG2At s.params.wireOrder s.buf a).isSome)) := rfl

end

theorem State.point1_eq_inf {s : State} {i : Fin 8} (h : s.g.get i = .inf) : s.point1 i = .inf := by
  rw [State.point1, h, g1Canon]

theorem State.point2_eq_inf {s : State} {i : Fin 4} (h : s.h.get i = .inf) : s.point2 i = .inf := by
  rw [State.point2, h, g2Canon]

/-! ## Candidates in BUF -/

variable {m : Memory} {a : Nat}

/-- What G1ONC accepts (R169). -/
theorem isSome_g1Candidate_iff : (g1Candidate (m.readBytes a 64)).isSome = true ↔
    wireValue m a < Config.q ∧ wireValue m (a + 32) < Config.q ∧
      ((wireValue m a = 0 ∧ wireValue m (a + 32) = 0) ∨
        wireValue m (a + 32) * wireValue m (a + 32) % Config.q =
          (wireValue m a * wireValue m a * wireValue m a + 3) % Config.q) := by
  rw [← onCurve_fq_iff, Option.isSome_iff_exists]
  simp only [g1Candidate_eq_some, beAt_readBytes m a (show 0 + 32 ≤ 64 by decide),
    beAt_readBytes m a (show 32 + 32 ≤ 64 by decide), Nat.add_zero]
  constructor
  · rintro ⟨P, hx, hy, ⟨h0, h1, -⟩ | ⟨-, hcurve, -⟩⟩
    · exact ⟨hx, hy, .inl ⟨h0, h1⟩⟩
    · exact ⟨hx, hy, .inr hcurve⟩
  · rintro ⟨hx, hy, h⟩
    by_cases h0 : wireValue m a = 0 ∧ wireValue m (a + 32) = 0
    · exact ⟨.inf, hx, hy, .inl ⟨h0.1, h0.2, rfl⟩⟩
    · exact ⟨_, hx, hy, .inr ⟨h0, h.resolve_left h0, rfl⟩⟩

variable {ord : WireOrder}

/-- The four wire elements of a twist point are below `q` when its coordinates are canonical. -/
theorem wireValues_lt_q_iff : (∀ k < 4, wireValue m (a + 32 * k) < Config.q) ↔
    Canonical2 (wireExt2 ord m a) ∧ Canonical2 (wireExt2 ord m (a + 64)) := by
  rw [wireExt2, wireExt2, canonical2_fromWire_iff, canonical2_fromWire_iff]
  exact forall_lt_four_iff

theorem wireValues_eq_zero_iff : (∀ k < 4, wireValue m (a + 32 * k) = 0) ↔
    wireExt2 ord m a = fq2.zero ∧ wireExt2 ord m (a + 64) = fq2.zero := by
  rw [wireExt2, wireExt2, fromWire_eq_zero_iff, fromWire_eq_zero_iff]
  exact forall_lt_four_iff

/-- What G2ONC accepts (R171). -/
theorem isSome_g2Candidate_iff : (g2Candidate ord (m.readBytes a 128)).isSome = true ↔
    (∀ k < 4, wireValue m (a + 32 * k) < Config.q) ∧
      ((∀ k < 4, wireValue m (a + 32 * k) = 0) ∨
        toFq2 (wireExt2 ord m (a + 64)) * toFq2 (wireExt2 ord m (a + 64)) =
          toFq2 (wireExt2 ord m a) * toFq2 (wireExt2 ord m a) * toFq2 (wireExt2 ord m a) + toFq2 Config.b2) := by
  rw [wireValues_lt_q_iff (ord := ord), wireValues_eq_zero_iff (ord := ord), ← onCurve_fq2_iff,
    Option.isSome_iff_exists]
  simp only [g2Candidate_eq_some, ext2At_readBytes ord m a (show 0 + 64 ≤ 128 by decide),
    ext2At_readBytes ord m a (show 64 + 64 ≤ 128 by decide), Nat.add_zero]
  constructor
  · rintro ⟨P, hcanon, ⟨h0, -⟩ | ⟨-, hcurve, -⟩⟩
    · exact ⟨hcanon, .inl h0⟩
    · exact ⟨hcanon, .inr hcurve⟩
  · rintro ⟨hcanon, h⟩
    by_cases h0 : wireExt2 ord m a = fq2.zero ∧ wireExt2 ord m (a + 64) = fq2.zero
    · exact ⟨.inf, hcanon, .inl ⟨h0, rfl⟩⟩
    · exact ⟨_, hcanon, .inr ⟨h0, h.resolve_left h0, rfl⟩⟩

/-! ## The error of a load -/

/-- The code with which a point load ends, by whether its candidate is accepted (41_move.md R147, R152). -/
def loadErr (accepted : Bool) : Err := if accepted then .ok else .invalidPoint

theorem eq_true_iff_loadErr (b : Bool) : b = true ↔ loadErr b = .ok := by cases b <;> decide

theorem eq_false_iff_loadErr (b : Bool) : b = false ↔ loadErr b = .invalidPoint := by cases b <;> decide

variable {s : State} {addr : BitVec 15}

theorem exists_exec_ldg1_err (hin : addr.toNat + 64 ≤ s.params.bufBytes) (rt : Fin 8) :
    ∃ t, exec (.ldg1 rt addr) s = .next t ∧ t.err = loadErr (parseG1At s.buf addr.toNat).isSome := by
  rcases hP : parseG1At s.buf addr.toNat with _ | P
  · exact ⟨_, exec_ldg1_none hin hP, rfl⟩
  · exact ⟨_, exec_ldg1_some hin hP, rfl⟩

theorem exists_exec_ldg2_err (hin : addr.toNat + 128 ≤ s.params.bufBytes) (rt : Fin 4) :
    ∃ t, exec (.ldg2 rt addr) s = .next t ∧ t.err = loadErr (parseG2At s.params.wireOrder s.buf addr.toNat).isSome := by
  rcases hP : parseG2At s.params.wireOrder s.buf addr.toNat with _ | P
  · exact ⟨_, exec_ldg2_none hin hP, rfl⟩
  · exact ⟨_, exec_ldg2_some hin hP, rfl⟩

end Sys2Proof.Machine
end

section
/-! The obligations of the curve commands (42_curve.md). -/

open Sys2Proof Sys2Proof.Machine

/-- Settles O26: the model's sum solves the equations of the group law, on the canonical values registers hold. -/
theorem g1addIsTheGroupLaw : Obligations.G1addIsTheGroupLaw := by
  intro rd ra rb s
  refine ⟨_, exec_g1add s rd ra rb, g1Reduced_g1Words _, groupLaw_g1Words_ptAdd _ _, fun h hred => ?_, fun h hred => ?_⟩
  · rw [State.point1_eq_inf h]
    exact g1Words_g1Canon hred
  · rw [State.point1_eq_inf h, ptAdd_inf]
    exact g1Words_g1Canon hred

/-- Settles O27: the same over `Fq2`. -/
theorem g2addIsTheGroupLaw : Obligations.G2addIsTheGroupLaw := by
  intro rd ra rb s
  refine ⟨_, exec_g2add s rd ra rb, g2Reduced_g2Words _, groupLaw_g2Words_ptAdd _ _, fun h hred => ?_, fun h hred => ?_⟩
  · rw [State.point2_eq_inf h]
    exact g2Words_g2Canon hred
  · rw [State.point2_eq_inf h, ptAdd_inf]
    exact g2Words_g2Canon hred

/-- Settles O28: on points of the groups the ladder is repeated addition. -/
theorem scalarMultiplesAreRepeatedSums : Obligations.ScalarMultiplesAreRepeatedSums := by
  have := fact_q
  have := fact_fq2
  refine ⟨fun rd ra rb s => ⟨_, exec_g1smul s rd ra rb, fun hv => ?_, fun h0 => ?_, fun hinf => ?_⟩,
    fun rd ra rb s => ⟨_, exec_g2smul s rd ra rb, fun hv => ?_, fun h0 => ?_, fun hinf => ?_⟩⟩
  · exact congrArg g1Words (ptMul_eq_iterate (g1Valid_iff.mp hv).2 (s.raw_lt rb))
  · rw [h0, ptMul_zero, g1Words]
  · rw [State.point1_eq_inf hinf, ptMul_inf, g1Words]
  · exact congrArg g2Words (ptMul_eq_iterate (g2Valid_iff.mp hv).2 (s.raw_lt rb))
  · rw [h0, ptMul_zero, g2Words]
  · rw [State.point2_eq_inf hinf, ptMul_inf, g2Words]

/-- Settles O29: a point of the groups has order dividing `r`. -/
theorem scalarsActModuloTheOrder : Obligations.ScalarsActModuloTheOrder := by
  have := fact_q
  have := fact_fq2
  refine ⟨fun rd ra rb rb' s hv => ?_, fun rd ra rb rb' s hv => ?_⟩
  · obtain ⟨hred, hgood⟩ := g1Valid_iff.mp hv
    rw [exec_g1smul, exec_g1smul]
    refine ⟨fun h => ?_, fun h => ?_, fun h => ?_, fun h => ?_⟩
    · rw [State.point1, ptMul_mod hgood (s.raw_lt rb) (s.raw_lt rb') h]
    · rw [h, State.point1, ptMul_r hgood]
      rfl
    · rw [h, State.point1, ptMul_r_succ hgood, g1Words_g1Canon hred]
      rfl
    · rw [h, State.point1, ptMul_pred_r hgood (by decide)]
      rfl
  · obtain ⟨hred, hgood⟩ := g2Valid_iff.mp hv
    rw [exec_g2smul, exec_g2smul]
    refine ⟨fun h => ?_, fun h => ?_, fun h => ?_, fun h => ?_⟩
    · rw [State.point2, ptMul_mod hgood (s.raw_lt rb) (s.raw_lt rb') h]
    · rw [h, State.point2, ptMul_r hgood]
      rfl
    · rw [h, State.point2, ptMul_r_succ hgood, g2Words_g2Canon hred]
      rfl
    · rw [h, State.point2, ptMul_pred_r hgood (by decide)]
      rfl

/-- Settles O30: the candidates are the spelling of infinity and the canonical solutions of the equation. -/
theorem onCurvePredicates : Obligations.OnCurvePredicates := by
  constructor
  · intro addr s hin x y
    exact ⟨_, (exec_g1onc s addr).trans (withRegion_inside hin), isSome_g1Candidate_iff⟩
  · intro addr s hin e x y
    have hx : x = wireExt2 s.params.wireOrder s.buf addr.toNat := ite_eq_wireExt2 ..
    have hy : y = wireExt2 s.params.wireOrder s.buf (addr.toNat + 64) := ite_eq_wireExt2 ..
    rw [hx, hy]
    exact ⟨_, (exec_g2onc s addr).trans (withRegion_inside hin), isSome_g2Candidate_iff⟩

/-- Settles O31: both commands parse the same bytes, and a load ends by what the parser answers. -/
theorem subgroupPredicatesMatchTheLoads : Obligations.SubgroupPredicatesMatchTheLoads := by
  refine ⟨fun addr s hin => ⟨_, (exec_g1subg s addr).trans (withRegion_inside hin), fun rt => ?_⟩,
    fun addr s hin => ⟨_, (exec_g2subg s addr).trans (withRegion_inside hin), fun rt => ?_⟩⟩
  · obtain ⟨t, ht, herr⟩ := exists_exec_ldg1_err hin rt
    exact ⟨t, ht, herr ▸ eq_true_iff_loadErr _, herr ▸ eq_false_iff_loadErr _⟩
  · obtain ⟨t, ht, herr⟩ := exists_exec_ldg2_err hin rt
    exact ⟨t, ht, herr ▸ eq_true_iff_loadErr _, herr ▸ eq_false_iff_loadErr _⟩

/-- Settles O32: the curve has `r` points, so the subgroup line rejects nothing. -/
theorem g1SubgroupTestIsTheCurveTest : Obligations.G1SubgroupTestIsTheCurveTest := by
  intro addr s
  simp only [exec_g1subg, exec_g1onc, parseG1At, parseG1_eq_g1Candidate]

end

section
/-! SUPPORT. The Poseidon permutation over `ZMod r` (43_poseidon.md R180), and each Poseidon command as its operand form
applied to an ending (R181, R183). -/

namespace Sys2Proof.Machine

/-! ## The rounds -/

theorem poseidonRounds_eq_foldl (pos : Pos) (n rnd : Nat) (s : Vec3 Nat) :
    poseidonRounds pos n rnd s = (List.range' rnd n).foldl (fun st rnd => poseidonRound pos rnd st) s := by
  induction n generalizing rnd s with
  | zero => rfl
  | succ n ih => rw [poseidonRounds, ih, List.range'_succ, List.foldl_cons]

theorem poseidonPerm_eq_foldl (pos : Pos) (s : Vec3 Nat) :
    poseidonPerm pos s = (List.range (pos.rf + pos.rp)).foldl (fun st rnd => poseidonRound pos rnd st) s := by
  rw [poseidonPerm, poseidonRounds_eq_foldl, List.range_eq_range']

theorem cast_sbox (pos : Pos) (x : Nat) : (sbox pos x : ZMod Config.r) = x ^ pos.alpha := by
  rw [sbox, powMod_eq r_prime.one_lt, cast_mod, Nat.cast_pow]

theorem mixRow_lt (row s : Vec3 Nat) : mixRow row s < Config.r := Nat.mod_lt _ r_prime.pos

theorem cast_mixRow (row s : Vec3 Nat) :
    (mixRow row s : ZMod Config.r) = row.x0 * s.x0 + row.x1 * s.x1 + row.x2 * s.x2 := by
  simp only [mixRow, cast_mod, Nat.cast_add, Nat.cast_mul]

theorem sboxLayer_full {pos : Pos} {rnd : Nat} (h : rnd < pos.rf / 2 ∨ pos.rf / 2 + pos.rp ≤ rnd) (s : Vec3 Nat) :
    sboxLayer pos rnd s = ⟨sbox pos s.x0, sbox pos s.x1, sbox pos s.x2⟩ := if_pos (decide_eq_true h)

theorem sboxLayer_partial {pos : Pos} {rnd : Nat} (h : ¬(rnd < pos.rf / 2 ∨ pos.rf / 2 + pos.rp ≤ rnd))
    (s : Vec3 Nat) : sboxLayer pos rnd s = ⟨sbox pos s.x0, s.x1, s.x2⟩ := if_neg (by rwa [fullRound, decide_eq_true_iff])

/-- One element of a round's result: a row of the matrix times the elements after constants and S-box. -/
theorem cast_mixRow_round (pos : Pos) (rnd : Nat) (row s : Vec3 Nat) :
    let full := rnd < pos.rf / 2 ∨ pos.rf / 2 + pos.rp ≤ rnd
    let v0 := (s.x0 : ZMod Config.r) + (pos.rc.getD (3 * rnd) 0 : Nat)
    let v1 := (s.x1 : ZMod Config.r) + (pos.rc.getD (3 * rnd + 1) 0 : Nat)
    let v2 := (s.x2 : ZMod Config.r) + (pos.rc.getD (3 * rnd + 2) 0 : Nat)
    (mixRow row (sboxLayer pos rnd (addConstants pos rnd s)) : ZMod Config.r) =
      row.x0 * v0 ^ pos.alpha + row.x1 * (if full then v1 ^ pos.alpha else v1) +
        row.x2 * (if full then v2 ^ pos.alpha else v2) := by
  intro full v0 v1 v2
  by_cases h : full
  · simp only [cast_mixRow, sboxLayer_full h, cast_sbox, addConstants, cast_addMod, if_pos h, v0, v1, v2]
  · simp only [cast_mixRow, sboxLayer_partial h, cast_sbox, addConstants, cast_addMod, if_neg h, v0, v1, v2]

/-! ## Three consecutive registers -/

/-- A register read after another is written. -/
theorem get_set_ne {α : Type} {n : Nat} (v : Vector α n) {i j : Fin n} (h : i ≠ j) (x : α) :
    (v.set i x).get j = v.get j := by
  rw [Vector.get_eq_getElem, Vector.get_eq_getElem, Vector.getElem_set_ne _ _ (Fin.val_ne_of_ne h)]

/-- Registers `i`, `i + 1` and `i + 2` written in this order, as PPERM writes a state (43_poseidon.md R181). -/
def setTriple (f : Vector Word 16) (i : Fin 16) (v : Vec3 Nat) : Vector Word 16 :=
  ((f.set i (montWord .scalar v.x0)).set (i + 1 : Fin 16) (montWord .scalar v.x1)).set (i + 2 : Fin 16)
    (montWord .scalar v.x2)

theorem toNat_get_setTriple (f : Vector Word 16) (i : Fin 16) (v : Vec3 Nat) :
    ((setTriple f i v).get i).toNat = toMont .scalar v.x0 ∧ ((setTriple f i v).get (i + 1)).toNat = toMont .scalar v.x1 ∧
    ((setTriple f i v).get (i + 2)).toNat = toMont .scalar v.x2 := by
  refine ⟨?_, ?_, ?_⟩
  · rw [setTriple, get_set_ne _ (by omega), get_set_ne _ (by omega), get_set_self, toNat_montWord]
  · rw [setTriple, get_set_ne _ (by omega), get_set_self, toNat_montWord]
  · rw [setTriple, get_set_self, toNat_montWord]

/-- For `i` up to 13 the three indices do not wrap around (30_encoding.md R94). -/
theorem get_setTriple_outside (f : Vector Word 16) {i : Fin 16} (h : i.val ≤ 13) (v : Vec3 Nat) (j : Fin 16)
    (hj : j.val < i.val ∨ i.val + 3 ≤ j.val) : (setTriple f i v).get j = f.get j := by
  rw [setTriple, get_set_ne _ (by omega), get_set_ne _ (by omega), get_set_ne _ (by omega)]

/-! ## The two commands -/

section

variable (rd ra rb : Fin 16) (s : State)

theorem exec_phash : exec (.phash rd ra rb) s = withElements .scalar ra rb s fun a b =>
    .next (completed (s.setF rd
      (montWord .scalar (poseidonPerm s.params.pos ⟨0, fromMont .scalar a, fromMont .scalar b⟩).x0))) := rfl

variable {rd ra s}

theorem wellFormed_pperm_iff : (Instr.pperm rd ra).wellFormed = true ↔ rd.val ≤ 13 ∧ ra.val ≤ 13 := by
  simp only [Instr.wellFormed, Bool.and_eq_true, decide_eq_true_iff]

theorem exec_pperm (hd : rd.val ≤ 13) (ha : ra.val ≤ 13) : exec (.pperm rd ra) s =
    withElement .scalar ra s fun a0 => withElement .scalar (ra + 1) s fun a1 => withElement .scalar (ra + 2) s fun a2 =>
      .next (completed { s with
        f := setTriple s.f rd
          (poseidonPerm s.params.pos ⟨fromMont .scalar a0, fromMont .scalar a1, fromMont .scalar a2⟩) }) :=
  if_pos (wellFormed_pperm_iff.mpr ⟨hd, ha⟩)

/-- A term that is not well formed (30_encoding.md R94). -/
theorem exec_pperm_illFormed (h : (Instr.pperm rd ra).wellFormed ≠ true) :
    exec (.pperm rd ra) s = .next (failed .illegalCommand s) := if_neg h

/-- Three field operands in range. -/
theorem withElement_three_inRange {fs : FieldSel} {i j k : Fin 16} {use : Nat → Nat → Nat → Result}
    (hi : s.raw i < modulus fs) (hj : s.raw j < modulus fs) (hk : s.raw k < modulus fs) :
    (withElement fs i s fun a => withElement fs j s fun b => withElement fs k s fun c => use a b c) =
      use (s.raw i) (s.raw j) (s.raw k) := by
  rw [withElement_inRange hi, withElement_inRange hj, withElement_inRange hk]

/-- Three field operands, one of them out of range (40_field.md R120). -/
theorem withElement_three_outOfRange {fs : FieldSel} {i j k : Fin 16} {use : Nat → Nat → Nat → Result}
    (h : modulus fs ≤ s.raw i ∨ modulus fs ≤ s.raw j ∨ modulus fs ≤ s.raw k) :
    (withElement fs i s fun a => withElement fs j s fun b => withElement fs k s fun c => use a b c) =
      .next (failed .outOfRange s) := by
  rcases Nat.lt_or_ge (s.raw i) (modulus fs) with hi | hi
  · rw [withElement_inRange hi]
    exact withElements_outOfRange (h.resolve_left (Nat.not_le.mpr hi))
  · exact withElement_outOfRange hi

end

end Sys2Proof.Machine
end

section
/-! The obligations of the Poseidon commands (43_poseidon.md). -/

open Sys2Proof Sys2Proof.Machine

/-- Settles O33: the rounds are a fold over their numbers, and the residues of a round are computed in `ZMod r`. -/
theorem poseidonRoundsAsSpecified : Obligations.PoseidonRoundsAsSpecified := fun pos s _ =>
  ⟨poseidonPerm_eq_foldl pos s, fun rnd _ => ⟨cast_mixRow_round pos rnd _ s, cast_mixRow_round pos rnd _ s,
    cast_mixRow_round pos rnd _ s, mixRow_lt _ _, mixRow_lt _ _, mixRow_lt _ _⟩⟩

/-- Settles O34: the operands are read from the state before any of the three registers is written. -/
theorem ppermPermutesThreeRegisters : Obligations.PpermPermutesThreeRegisters := by
  intro rd ra s
  refine ⟨fun hd ha h0 h1 h2 => ?_, fun hd ha h => ?_, fun h => ?_⟩
  · rw [exec_pperm hd ha]
    exact ⟨_, withElement_three_inRange h0 h1 h2, toNat_get_setTriple s.f rd _, get_setTriple_outside s.f hd _⟩
  · rw [exec_pperm hd ha]
    exact withElement_three_outOfRange h
  · have hwf : (Instr.pperm rd ra).wellFormed ≠ true := fun hwf => by
      obtain ⟨hd, ha⟩ := wellFormed_pperm_iff.mp hwf
      omega
    exact ⟨exec_pperm_illFormed hwf, decode_encode_pperm_illFormed hwf⟩

/-- Settles O35: the hash is element 0 of the permutation of capacity 0 and the two elements. -/
theorem phashHashesTwoElements : Obligations.PhashHashesTwoElements := by
  intro rd ra rb s
  rw [exec_phash]
  exact ⟨fun ha hb => ⟨_, withElements_inRange ha hb, toNat_montWord _ _⟩, fun h => withElements_outOfRange h⟩

end

section
/-! SUPPORT. What the pairing commands answer (44_pairing.md R196 to R198), and the powers of `Fq12`. -/

namespace Sys2Proof.Machine

/-! ## Powers in `Fq12` -/

/-- What ACC holds is canonical, whatever its words. -/
theorem canonical_accCanon (a : AccReg) : Canonical12 (accCanon a) :=
  have h (c : Ext2 Word) : Canonical2 (ext2Canon c) := ⟨canonWord_lt .base c.re, canonWord_lt .base c.im⟩
  ⟨h _, h _, h _, h _, h _, h _⟩

theorem canonical_fq12Pow (f : Fq12) (e : Nat) : Canonical12 (fq12Pow f e) := by
  rw [fq12Pow_eq_iterate]
  cases e with
  | zero => exact canonical_fq12One
  | succ e =>
    rw [Function.iterate_succ_apply']
    exact canonical_fq12Mul _ _

theorem fq12Mul_mul_mul_comm (a b c d : Fq12) :
    fq12Mul (fq12Mul a b) (fq12Mul c d) = fq12Mul (fq12Mul a c) (fq12Mul b d) := by
  rw [fq12Mul_assoc, ← fq12Mul_assoc b, fq12Mul_comm b, fq12Mul_assoc c, ← fq12Mul_assoc]

/-- The power of a product is the product of the powers (44_pairing.md R195). -/
theorem fq12Pow_fq12Mul (a b : Fq12) (e : Nat) : fq12Pow (fq12Mul a b) e = fq12Mul (fq12Pow a e) (fq12Pow b e) := by
  simp only [fq12Pow_eq_iterate]
  induction e with
  | zero => exact (fq12Mul_one canonical_fq12One).symm
  | succ e ih => simp only [Function.iterate_succ_apply', ih, fq12Mul_mul_mul_comm]

theorem canonical_finalExp (f : Fq12) : Canonical12 (finalExp f) := by
  rw [finalExp]
  exact canonical_fq12Pow f _

theorem finalExp_one : finalExp fq12One = fq12One := fq12Pow_one _

theorem finalExp_fq12Mul (a b : Fq12) : finalExp (fq12Mul a b) = fq12Mul (finalExp a) (finalExp b) :=
  fq12Pow_fq12Mul a b _

/-- A Miller value with infinity on either side is the empty product (44_pairing.md R193). -/
theorem miller_of_inf {P : Pt Nat} {Q : TwistPt} (h : P = .inf ∨ Q = .inf) : miller P Q = fq12One := by
  obtain rfl | rfl := h
  · rfl
  · cases P <;> rfl

theorem groth16Accepts_iff {k : KeyStore} {A : Pt Nat} {B : TwistPt} {C : Pt Nat} {xs : List Nat} :
    groth16Accepts k A B C xs = true ↔ finalExp (groth16Product k A B C xs) = fq12One := by
  rw [groth16Accepts, decide_eq_true_iff]

/-! ## The commands -/

section

variable (s : State)

theorem exec_accone : exec .accone s = .next (completed { s with acc := accWords fq12One }) := by
  rw [exec, execAccone, complete_eq]
  generalize accWords fq12One = a
  rfl

theorem exec_fexp : exec .fexp s = .next (completed { s with
    acc := accWords (finalExp (accCanon s.acc)), t := decide (finalExp (accCanon s.acc) = fq12One) }) := by
  rw [exec, execFexp, completeT_setAcc]

variable {s} {ra : Fin 8} {rb : Fin 4}

theorem exec_miller (hP : g1Valid (s.g.get ra) = true) (hQ : g2Valid (s.h.get rb) = true) :
    exec (.miller ra rb) s = .next (completed { s with
      acc := accWords (fq12Mul (accCanon s.acc) (miller (s.point1 ra) (s.point2 rb))) }) := by
  rw [exec, execMiller, hP, hQ, Bool.and_self, if_pos rfl, complete_eq]
  rfl

/-- MILLER after a command that wrote ACC alone; stated for any content of ACC, so that none is computed. -/
theorem exec_miller_of_acc (a : AccReg) (hP : g1Valid (s.g.get ra) = true) (hQ : g2Valid (s.h.get rb) = true) :
    exec (.miller ra rb) (completed { s with acc := a }) = .next (completed { s with
      acc := accWords (fq12Mul (accCanon a) (miller (s.point1 ra) (s.point2 rb))) }) :=
  exec_miller (s := completed { s with acc := a }) hP hQ

theorem exec_miller_refused (h : ¬(g1Valid (s.g.get ra) = true ∧ g2Valid (s.h.get rb) = true)) :
    exec (.miller ra rb) s = .refused .pairingOffSubgroup := by
  rw [exec, execMiller, if_neg (by rwa [Bool.and_eq_true])]

theorem exec_miller_refused_of_acc (a : AccReg) (h : ¬(g1Valid (s.g.get ra) = true ∧ g2Valid (s.h.get rb) = true)) :
    exec (.miller ra rb) (completed { s with acc := a }) = .refused .pairingOffSubgroup :=
  exec_miller_refused (s := completed { s with acc := a }) h

end

/-- Two commands one after the other. -/
theorem execAll_pair {i j : Instr} {s t : State} (h : exec i s = .next t) : execAll [i, j] s = exec j t := by
  simp only [execAll, h]
  cases exec j t <;> rfl

theorem execAll_refused {i : Instr} {is : List Instr} {s : State} {e : Refusal} (h : exec i s = .refused e) :
    execAll (i :: is) s = .refused e := by
  simp only [execAll, h]

/-- Two MILLER commands read the same registers and multiply the same accumulator: either one of the pairs is refused,
or ACC gets both Miller values (R197). -/
theorem execAll_miller_miller (ra ra' : Fin 8) (rb rb' : Fin 4) (s : State) :
    execAll [.miller ra rb, .miller ra' rb'] s =
      if (g1Valid (s.g.get ra) = true ∧ g2Valid (s.h.get rb) = true) ∧
          (g1Valid (s.g.get ra') = true ∧ g2Valid (s.h.get rb') = true) then
        .next (completed { s with acc := accWords (fq12Mul (accCanon s.acc)
          (fq12Mul (miller (s.point1 ra) (s.point2 rb)) (miller (s.point1 ra') (s.point2 rb')))) })
      else .refused .pairingOffSubgroup := by
  by_cases h : g1Valid (s.g.get ra) = true ∧ g2Valid (s.h.get rb) = true
  · rw [execAll_pair (exec_miller h.1 h.2)]
    by_cases h' : g1Valid (s.g.get ra') = true ∧ g2Valid (s.h.get rb') = true
    · rw [if_pos ⟨h, h'⟩, exec_miller_of_acc _ h'.1 h'.2, accCanon_accWords (canonical_fq12Mul _ _), fq12Mul_assoc]
    · rw [if_neg fun hh => h' hh.2, exec_miller_refused_of_acc _ h']
  · rw [if_neg fun hh => h hh.1, execAll_refused (exec_miller_refused h)]

end Sys2Proof.Machine
end

section
/-! SUPPORT. The lines of the Miller function (44_pairing.md R192) and its loop over the bits of `6x + 2` (R193): after `k`
turns the running point is the multiple of `Q` that the leading `k + 1` bits spell. -/

namespace Sys2Proof.Machine

/-! ## Lines -/

theorem toFq2_scale (a : Ext2 Nat) (x : Nat) : toFq2 (fq2Scale a x) = toFq2 a * toFq2 ⟨x, 0⟩ := by
  ext <;> simp [toFq2, fq2Scale, cast_mulMod]

theorem toFq12_slopeLine (lam xT yT : Ext2 Nat) (xP yP : Nat) : toFq12 (slopeLine lam xT yT xP yP) =
    ⟨toFq2 ⟨yP, 0⟩, -(toFq2 lam * toFq2 ⟨xP, 0⟩), 0, toFq2 lam * toFq2 xT - toFq2 yT, 0, 0⟩ := by
  simp only [toFq12, slopeLine, toFq2_neg, toFq2_scale, toFq2_sub, toFq2_mul, toFq2_zero]

theorem toFq12_verticalLine (xT : Ext2 Nat) (xP : Nat) :
    toFq12 (verticalLine xT xP) = ⟨toFq2 ⟨xP, 0⟩, 0, -toFq2 xT, 0, 0, 0⟩ := by
  simp only [toFq12, verticalLine, toFq2_neg, toFq2_zero]

/-- The line of two finite points has the coefficients of R192, in each of its cases. -/
theorem lineLaw_lineValue {xT yT xS yS : Ext2 Nat} (hxT : Canonical2 xT) (hyT : Canonical2 yT) (hxS : Canonical2 xS)
    (hyS : Canonical2 yS) (xP yP : Nat) :
    lineLaw (toFq2 xT) (toFq2 yT) (toFq2 xS) (toFq2 yS) (toFq2 ⟨xP, 0⟩) (toFq2 ⟨yP, 0⟩)
      (toFq12 (lineValue (.aff xT yT) (.aff xS yS) xP yP)) := by
  have := fact_q
  have := fact_fq2
  have hx := fq2Model.val_eq_iff hxT hxS
  have hy := fq2Model.val_eq_iff hyT hyS
  have hy0 := fq2Model.val_eq_zero_iff hyT
  simp only [lineValue]
  split_ifs with h h'
  · obtain ⟨hyy, hne⟩ := h'
    have hne0 := mt hy0.mp hne
    exact .inr ⟨_, toFq12_slopeLine .., .inl ⟨hx.mpr h, hy.mpr hyy, hne0, fq2Model.val_tangent_mul hne0⟩⟩
  · exact .inl ⟨hx.mpr h, fun ⟨hyy, hne⟩ => h' ⟨hy.mp hyy, mt hy0.mpr hne⟩, toFq12_verticalLine ..⟩
  · have hxne := mt hx.mp h
    exact .inr ⟨_, toFq12_slopeLine .., .inr ⟨hxne, fq2Model.val_chord_mul hxne⟩⟩

/-! ## The numbers the leading bits of `6x + 2` spell -/

theorem loopPrefix_zero : loopPrefix 0 = 1 := by decide

theorem loopPrefix_last : loopPrefix 64 = Config.loopCount := by decide

theorem loopPrefix_le (k : Nat) : loopPrefix k ≤ Config.loopCount :=
  loopPrefix_last ▸ (Nat.div_le_self _ _).trans_eq (Nat.div_one _).symm

theorem loopPrefix_succ_div_two {k : Nat} (hk : k < 64) : loopPrefix (k + 1) / 2 = loopPrefix k := by
  rw [loopPrefix, Nat.div_div_eq_div_mul, ← pow_succ, loopPrefix, show 64 - (k + 1) + 1 = 64 - k by omega]

theorem loopPrefix_pos {k : Nat} (hk : k ≤ 64) : 0 < loopPrefix k := by
  induction k with
  | zero => decide
  | succ k ih =>
    have := loopPrefix_succ_div_two hk
    have := ih (by omega)
    omega

/-- The bits the loop runs over are the last bits of those numbers. -/
theorem bitsBelowLeading_loopCount : bitsBelowLeading Config.loopCount =
    (List.range 64).map fun k => decide (loopPrefix (k + 1) % 2 = 1) := by decide

theorem two_mul_loopCount_succ_lt_r : 2 * Config.loopCount + 1 < Config.r := by decide

/-! ## Multiples -/

theorem ptAdd_ptMul_self {Q : TwistPt} (hQ : G2Good Q) {n : Nat} (hn : 2 * n < 2 ^ 256) :
    ptAdd fq2 (ptMul fq2 n Q) (ptMul fq2 n Q) = ptMul fq2 (2 * n) Q := by
  have := fact_q
  have := fact_fq2
  rw [Nat.two_mul] at hn ⊢
  exact ptMul_add_ptMul hQ hn

theorem ptAdd_ptMul {Q : TwistPt} (hQ : G2Good Q) {n : Nat} (hn : n + 1 < 2 ^ 256) :
    ptAdd fq2 (ptMul fq2 n Q) Q = ptMul fq2 (n + 1) Q := by
  have := fact_q
  have := fact_fq2
  rw [← ptMul_add_ptMul hQ hn, ptMul_one hQ]

/-! ## The loop -/

section

variable (xP yP : Nat) (Q : TwistPt)

/-- The running pair after `k` turns of the Miller loop (R193). -/
def millerState (k : Nat) : MillerAcc :=
  ((List.range k).map fun i => decide (loopPrefix (i + 1) % 2 = 1)).foldl (millerTurn xP yP Q) ⟨fq12One, Q⟩

theorem millerState_succ (k : Nat) : millerState xP yP Q (k + 1) =
    millerTurn xP yP Q (millerState xP yP Q k) (decide (loopPrefix (k + 1) % 2 = 1)) := by
  simp only [millerState, List.range_succ, List.map_append, List.foldl_append, List.map_cons, List.map_nil,
    List.foldl_cons, List.foldl_nil]

/-- The Miller value: 64 turns, then the two closing factors (R193). -/
theorem miller_aff (xQ yQ : Ext2 Nat) : miller (.aff xP yP) (.aff xQ yQ) =
    (millerAdd xP yP (millerAdd xP yP (millerState xP yP (.aff xQ yQ) 64) (frob1 (.aff xQ yQ)))
      (ptNeg fq2 (frob2 (.aff xQ yQ)))).f := by
  rw [miller, bitsBelowLeading_loopCount]
  rfl

variable {Q}

/-- After `k` turns the running point is the multiple of `Q` that the leading `k + 1` bits spell. -/
theorem millerState_T (hQ : G2Good Q) {k : Nat} (hk : k ≤ 64) :
    (millerState xP yP Q k).T = ptMul fq2 (loopPrefix k) Q := by
  have hr := two_mul_loopCount_succ_lt_r
  have hs := r_lt_scalar
  induction k with
  | zero =>
    have := fact_q
    have := fact_fq2
    rw [loopPrefix_zero]
    exact (ptMul_one hQ).symm
  | succ k ih =>
    have hle := loopPrefix_le k
    have hdiv := loopPrefix_succ_div_two hk
    have hdouble := ptAdd_ptMul_self hQ (n := loopPrefix k) (by omega)
    rw [millerState_succ, millerTurn, ih (by omega), hdouble]
    by_cases hb : loopPrefix (k + 1) % 2 = 1
    · simp only [hb, decide_true, if_true, millerAdd]
      rw [ptAdd_ptMul hQ (by omega), show 2 * loopPrefix k + 1 = loopPrefix (k + 1) by omega]
    · simp only [hb, decide_false, Bool.false_eq_true, if_false]
      rw [show 2 * loopPrefix k = loopPrefix (k + 1) by omega]

/-- One turn multiplies the line of the doubling in, then, where the bit is 1, the line of the addition (R193). -/
theorem millerState_f_succ (hQ : G2Good Q) {k : Nat} (hk : k < 64) : (millerState xP yP Q (k + 1)).f =
    if loopPrefix (k + 1) % 2 = 1 then
      fq12Mul (fq12Mul (fq12Mul (millerState xP yP Q k).f (millerState xP yP Q k).f)
        (lineValue (ptMul fq2 (loopPrefix k) Q) (ptMul fq2 (loopPrefix k) Q) xP yP))
        (lineValue (ptMul fq2 (2 * loopPrefix k) Q) Q xP yP)
    else
      fq12Mul (fq12Mul (millerState xP yP Q k).f (millerState xP yP Q k).f)
        (lineValue (ptMul fq2 (loopPrefix k) Q) (ptMul fq2 (loopPrefix k) Q) xP yP) := by
  have hr := two_mul_loopCount_succ_lt_r
  have hs := r_lt_scalar
  have hle := loopPrefix_le k
  rw [millerState_succ, millerTurn, millerState_T xP yP hQ hk.le, ptAdd_ptMul_self hQ (by omega)]
  by_cases hb : loopPrefix (k + 1) % 2 = 1
  · simp only [hb, decide_true, if_true, millerAdd]
  · simp only [hb, decide_false, Bool.false_eq_true, if_false]

end

end Sys2Proof.Machine
end

section
/-! SUPPORT. The Frobenius maps of 44_pairing.md R191: they keep the twist, their constants are powers of `xi`, and on G2 the
closing lines of the Miller function are not vertical (R192). For the last: a vertical closing line is a relation between a
point and its images under `Frob1`; the relation passes to every further image, and with
`Frob2(Frob2(Q)) + Q = Frob2(Q)` it makes a number that `r` does not divide take `Q` to infinity. -/

namespace Sys2Proof.Machine

open Config

/-! ## The constants -/

/-- The ladder of `Fq2` computes powers. -/
theorem toFq2_ladder (x : Ext2 Nat) (n k : Nat) :
    toFq2 (ladder fq2Mul ⟨1, 0⟩ x n k) = toFq2 x ^ (k % 2 ^ n) := by
  induction n generalizing k with
  | zero => rw [ladder_zero_bits, toFq2_one, pow_zero, Nat.mod_one, pow_zero]
  | succ n ih =>
    have hk : k % 2 ^ (n + 1) = k / 2 % 2 ^ n + k / 2 % 2 ^ n + k % 2 := by rw [pow_succ', Nat.mod_mul]; omega
    rw [ladder_succ, hk]
    rcases Nat.mod_two_eq_zero_or_one k with h | h
    · rw [if_neg (by omega), h, toFq2_mul, ih, add_zero, pow_add]
    · rw [if_pos h, h, toFq2_mul, toFq2_mul, ih, pow_succ, pow_add]

theorem toFq2_eq_pow {a x : Ext2 Nat} {e : Nat} (h : a = ladder fq2Mul ⟨1, 0⟩ x (e.log2 + 1) e) :
    toFq2 a = toFq2 x ^ e := by
  rw [h, toFq2_ladder, Nat.mod_eq_of_lt Nat.lt_log2_self]

theorem toFq2_g12_eq_pow : toFq2 g12 = toFq2 xi ^ ((q - 1) / 3) := toFq2_eq_pow (by decide +kernel)

theorem toFq2_g13_eq_pow : toFq2 g13 = toFq2 xi ^ ((q - 1) / 2) := toFq2_eq_pow (by decide +kernel)

theorem toFq2_g22_eq_pow : toFq2 g22 = toFq2 xi ^ ((q ^ 2 - 1) / 3) := toFq2_eq_pow (by decide +kernel)

theorem toFq2_g23_eq_pow : toFq2 g23 = toFq2 xi ^ ((q ^ 2 - 1) / 2) := toFq2_eq_pow (by decide +kernel)

/-! ## The twist -/

/-- `Frob1` keeps the twist (R191). -/
theorem onCurve_frob1 {x y : Ext2 Nat} (h : onCurve fq2 b2 x y = true) :
    onCurve fq2 b2 (fq2Mul (fq2Conj x) g12) (fq2Mul (fq2Conj y) g13) = true := by
  have hconj := congrArg conj2 (onCurve_fq2_iff.mp h)
  have h13 : toFq2 g13 * toFq2 g13 = toFq2 g12 * toFq2 g12 * toFq2 g12 := by rw [g16_cube, g16_sq]; ring
  simp only [map_mul, map_add] at hconj
  rw [onCurve_fq2_iff]
  simp only [toFq2_mul, toFq2_conj]
  linear_combination (toFq2 g13 * toFq2 g13) * hconj + b2_conj + (conj2 (toFq2 x) ^ 3) * h13

/-- `Frob2` keeps the twist, since it is `Frob1` twice (R191). -/
theorem onCurve_frob2 {x y : Ext2 Nat} (h : onCurve fq2 b2 x y = true) :
    onCurve fq2 b2 (fq2Mul x g22) (fq2Mul y g23) = true := by
  obtain ⟨hx, hy⟩ := Pt.aff.inj (frob1_frob1 (.aff x y))
  rw [← hx, ← hy]
  exact onCurve_frob1 (onCurve_frob1 h)

/-! ## The running points of the closing lines -/

theorem ptNeg_frob2_ne_inf {P : TwistPt} (hP : P ≠ .inf) : ptNeg fq2 (frob2 P) ≠ .inf := by
  cases P with
  | inf => exact absurd rfl hP
  | aff x y => nofun

theorem frob1_ne_inf {P : TwistPt} (hP : P ≠ .inf) : frob1 P ≠ .inf := by
  cases P with
  | inf => exact absurd rfl hP
  | aff x y => nofun

/-- `[n]Q + Frob1(Q)`: where `n` is `6x + 2`, the running point after the first closing line (R193). -/
def closingPoint1 (n : Nat) (P : TwistPt) : TwistPt := ptAdd fq2 (ptMul fq2 n P) (frob1 P)

/-- `[n]Q + Frob1(Q) - Frob2(Q)`: the running point after the second. -/
def closingPoint2 (n : Nat) (P : TwistPt) : TwistPt := ptAdd fq2 (closingPoint1 n P) (ptNeg fq2 (frob2 P))

theorem loopCount_lt_scalar : loopCount < 2 ^ 256 := by decide

theorem canonPt_ptNeg_frob2 (P : TwistPt) : CanonPt Canonical2 (ptNeg fq2 (frob2 P)) := by
  cases P with
  | inf => trivial
  | aff x y => exact ⟨canonical_fq2Mul _ _, canonical_fq2Neg _⟩

section

variable {P : TwistPt} (hP : G2Good P) {n : Nat} (hn : n < 2 ^ 256)

include hP hn

theorem frob1_closingPoint1 : frob1 (closingPoint1 n P) = closingPoint1 n (frob1 P) := by
  rw [closingPoint1, frob1_ptAdd (hP.mul hn).canon (canonPt_frob1 P), frob1_ptMul hP.canon, closingPoint1]

theorem frob1_closingPoint2 : frob1 (closingPoint2 n P) = closingPoint2 n (frob1 P) := by
  have hgood : G2Good (closingPoint1 n P) := (hP.mul hn).add (good_frob1 hP)
  rw [closingPoint2, frob1_ptAdd hgood.canon (canonPt_ptNeg_frob2 P), frob1_closingPoint1 hP hn, frob1_ptNeg,
    closingPoint2, ← frob1_frob1, frob1_frob1 (frob1 P)]

end

theorem good_iterate_frob1 {P : TwistPt} (hP : G2Good P) (i : Nat) : G2Good (frob1^[i] P) := by
  induction i with
  | zero => exact hP
  | succ i ih =>
    rw [Function.iterate_succ_apply']
    exact good_frob1 ih

/-- A map that commutes with `Frob1` and takes a point to infinity takes its images there too. -/
theorem iterate_frob1_eq_inf {E : TwistPt → TwistPt} (hE : ∀ {P}, G2Good P → frob1 (E P) = E (frob1 P)) {P : TwistPt}
    (hP : G2Good P) (h : E P = .inf) (i : Nat) : E (frob1^[i] P) = .inf := by
  induction i with
  | zero => exact h
  | succ i ih =>
    rw [Function.iterate_succ_apply', ← hE (good_iterate_frob1 hP i), ih]
    rfl

/-- `Frob2` acts as a sixth root of one on G2. -/
theorem frob2_sixth_of_good {P : TwistPt} (hP : G2Good P) : ptAdd fq2 (frob2 (frob2 P)) P = frob2 P := by
  cases P with
  | inf => rfl
  | aff x y =>
    obtain ⟨⟨⟨hx, hy⟩, hc⟩, -⟩ := g2Good_aff_iff.mp hP
    exact frob2_sixth hx hy (onCurve_fq2_iff.mpr hc)

/-! ## Relations between the images of a point -/

section

variable {G : Type} [AddCommGroup G] {Q : Nat → G} (hsixth : ∀ i, Q (i + 4) + Q i = Q (i + 2)) {s : Int}

include hsixth

/-- A root of `s + X` is a root of `X^4 - X^2 + 1` only where `s^4 - s^2 + 1` vanishes. -/
theorem zsmul_eq_zero_of_closing1 (h : ∀ i, s • Q i + Q (i + 1) = 0) : (s ^ 4 - s ^ 2 + 1) • Q 0 = 0 := by
  have hnext (i : Nat) : Q (i + 1) = -(s • Q i) := eq_neg_of_add_eq_zero_right (h i)
  calc (s ^ 4 - s ^ 2 + 1) • Q 0 = Q 4 + Q 0 - Q 2 := by simp only [hnext]; module
    _ = 0 := sub_eq_zero.mpr (hsixth 0)

/-- A root of `s + X - X^2` is a root of `X^4 - X^2 + 1` only where their resultant vanishes. -/
theorem zsmul_eq_zero_of_closing2 (h : ∀ i, s • Q i + Q (i + 1) - Q (i + 2) = 0) :
    (s ^ 4 - 2 * s ^ 3 + 2 * s ^ 2 + 2 * s + 1) • Q 0 = 0 := by
  have hnext (i : Nat) : Q (i + 2) = s • Q i + Q (i + 1) := (sub_eq_zero.mp (h i)).symm
  calc (s ^ 4 - 2 * s ^ 3 + 2 * s ^ 2 + 2 * s + 1) • Q 0
      = (s ^ 2 + 2 * s + 1) • (Q 4 + Q 0 - Q 2) - (2 * s) • (Q 5 + Q 1 - Q 3) := by simp only [hnext]; module
    _ = 0 := by rw [sub_eq_zero.mpr (hsixth 0), sub_eq_zero.mpr (hsixth 1), smul_zero, smul_zero, sub_zero]

end

/-! ## On G2 no closing line is vertical -/

section

variable {E : Type} [Field E] [DecidableEq E] {M : FieldModel fq2 E} {b : Ext2 Nat} {P : TwistPt}
  {Q : Nat → (shortCurve (M.val b)).Point} (hQ : ∀ i, Stands M b (frob1^[i] P) (Q i))

include hQ

omit [DecidableEq E] in
theorem stands_frob1 (i : Nat) : Stands M b (frob1 (frob1^[i] P)) (Q (i + 1)) := by
  rw [← Function.iterate_succ_apply' frob1]
  exact hQ (i + 1)

omit [DecidableEq E] in
theorem stands_frob2 (i : Nat) : Stands M b (frob2 (frob1^[i] P)) (Q (i + 2)) := by
  rw [← frob1_frob1, ← Function.iterate_succ_apply' frob1, ← Function.iterate_succ_apply' frob1]
  exact hQ (i + 2)

theorem stands_closingPoint1 {n : Nat} (hn : n < 2 ^ 256) (i : Nat) :
    Stands M b (closingPoint1 n (frob1^[i] P)) ((n : Int) • Q i + Q (i + 1)) := by
  rw [natCast_zsmul]
  exact stands_add (stands_mul (hQ i) hn) (stands_frob1 hQ i)

theorem stands_closingPoint2 {n : Nat} (hn : n < 2 ^ 256) (i : Nat) :
    Stands M b (closingPoint2 n (frob1^[i] P)) ((n : Int) • Q i + Q (i + 1) - Q (i + 2)) := by
  rw [sub_eq_add_neg]
  exact stands_add (stands_closingPoint1 hQ hn i) (stands_neg (stands_frob2 hQ i))

end

section

variable [Fact (Nat.Prime q)] [Fact (∀ x : ZMod q, x ^ 2 ≠ -1 + 0 * x)] {P : TwistPt} (hP : G2Good P)

include hP

/-- The points of the twist that a point of G2 and its images under `Frob1` stand for. -/
theorem exists_stands_iterate_frob1 :
    ∃ Q : Nat → (shortCurve (fq2Model.val b2)).Point, ∀ i, Stands fq2Model b2 (frob1^[i] P) (Q i) :=
  ⟨fun i => (good_iterate_frob1 hP i).choose, fun i => (good_iterate_frob1 hP i).choose_spec.1⟩

variable {Q : Nat → (shortCurve (fq2Model.val b2)).Point} (hQ : ∀ i, Stands fq2Model b2 (frob1^[i] P) (Q i))

include hQ

theorem stands_sixth (i : Nat) : Q (i + 4) + Q i = Q (i + 2) := by
  have h4 : Stands fq2Model b2 (frob2 (frob2 (frob1^[i] P))) (Q (i + 4)) := by
    have := stands_frob2 hQ (i + 2)
    rwa [Function.iterate_succ_apply', Function.iterate_succ_apply', frob1_frob1] at this
  refine stands_right_unique (stands_add h4 (hQ i)) ?_
  rw [frob2_sixth_of_good (good_iterate_frob1 hP i)]
  exact stands_frob2 hQ i

/-- A number that takes a finite point of G2 to infinity is a multiple of `r`. -/
theorem r_dvd_of_zsmul_eq_zero (hfin : P ≠ .inf) {n : Int} (h : n • Q 0 = 0) : (r : Int) ∣ n := by
  obtain ⟨Q', hQ', hr⟩ := hP
  have hQ0 : Q 0 = Q' := stands_right_unique (hQ 0) hQ'
  refine dvd_of_zsmul_eq_zero (hQ0 ▸ hr) (fun h0 => hfin ?_) h
  have hs := hQ 0
  rw [h0] at hs
  exact stands_left_unique hs stands_inf

end

section

variable {P : TwistPt} (hP : G2Good P) (hfin : P ≠ .inf) {n : Nat} (hn : n < 2 ^ 256)

include hP hfin hn

theorem closingPoint1_ne_inf (hr : ¬(r : Int) ∣ (n : Int) ^ 4 - (n : Int) ^ 2 + 1) : closingPoint1 n P ≠ .inf := by
  have := fact_q
  have := fact_fq2
  intro h
  obtain ⟨Q, hQ⟩ := exists_stands_iterate_frob1 hP
  have hrel (i : Nat) : (n : Int) • Q i + Q (i + 1) = 0 :=
    stands_right_unique (stands_closingPoint1 hQ hn i)
      (iterate_frob1_eq_inf (frob1_closingPoint1 · hn) hP h i ▸ stands_inf)
  exact hr (r_dvd_of_zsmul_eq_zero hP hQ hfin (zsmul_eq_zero_of_closing1 (stands_sixth hP hQ) hrel))

theorem closingPoint2_ne_inf
    (hr : ¬(r : Int) ∣ (n : Int) ^ 4 - 2 * (n : Int) ^ 3 + 2 * (n : Int) ^ 2 + 2 * (n : Int) + 1) :
    closingPoint2 n P ≠ .inf := by
  have := fact_q
  have := fact_fq2
  intro h
  obtain ⟨Q, hQ⟩ := exists_stands_iterate_frob1 hP
  have hrel (i : Nat) : (n : Int) • Q i + Q (i + 1) - Q (i + 2) = 0 :=
    stands_right_unique (stands_closingPoint2 hQ hn i)
      (iterate_frob1_eq_inf (frob1_closingPoint2 · hn) hP h i ▸ stands_inf)
  exact hr (r_dvd_of_zsmul_eq_zero hP hQ hfin (zsmul_eq_zero_of_closing2 (stands_sixth hP hQ) hrel))

end

/-! ## No line of the Miller function is vertical (R192) -/

section

variable {P : TwistPt} (hP : G2Good P) (hfin : P ≠ .inf)

include hP hfin

theorem properLine_double {n : Nat} (h0 : 0 < n) (hn : 2 * n < r) :
    properLine (ptMul fq2 n P) (ptMul fq2 n P) := by
  have hs := r_lt_scalar
  have hne := ptMul_ne_inf hP hfin h0 (by omega)
  refine ⟨hne, hne, ?_⟩
  rw [ptAdd_ptMul_self hP (by omega)]
  exact ptMul_ne_inf hP hfin (by omega) hn

theorem properLine_add {n : Nat} (h0 : 0 < n) (hn : n + 1 < r) : properLine (ptMul fq2 n P) P := by
  have hs := r_lt_scalar
  refine ⟨ptMul_ne_inf hP hfin h0 (by omega), hfin, ?_⟩
  rw [ptAdd_ptMul hP (by omega)]
  exact ptMul_ne_inf hP hfin (by omega) hn

theorem properLine_closing1 : properLine (ptMul fq2 loopCount P) (frob1 P) :=
  ⟨ptMul_ne_inf hP hfin (by decide) (by decide), frob1_ne_inf hfin,
    closingPoint1_ne_inf hP hfin loopCount_lt_scalar (by decide +kernel)⟩

theorem properLine_closing2 :
    properLine (ptAdd fq2 (ptMul fq2 loopCount P) (frob1 P)) (ptNeg fq2 (frob2 P)) :=
  have ⟨_, _, hne⟩ := properLine_closing1 hP hfin
  ⟨hne, ptNeg_frob2_ne_inf hfin, closingPoint2_ne_inf hP hfin loopCount_lt_scalar (by decide +kernel)⟩

end

/-- What a register with a finite valid point holds. -/
theorem State.g2Good_of_point2 {s : State} {i : Fin 4} {xQ yQ : Ext2 Nat} (h : g2Valid (s.h.get i) = true)
    (hQ : s.point2 i = .aff xQ yQ) : G2Good (.aff xQ yQ) :=
  hQ ▸ (g2Valid_iff.mp h).2

end Sys2Proof.Machine
end

section
/-! The obligations of the pairing commands (44_pairing.md). -/

open Sys2Proof Sys2Proof.Machine

/-- Settles O36: the ladder of FEXP is the repeated product, and every power of one is one. -/
theorem acconeAndFexp : Obligations.AcconeAndFexp := by
  refine ⟨by decide +kernel, fun s => ⟨_, exec_accone s, accReduced_accWords _, accCanon_accWords canonical_fq12One⟩,
    fun s => ⟨_, _, exec_fexp s, accReduced_accWords _, ?_, ?_⟩,
    fun s => ⟨_, (execAll_pair (exec_accone s)).trans (exec_fexp _), ?_, rfl, ?_⟩⟩
  · rw [accCanon_accWords (canonical_finalExp _), finalExp, fq12Pow_eq_iterate]
  · rw [accCanon_accWords (canonical_finalExp _), decide_eq_true_iff]
  · rw [accCanon_accWords canonical_fq12One, finalExp_one, decide_eq_true_iff]
  · rw [accCanon_accWords (canonical_finalExp _), accCanon_accWords canonical_fq12One, finalExp_one]

/-- Settles O37: the loop's running point is the multiple of `Q` the bits so far spell, and the product is commutative. -/
theorem millerMultipliesOnePairing : Obligations.MillerMultipliesOnePairing := by
  refine ⟨fun xT yT xS yS xP yP hcanon => ?_, fun ra rb s xP yP xQ yQ _ hv _ hQ => ?_, fun ra ra' rb rb' s => ?_,
    fun ra rb s => ⟨fun hP hQ => ⟨_, exec_miller hP hQ, accReduced_accWords _, ?_, fun hinf => ?_⟩, fun h => ?_⟩⟩
  · simp only [List.forall_mem_cons] at hcanon
    obtain ⟨hxT, hyT, hxS, hyS, -⟩ := hcanon
    exact lineLaw_lineValue hxT hyT hxS hyS xP yP
  · have hgood := State.g2Good_of_point2 hv hQ
    refine ⟨fun k => (millerState xP yP (.aff xQ yQ) k).f, rfl, fun k hk => millerState_f_succ xP yP hgood hk, ?_⟩
    rw [miller_aff, millerAdd, millerAdd, millerState_T xP yP hgood le_rfl]
  · rw [execAll_miller_miller, execAll_miller_miller, fq12Mul_comm (miller (s.point1 ra) (s.point2 rb))]
    exact if_congr and_comm rfl rfl
  · exact accCanon_accWords (canonical_fq12Mul _ _)
  · have hone := miller_of_inf (hinf.imp State.point1_eq_inf State.point2_eq_inf)
    rw [accCanon_accWords (canonical_fq12Mul _ _), hone, fq12Mul_one (canonical_accCanon _)]
  · refine exec_miller_refused fun ⟨hP, hQ⟩ => ?_
    simp [hP, hQ] at h

/-- Settles O38: powers distribute over products in a commutative ring. -/
theorem finalExponentiationIsMultiplicative : Obligations.FinalExponentiationIsMultiplicative := by
  refine ⟨finalExp_fq12Mul, fun P Q h => ?_, fun k A B C xs => ?_⟩
  · rw [pairing, miller_of_inf h, finalExp_one]
  · rw [groth16Accepts_iff, groth16Product]
    simp only [finalExp_fq12Mul, pairing]

/-- Settles O39: `Frob2` is `Frob1` twice, and a vertical closing line would make a number that `r` does not divide take `Q` to
infinity. -/
theorem frobeniusKeepsTheTwist : Obligations.FrobeniusKeepsTheTwist := by
  refine ⟨fun x y => ⟨⟨_, _, rfl, ?_, ?_, onCurve_frob1⟩, ⟨_, _, rfl, toFq2_mul _ _, toFq2_mul _ _, onCurve_frob2⟩⟩,
    ⟨toFq2_g12_eq_pow, toFq2_g13_eq_pow, toFq2_g22_eq_pow, toFq2_g23_eq_pow, toFq2_g23⟩, fun rb s xQ yQ hv hQ => ?_⟩
  · rw [toFq2_mul, toFq2_conj]
    rfl
  · rw [toFq2_mul, toFq2_conj]
    rfl
  · have hgood := State.g2Good_of_point2 hv hQ
    have hfin : Pt.aff xQ yQ ≠ .inf := nofun
    have hr := two_mul_loopCount_succ_lt_r
    rw [loopPrefix_last]
    refine ⟨fun k hk => ?_, properLine_closing1 hgood hfin, properLine_closing2 hgood hfin⟩
    have h0 := loopPrefix_pos hk.le
    have hle := loopPrefix_le k
    exact ⟨properLine_double hgood hfin h0 (by omega), fun _ => properLine_add hgood hfin (by omega) (by omega)⟩

end

section
/-! SUPPORT. The key image (45_groth16.md R210): which images are refused and with which code, and the store an accepted one
leaves. From it, what VKLOAD answers (R212). -/

namespace Sys2Proof.Machine

variable {p : Params} {m : Memory} {a c L : Nat}

/-! ## The points of an image -/

theorem parseIc_succ_eq_some {n : Nat} {P : Pt Nat} {Ps : List (Pt Nat)} :
    parseIc m a (n + 1) = some (P :: Ps) ↔ parseG1At m a = some P ∧ parseIc m (a + 64) n = some Ps := by
  rw [parseIc]
  cases parseG1At m a with
  | none => simp
  | some P' => cases parseIc m (a + 64) n <;> simp

/-- The `IC` points are accepted when each is. -/
theorem parseIc_eq_some_iff {n : Nat} {l : List (Pt Nat)} :
    parseIc m a n = some l ↔ l.length = n ∧ ∀ i < n, parseG1At m (a + 64 * i) = l[i]? := by
  induction n generalizing a l with
  | zero => simp [parseIc, eq_comm (a := [])]
  | succ n ih =>
    have hpos (i : Nat) : a + 64 + 64 * i = a + 64 * (i + 1) := by omega
    cases l with
    | nil => exact ⟨fun h => absurd (parseIc_eq_some h).1 nofun, fun h => absurd h.1 nofun⟩
    | cons P Ps =>
      rw [parseIc_succ_eq_some, ih, Nat.forall_lt_succ_left, List.length_cons, Nat.succ_inj]
      simp only [hpos, List.getElem?_cons_zero, List.getElem?_cons_succ]
      exact and_left_comm

/-- The store that holds the points of an image (R212). -/
def loadedKey (icMax : Nat) (al : Pt Nat) (be ga de : TwistPt) (ic : List (Pt Nat)) : KeyStore :=
  { valid := true, alpha := g1Words al, beta := g2Words be, gamma := g2Words ga, delta := g2Words de
    icn := ic.length, ic := ic.map g1Words ++ List.replicate (icMax - ic.length) .inf }

/-- An image's points are accepted when each is, and the store holds them. -/
theorem parseKeyPoints_eq_some_iff {k : KeyStore} :
    parseKeyPoints p m a c = some k ↔ ∃ al be ga de ic,
      parseG1At m a = some al ∧ parseG2At p.wireOrder m (a + 64) = some be ∧
      parseG2At p.wireOrder m (a + 192) = some ga ∧ parseG2At p.wireOrder m (a + 320) = some de ∧
      parseIc m (a + 452) c = some ic ∧ k = loadedKey p.icMax al be ga de ic := by
  constructor
  · intro h
    simp only [parseKeyPoints] at h
    split at h
    · next al be ga de ic hal hbe hga hde hic =>
      cases h
      exact ⟨al, be, ga, de, ic, hal, hbe, hga, hde, hic, by rw [loadedKey, (parseIc_eq_some hic).1]⟩
    · cases h
  · rintro ⟨al, be, ga, de, ic, hal, hbe, hga, hde, hic, rfl⟩
    simp only [parseKeyPoints, hal, hbe, hga, hde, hic]
    rw [loadedKey, (parseIc_eq_some hic).1]

/-- One point that is not valid spoils the image. -/
theorem parseKeyPoints_eq_none
    (h : parseG1At m a = none ∨ parseG2At p.wireOrder m (a + 64) = none ∨ parseG2At p.wireOrder m (a + 192) = none ∨
      parseG2At p.wireOrder m (a + 320) = none ∨ ∃ i < c, parseG1At m (a + 452 + 64 * i) = none) :
    parseKeyPoints p m a c = none := by
  refine Option.eq_none_iff_forall_ne_some.mpr fun k hk => ?_
  obtain ⟨al, be, ga, de, ic, hal, hbe, hga, hde, hic, -⟩ := parseKeyPoints_eq_some_iff.mp hk
  obtain ⟨hlen, hall⟩ := parseIc_eq_some_iff.mp hic
  rcases h with h | h | h | h | ⟨i, hi, h⟩
  · cases hal.symm.trans h
  · cases hbe.symm.trans h
  · cases hga.symm.trans h
  · cases hde.symm.trans h
  · rw [hall i hi, List.getElem?_eq_none_iff] at h
    omega

section

variable {icMax : Nat} {al : Pt Nat} {be ga de : TwistPt} {ic : List (Pt Nat)} {i : Nat}

/-- The list of a loaded key begins with the image's points. -/
theorem getElem?_loadedKey_ic (hi : i < ic.length) :
    (loadedKey icMax al be ga de ic).ic[i]? = ic[i]?.map g1Words := by
  rw [loadedKey, List.getElem?_append_left (by rwa [List.length_map]), List.getElem?_map]

/-- Past the image's points a loaded key holds infinity. -/
theorem getElem?_loadedKey_ic_rest (hi : ic.length ≤ i) (hmax : i < icMax) :
    (loadedKey icMax al be ga de ic).ic[i]? = some .inf := by
  rw [loadedKey, List.getElem?_append_right (by rwa [List.length_map]), List.length_map, List.getElem?_replicate,
    if_pos (by omega)]

theorem length_loadedKey_ic (h : ic.length ≤ icMax) : (loadedKey icMax al be ga de ic).ic.length = icMax := by
  rw [loadedKey, List.length_append, List.length_map, List.length_replicate, Nat.add_sub_of_le h]

end

/-! ## The checks, in order -/

/-- A length or a count that no image has. -/
theorem parseKey_malformed (hc : c = be (m.readBytes (a + 448) 4)) (h : L < 452 ∨ c = 0 ∨ L ≠ 452 + 64 * c) :
    parseKey p m a L = .error .keyLoadFailed := by
  subst hc
  simp only [parseKey]
  split
  · rfl
  next h452 =>
  split
  · rfl
  next h0 => rw [if_pos ((h.resolve_left h452).resolve_left h0)]

section

variable (hc : c = be (m.readBytes (a + 448) 4)) (h0 : c ≠ 0)

include hc h0

/-- A count above the capacity of the store. -/
theorem parseKey_overCapacity (h : p.icMax < c) : parseKey p m a (452 + 64 * c) = .error .allocationFailed := by
  simp only [parseKey, ← hc]
  rw [if_neg (by omega), if_neg h0, if_neg (not_not.mpr rfl), if_pos h]

/-- What is left when the store has room: the points decide. -/
theorem parseKey_points (h : c ≤ p.icMax) :
    parseKey p m a (452 + 64 * c) = (parseKeyPoints p m a c).elim (.error .keyLoadFailed) .ok := by
  simp only [parseKey, ← hc]
  rw [if_neg (by omega), if_neg h0, if_neg (not_not.mpr rfl), if_neg (Nat.not_lt.mpr h)]
  cases parseKeyPoints p m a c <;> rfl

end

/-! ## VKLOAD -/

variable {addr : BitVec 15} {s : State} (hin : addr.toNat + s.len.toNat ≤ s.params.bufBytes)

include hin

theorem exec_vkload_ok {k : KeyStore} (h : parseKey s.params s.buf addr.toNat s.len.toNat = .ok k) :
    exec (.vkload addr) s = .next (completed { s with vk := k }) := by
  simp only [exec, execVkload, withRegion_inside hin, h]
  rfl

/-- A refused image empties the store (R212, R243). -/
theorem exec_vkload_error {e : Err} (h : parseKey s.params s.buf addr.toNat s.len.toNat = .error e) :
    exec (.vkload addr) s = .next (failed e { s with vk := .empty s.params.icMax }) := by
  simp only [exec, execVkload, withRegion_inside hin, h]
  rfl

end Sys2Proof.Machine
end

section
/-! SUPPORT. VERIFY (45_groth16.md R214): the inputs and their sum `vk_x`, what the command answers at each of its checks, and
the visible commands that build its product of Miller values (R216). -/

namespace Sys2Proof.Machine

/-! ## The inputs -/

/-- The inputs are the elements of BUF one after the other (R211). -/
theorem readInputs_eq_map (m : Memory) (a n : Nat) :
    readInputs m a n = (List.range n).map fun i => wireValue m (a + 32 * i) := by
  induction n generalizing a with
  | zero => rfl
  | succ n ih =>
    rw [readInputs, ih, List.range_succ_eq_map, List.map_cons, List.map_map, be_readBytes_32]
    refine congrArg _ (List.map_congr_left fun i _ => ?_)
    rw [Function.comp_apply, Nat.add_assoc, Nat.mul_succ, Nat.add_comm 32]

theorem readInputs_all_lt_iff {m : Memory} {a n b : Nat} :
    (readInputs m a n).all (fun x => decide (x < b)) = true ↔ ∀ i < n, wireValue m (a + 32 * i) < b := by
  rw [readInputs_eq_map, List.all_eq_true, List.forall_mem_map]
  simp only [List.mem_range, decide_eq_true_iff]

/-- The sum over inputs and points, by position: a missing point adds infinity. -/
theorem foldl_zip_eq_foldl_range (x : Nat → Nat) (ps : List G1Reg) (n : Nat) (v : Pt Nat) :
    (((List.range n).map x).zip ps).foldl (fun v e => ptAdd fq v (ptMul fq e.1 (g1Canon e.2))) v =
      (List.range n).foldl (fun v i => ptAdd fq v (ptMul fq (x i) (g1Canon (ps.getD i .inf)))) v := by
  induction n generalizing x ps v with
  | zero => rfl
  | succ n ih =>
    rw [List.range_succ_eq_map, List.map_cons, List.foldl_cons, List.foldl_map, List.map_map]
    cases ps with
    | nil =>
      have hrest := ih (x ∘ Nat.succ) [] v
      rw [List.zip_nil_right, List.foldl_nil] at hrest ⊢
      simpa only [List.getD_nil, g1Canon, ptMul_inf, ptAdd_inf] using hrest
    | cons w ps => exact ih (x ∘ Nat.succ) ps _

/-- `vk_x` as R214 writes it. -/
theorem vkX_eq_foldl (ic : List G1Reg) (x : Nat → Nat) (n : Nat) :
    vkX ic ((List.range n).map x) =
      (List.range n).foldl (fun v i => ptAdd fq v (ptMul fq (x i) (g1Canon (ic.getD (i + 1) .inf))))
        (g1Canon (ic.getD 0 .inf)) := by
  cases ic with
  | nil =>
    have h := foldl_zip_eq_foldl_range x [] n .inf
    rw [List.zip_nil_right] at h
    exact h
  | cons w ps => exact foldl_zip_eq_foldl_range x ps n _

/-! ## VERIFY -/

section

variable {n : BitVec 8} {addr : BitVec 15} {s : State} {A : Pt Nat} {B : TwistPt} {C : Pt Nat}
  (hin : addr.toNat + 256 + 32 * n.toNat ≤ s.params.bufBytes)

include hin

theorem exec_verify_noKey (hvk : s.vk.valid = false) :
    exec (.verify n addr) s = .next (failed .vkNotInitialized s) := by
  rw [exec, execVerify, withRegion_inside (Nat.add_assoc .. ▸ hin), hvk]
  rfl

variable (hvk : s.vk.valid = true)

include hvk

theorem exec_verify_invalidPoint
    (h : parseG1At s.buf addr.toNat = none ∨ parseG2At s.params.wireOrder s.buf (addr.toNat + 64) = none ∨
      parseG1At s.buf (addr.toNat + 192) = none) :
    exec (.verify n addr) s = .next (failed .invalidPoint s) := by
  simp only [exec, execVerify, withRegion_inside (Nat.add_assoc .. ▸ hin), hvk, if_true]
  split
  · next hA hB hC => simp [hA, hB, hC] at h
  · rfl

variable (hA : parseG1At s.buf addr.toNat = some A)
  (hB : parseG2At s.params.wireOrder s.buf (addr.toNat + 64) = some B)
  (hC : parseG1At s.buf (addr.toNat + 192) = some C)

include hA hB hC

/-- A proof of valid points: the inputs, then their number, then the points of the key decide. -/
theorem exec_verify_points : exec (.verify n addr) s =
    if ∀ i < n.toNat, wireValue s.buf (addr.toNat + 256 + 32 * i) < Config.r then
      if n.toNat + 1 = s.vk.icn then
        if s.vk.pointsValid = true then
          .next (completed { s with
            t := groth16Accepts s.vk A B C (readInputs s.buf (addr.toNat + 256) n.toNat) })
        else .refused .pairingOffSubgroup
      else .next (failed .badInputs s)
    else .next (failed .outOfRange s) := by
  simp only [exec, execVerify, withRegion_inside (Nat.add_assoc .. ▸ hin), hvk, hA, hB, hC, if_true, completeT_eq,
    raise_eq, readInputs_all_lt_iff]

/-- Where every check passes T is the answer (R214). -/
theorem exec_verify_decides (hx : ∀ i < n.toNat, wireValue s.buf (addr.toNat + 256 + 32 * i) < Config.r)
    (hn : n.toNat + 1 = s.vk.icn) (hk : s.vk.pointsValid = true) :
    exec (.verify n addr) s = .next (completed { s with
      t := groth16Accepts s.vk A B C (readInputs s.buf (addr.toNat + 256) n.toNat) }) := by
  rw [exec_verify_points hin hvk hA hB hC, if_pos hx, if_pos hn, if_pos hk]

end

/-! ## The visible commands (R216) -/

theorem G1Good.neg {P : Pt Nat} (h : G1Good P) : G1Good (ptNeg fq P) :=
  have := fact_q
  good_neg h

theorem execAll_cons {i : Instr} {is : List Instr} {s t : State} (h : exec i s = .next t) :
    execAll (i :: is) s = execAll is t := by
  rw [execAll, h]

/-- MILLER in a sequence of commands that write ACC. -/
theorem execAll_miller_of_acc {ra : Fin 8} {rb : Fin 4} {u : State} (hu : u.pointsValid) (is : List Instr) (a : AccReg) :
    execAll (.miller ra rb :: is) (completed { u with acc := a }) = execAll is (completed { u with
      acc := accWords (fq12Mul (accCanon a) (miller (u.point1 ra) (u.point2 rb))) }) := by
  obtain ⟨hg, hh, -⟩ := hu
  exact execAll_cons (exec_miller_of_acc a (hg ra) (hh rb))

/-- `f` times the Miller values of a list of register pairs, one after the other. -/
def millerProduct (u : State) (f : Fq12) (pairs : List (Fin 8 × Fin 4)) : Fq12 :=
  pairs.foldl (fun f e => fq12Mul f (miller (u.point1 e.1) (u.point2 e.2))) f

theorem canonical_millerProduct (u : State) {f : Fq12} (hf : Canonical12 f) (pairs : List (Fin 8 × Fin 4)) :
    Canonical12 (millerProduct u f pairs) := by
  induction pairs generalizing f with
  | nil => exact hf
  | cons e pairs ih => exact ih (canonical_fq12Mul _ _)

/-- MILLERs one after the other multiply their Miller values into ACC (R197). -/
theorem execAll_millers_of_acc {u : State} (hu : u.pointsValid) (is : List Instr) {f : Fq12} (hf : Canonical12 f)
    (pairs : List (Fin 8 × Fin 4)) :
    execAll (pairs.map (fun e => .miller e.1 e.2) ++ is) (completed { u with acc := accWords f }) =
      execAll is (completed { u with acc := accWords (millerProduct u f pairs) }) := by
  induction pairs generalizing f with
  | nil => rfl
  | cons e pairs ih =>
    rw [List.map_cons, List.cons_append, execAll_miller_of_acc hu, accCanon_accWords hf, ih (canonical_fq12Mul _ _)]
    rfl

/-- ACCONE, MILLERs and FEXP: T tells whether the final exponentiation of the Miller values is one. -/
theorem execAll_accone_millers_fexp {u : State} (hu : u.pointsValid) (pairs : List (Fin 8 × Fin 4)) :
    ∃ v, execAll (.accone :: (pairs.map (fun e => .miller e.1 e.2) ++ [.fexp])) u = .next v ∧ v.err = .ok ∧
      v.t = decide (finalExp (millerProduct u fq12One pairs) = fq12One) := by
  rw [execAll_cons (exec_accone u), execAll_millers_of_acc hu _ canonical_fq12One, execAll_cons (exec_fexp _)]
  refine ⟨_, rfl, rfl, ?_⟩
  rw [accCanon_accWords (canonical_millerProduct u canonical_fq12One pairs)]

theorem canonical_miller (P : Pt Nat) (Q : TwistPt) : Canonical12 (miller P Q) := by
  rcases P with _ | ⟨xP, yP⟩
  · rw [miller_of_inf (.inl rfl)]
    exact canonical_fq12One
  rcases Q with _ | ⟨xQ, yQ⟩
  · rw [miller_of_inf (.inr rfl)]
    exact canonical_fq12One
  · rw [miller_aff, millerAdd]
    exact canonical_fq12Mul _ _

/-- On registers that hold VERIFY's points the product is VERIFY's (R216). -/
theorem millerProduct_eq_groth16Product {u : State} {k : KeyStore} {A : Pt Nat} {B : TwistPt} {C : Pt Nat}
    {xs : List Nat} (hA : u.point1 0 = ptNeg fq A) (hB : u.point2 0 = B) (hal : u.g.get 1 = k.alpha)
    (hbe : u.h.get 1 = k.beta) (hx : u.point1 2 = vkX k.ic xs) (hga : u.h.get 2 = k.gamma) (hC : u.point1 3 = C)
    (hde : u.h.get 3 = k.delta) :
    millerProduct u fq12One [(0, 0), (1, 1), (2, 2), (3, 3)] = groth16Product k A B C xs := by
  simp only [millerProduct, List.foldl_cons, List.foldl_nil]
  rw [fq12Mul_comm fq12One, fq12Mul_one (canonical_miller _ _), groth16Product, hA, hB, hx, hC, State.point1, hal,
    State.point2, hbe, State.point2, hga, State.point2, hde]

end Sys2Proof.Machine
end

section
/-! SUPPORT. VKCLR, and the one word of a command (45_groth16.md R213, 46_system.md R230). -/

namespace Sys2Proof

/-- A well-formed command has one spelling (30_encoding.md R98). -/
theorem decode_eq_ok_iff {w : Reg32} {i : Instr} (h : i.wellFormed = true) : decode w = .ok i ↔ w = encode i := by
  constructor
  · intro hd
    exact (word_of_decode hd).2.1.symm
  · rintro rfl
    exact decode_encode h

end Sys2Proof

namespace Sys2Proof.Machine

theorem exec_vkclr (s : State) : exec .vkclr s = .next (completed { s with vk := .empty s.params.icMax }) := rfl

theorem exec_nop (s : State) : exec .nop s = .next (completed s) := rfl

end Sys2Proof.Machine
end

section
/-! The obligations of the Groth16 commands (45_groth16.md), and of NOP (46_system.md R230). -/

open Sys2Proof Sys2Proof.Machine

/-- Settles O40: every check passes, so the image's points are the store. -/
theorem vkloadStoresTheWholeKey : Obligations.VkloadStoresTheWholeKey := by
  intro addr s c al be ga de ic hin hL hc h1 hmax hal hbe hga hde hic
  have hlen : ((List.range c).map ic).length = c := by rw [List.length_map, List.length_range]
  have hget : ∀ i < c, ((List.range c).map ic)[i]? = some (ic i) := fun i hi => by
    rw [List.getElem?_map, List.getElem?_range hi, Option.map_some]
  have hpoints := parseKeyPoints_eq_some_iff.mpr ⟨al, be, ga, de, _, hal, hbe, hga, hde,
    parseIc_eq_some_iff.mpr ⟨hlen, fun i hi => (hic i hi).trans (hget i hi).symm⟩, rfl⟩
  have hcount := hc.trans (be_readBytes ..).symm
  have hkey := parseKey_points hcount (by omega) hmax
  rw [hpoints, Option.elim_some, ← hL] at hkey
  refine ⟨_, exec_vkload_ok hin hkey, rfl, rfl, rfl, rfl, rfl, hlen, length_loadedKey_ic (hlen.le.trans hmax),
    fun i hi => ?_, fun i hi => getElem?_loadedKey_ic_rest (hlen.le.trans hi)⟩
  rw [getElem?_loadedKey_ic (hlen.symm ▸ hi), hget i hi, Option.map_some]

/-- Settles O41: VKLOAD reports what the first failed check of the image names. -/
theorem vkloadFailureClearsTheKey : Obligations.VkloadFailureClearsTheKey := by
  intro addr s L c empty fails
  have hc : c = be (s.buf.readBytes (addr.toNat + 448) 4) := (be_readBytes ..).symm
  obtain ⟨-, -, -, -, houtside⟩ := addressesOutsideBufRaiseBadAddress s addr
  refine ⟨houtside, fun hin => ?_⟩
  have hfails {e : Err} (h : parseKey s.params s.buf addr.toNat L = .error e) : fails e := exec_vkload_error hin h
  refine ⟨fun h => hfails (parseKey_malformed hc (.inl h)), fun _ h => hfails (parseKey_malformed hc (.inr (.inl h))),
    fun _ _ h => hfails (parseKey_malformed hc (.inr (.inr h))), fun hL h0 h => hfails ?_, fun hL h0 hmax h => hfails ?_⟩
  · rw [hL, parseKey_overCapacity hc h0 h]
  · rw [hL, parseKey_points hc h0 hmax, parseKeyPoints_eq_none h, Option.elim_none]

/-- Settles O42: each check comes where the ones before it pass. -/
theorem verifyChecksInOrder : Obligations.VerifyChecksInOrder := by
  intro n addr s hin A B C x fails
  refine ⟨exec_verify_noKey hin, exec_verify_invalidPoint hin, fun hvk hA hB hC hx => ?_,
    fun hvk hA hB hC hx hn => ?_⟩
  all_goals
    obtain ⟨P, hP⟩ := Option.ne_none_iff_exists'.mp hA
    obtain ⟨Q, hQ⟩ := Option.ne_none_iff_exists'.mp hB
    obtain ⟨S, hS⟩ := Option.ne_none_iff_exists'.mp hC
    have hexec := exec_verify_points hin hvk hP hQ hS
  · obtain ⟨i, hi, hge⟩ := hx
    exact hexec.trans (if_neg fun h => absurd (h i hi) (Nat.not_lt.mpr hge))
  · exact hexec.trans ((if_pos hx).trans (if_neg hn))

/-- Settles O43: VERIFY's product of Miller values is the rule's, with `vk_x` summed by position. -/
theorem verifyDecidesThePairingEquation : Obligations.VerifyDecidesThePairingEquation := by
  intro n addr s A B C hin hvk hA hB hC hx hn hk ic vk_x m
  have hvkX : vkX s.vk.ic (readInputs s.buf (addr.toNat + 256) n.toNat) = vk_x := by
    rw [readInputs_eq_map, vkX_eq_foldl]
  refine ⟨_, exec_verify_decides hin hvk hA hB hC hx hn hk, ?_⟩
  rw [groth16Accepts_iff, groth16Product, hvkX]

/-- Settles O44: the visible commands build VERIFY's product in ACC. -/
theorem visiblePairingsReproduceVerify : Obligations.VisiblePairingsReproduceVerify := by
  intro n addr s u A B C hin hvk hk hA hB hC hx hn hu hg0 hh0 hg1 hh1 hg2 hh2 hg3 hh3
  have hP0 : u.point1 0 = ptNeg fq A := by rw [State.point1, hg0, g1Canon_g1Words (g1Good_of_parseG1 hA).neg.canon]
  have hQ0 : u.point2 0 = B := by rw [State.point2, hh0, g2Canon_g2Words (g2Good_of_parseG2 hB).canon]
  have hP3 : u.point1 3 = C := by rw [State.point1, hg3, g1Canon_g1Words (g1Good_of_parseG1 hC).canon]
  obtain ⟨v, hv, herr, ht⟩ := execAll_accone_millers_fexp hu [(0, 0), (1, 1), (2, 2), (3, 3)]
  rw [millerProduct_eq_groth16Product hP0 hQ0 hg1 hh1 hg2 hh2 hP3 hh3, ← groth16Accepts] at ht
  refine ⟨_, v, exec_verify_decides hin hvk hA hB hC hx hn hk, hv, ?_, rfl, herr⟩
  rw [ht]

/-- Settles O45: each command is read back from its one word, and the word `0x00000001` has a bit that must be zero. -/
theorem vkclrAndNop : Obligations.VkclrAndNop := by
  have hbit : decode 0x00000001#32 = .error .mustBeZero := by
    rw [decode_nop (by decide)]
    rfl
  refine ⟨fun w => decode_eq_ok_iff (i := .nop) rfl, fun w => decode_eq_ok_iff (i := .vkclr) rfl,
    fun s => ⟨_, exec_vkclr s, rfl, rfl, rfl, rfl, rfl, rfl, rfl, fun _ => List.eq_of_mem_replicate⟩, fun s h => ?_,
    exec_nop, fun s => completeStep_illegal (s := { s with cmd := 0x00000001#32 }) hbit⟩
  rw [exec_vkclr, exec_nop, ← h]

end

section
/-! SUPPORT. WIPE (46_system.md R231): what a selected part holds afterwards, and the answer of a WIPE of all five. -/

namespace Sys2Proof.Machine

/-- One register of a file that is filled with `a` where the bit is 1. -/
theorem get_ite_replicate {α : Type} {n : Nat} (on : Bool) (a : α) (v : Vector α n) (i : Fin n) :
    (if on then Vector.replicate n a else v).get i = if on then a else v.get i := by
  cases on
  · rfl
  · exact Vector.get_replicate n a i

/-- One byte of a memory that is emptied where the bit is 1. -/
theorem Memory.read_ite_nil (on : Bool) (m : Memory) (a : Nat) :
    Memory.read (if on then [] else m) a = if on then 0#8 else m.read a := by cases on <;> rfl

/-- WIPE of all five parts (R270). -/
theorem exec_wipe_all (s : State) : exec (.wipe 0x1f#5) s = .next (completed { s with
    f := (State.resetWith s.params).f
    g := (State.resetWith s.params).g
    h := (State.resetWith s.params).h
    acc := (State.resetWith s.params).acc
    buf := (State.resetWith s.params).buf }) := by
  rw [exec, execWipe_eq, State.resetWith_acc]
  rfl

end Sys2Proof.Machine
end

section
/-! The obligation of WIPE (46_system.md R231, 70_reset_and_hazards.md R270). -/

open Sys2Proof Sys2Proof.Machine

/-- Settles O46: WIPE's answer is read part by part, and VKCLR erases the one part that WIPE leaves. -/
theorem wipeErasesSelectedParts : Obligations.WipeErasesSelectedParts := by
  refine ⟨fun sel s => ⟨_, execWipe_eq sel s, get_ite_replicate _ _ _, get_ite_replicate _ _ _, get_ite_replicate _ _ _,
    ?_, Memory.read_ite_nil _ _, rfl⟩, fun s => ?_⟩
  · -- ACC: the words of the one, or what it held
    dsimp only
    split
    · exact ⟨accCanon_accWords canonical_fq12One, accReduced_accWords _⟩
    · rfl
  · rw [execAll_cons (exec_wipe_all s), execAll_cons (exec_vkclr _)]
    rfl

end

section
/-! SUPPORT. The errors a command can end with (60_exceptions.md R241, R243): what a refused VKLOAD and any other failed
command leave, and which commands raise which error. -/

namespace Sys2Proof.Machine

variable {i : Instr} {s t : State}

theorem mnemonic_eq_vkload_iff : i.mnemonic = "VKLOAD" ↔ ∃ addr, i = .vkload addr := by
  cases i <;> simp [Instr.mnemonic]

/-! ## What a failed command leaves (R243) -/

/-- A refused image has one of two errors (45_groth16.md R212). -/
theorem parseKey_error {p : Params} {m : Memory} {a L : Nat} {e : Err} (h : parseKey p m a L = .error e) :
    e = .keyLoadFailed ∨ e = .allocationFailed := by
  obtain ⟨c, hc⟩ : ∃ c, c = be (m.readBytes (a + 448) 4) := ⟨_, rfl⟩
  by_cases hshape : L < 452 ∨ c = 0 ∨ L ≠ 452 + 64 * c
  · rw [parseKey_malformed hc hshape] at h
    exact .inl (Except.error.inj h).symm
  obtain ⟨-, h0, hL⟩ := not_or.mp hshape |>.imp_right not_or.mp
  rw [not_not.mp hL] at h
  rcases Nat.lt_or_ge p.icMax c with hmax | hmax
  · rw [parseKey_overCapacity hc h0 hmax] at h
    exact .inr (Except.error.inj h).symm
  · rw [parseKey_points hc h0 hmax] at h
    cases hp : parseKeyPoints p m a c with
    | none => rw [hp] at h; exact .inl (Except.error.inj h).symm
    | some k => rw [hp] at h; cases h

/-- VKLOAD fails at its address, which leaves the store, or at the image, which empties it. -/
theorem exec_vkload_failure {addr : BitVec 15} (h : exec (.vkload addr) s = .next t) (ht : t.err ≠ .ok) :
    t = failed .badAddress s ∨
    ∃ e, (e = .keyLoadFailed ∨ e = .allocationFailed) ∧ t = failed e { s with vk := .empty s.params.icMax } := by
  obtain ⟨-, -, -, -, houtside⟩ := addressesOutsideBufRaiseBadAddress s addr
  rcases Nat.lt_or_ge s.params.bufBytes (addr.toNat + s.len.toNat) with hout | hin
  · exact .inl (Host.Outcome.next.inj (h.symm.trans (houtside hout)))
  · cases hk : parseKey s.params s.buf addr.toNat s.len.toNat with
    | ok k =>
      obtain rfl := Host.Outcome.next.inj (h.symm.trans (exec_vkload_ok hin hk))
      exact absurd rfl ht
    | error e => exact .inr ⟨e, parseKey_error hk, Host.Outcome.next.inj (h.symm.trans (exec_vkload_error hin hk))⟩

/-- Any other command that fails leaves the state before it, but for T, ERR, BUSY and DONE. -/
theorem exec_failure (h : exec i s = .next t) (ht : t.err ≠ .ok) (hi : ¬∃ addr, i = .vkload addr) :
    t = failed t.err s := by
  cases exec_completion h with
  | failure => rfl
  | keyFailure _ hm => exact absurd (mnemonic_eq_vkload_iff.mp hm) hi
  | flag | field | point1 | point2 | accumulator | key | store | wipe => exact absurd rfl ht

/-! ## The commands that raise an error (R241) -/

/-- R241's table: the commands listed for an error. `IllegalCommand` comes from a malformed word only. -/
def raisers : Err → List String
  | .ok | .illegalCommand => []
  | .outOfRange => ["FADD", "FSUB", "FNEG", "FMUL", "FSQR", "FINV", "FPOW", "FISZ", "FEQ", "LDF", "STF", "PPERM",
      "PHASH", "VERIFY"]
  | .invalidPoint => ["LDG1", "LDG2", "VERIFY"]
  | .badInputs | .vkNotInitialized => ["VERIFY"]
  | .keyLoadFailed | .allocationFailed => ["VKLOAD"]
  | .badAddress => ["LDF", "STF", "LDRAW", "STRAW", "LDG1", "STG1", "LDG2", "STG2", "G1ONC", "G1SUBG", "G2ONC",
      "G2SUBG", "VKLOAD", "VERIFY"]

/-- A result in which the command with the mnemonic `m` raises no error it is not listed for. -/
def RaisesListed (m : String) (res : Result) : Prop := ∀ t, res = .next t → t.err = .ok ∨ m ∈ raisers t.err

namespace RaisesListed

variable {m : String}

theorem complete (s : State) : RaisesListed m (complete s) := by
  rintro _ ⟨⟩
  exact .inl rfl

theorem raise {e : Err} {s : State} (h : m ∈ raisers e) : RaisesListed m (raise e s) := by
  rintro _ ⟨⟩
  exact .inr h

theorem refused (r : Refusal) : RaisesListed m (.refused r) := by
  rintro _ ⟨⟩

theorem ite {c : Prop} [Decidable c] {x y : Result} (hx : RaisesListed m x) (hy : RaisesListed m y) :
    RaisesListed m (if c then x else y) := by
  split
  · exact hx
  · exact hy

theorem withElement {fs : FieldSel} {j : Fin 16} {use : Nat → Result} (h : m ∈ raisers .outOfRange)
    (hu : ∀ v, RaisesListed m (use v)) : RaisesListed m (withElement fs j s use) :=
  .ite (hu _) (.raise h)

theorem withElements {fs : FieldSel} {j k : Fin 16} {use : Nat → Nat → Result} (h : m ∈ raisers .outOfRange)
    (hu : ∀ v w, RaisesListed m (use v w)) : RaisesListed m (withElements fs j k s use) :=
  .withElement h fun v => .withElement h (hu v)

theorem withRegion {addr : BitVec 15} {size : Nat} {use : Nat → Result} (h : m ∈ raisers .badAddress)
    (hu : ∀ a, RaisesListed m (use a)) : RaisesListed m (withRegion addr size s use) :=
  .ite (hu _) (.raise h)

end RaisesListed

/-! The rules with checks of their own. -/

theorem execPperm_raisesListed {rd ra : Fin 16} (h : (Instr.pperm rd ra).wellFormed = true) (s : State) :
    RaisesListed "PPERM" (execPperm rd ra s) := by
  have hm : "PPERM" ∈ raisers .outOfRange := by simp [raisers]
  rw [execPperm, if_pos (show (startsTriple rd && startsTriple ra) = true from h)]
  exact .withElement hm fun _ => .withElement hm fun _ => .withElement hm fun _ => .complete _

theorem execVkload_raisesListed (addr : BitVec 15) (s : State) : RaisesListed "VKLOAD" (execVkload addr s) := by
  intro t h
  refine or_iff_not_imp_left.mpr fun ht => ?_
  obtain rfl | ⟨e, rfl | rfl, rfl⟩ := exec_vkload_failure h ht <;> simp [raisers]

theorem execVerify_raisesListed (n : BitVec 8) (addr : BitVec 15) (s : State) :
    RaisesListed "VERIFY" (execVerify n addr s) :=
  .withRegion (by simp [raisers]) fun _ => by
    refine .ite ?_ (.raise (by simp [raisers]))
    split
    · exact .ite (.ite (.ite (.complete _) (.refused _)) (.raise (by simp [raisers]))) (.raise (by simp [raisers]))
    · exact .raise (by simp [raisers])

/-- No well-formed command raises an error it is not listed for. -/
theorem exec_raisesListed (hwf : i.wellFormed = true) : RaisesListed i.mnemonic (exec i s) := by
  unfold exec
  cases i with
  | nop | g1add | g2add | g1smul | g2smul | accone | fexp | vkclr | wipe => exact .complete _
  | fadd | fsub | fmul | feq | phash => exact .withElements (by simp [Instr.mnemonic, raisers]) fun _ _ => .complete _
  | fneg | fsqr | finv | fpow | fisz => exact .withElement (by simp [Instr.mnemonic, raisers]) fun _ => .complete _
  | ldraw | straw | stg1 | stg2 | g1onc | g1subg | g2onc | g2subg =>
    exact .withRegion (by simp [Instr.mnemonic, raisers]) fun _ => .complete _
  | ldf =>
    exact .withRegion (by simp [Instr.mnemonic, raisers]) fun _ =>
      .ite (.complete _) (.raise (by simp [Instr.mnemonic, raisers]))
  | stf =>
    exact .withRegion (by simp [Instr.mnemonic, raisers]) fun _ =>
      .withElement (by simp [Instr.mnemonic, raisers]) fun _ => .complete _
  | ldg1 | ldg2 =>
    refine .withRegion (by simp [Instr.mnemonic, raisers]) fun _ => ?_
    split
    · exact .complete _
    · exact .raise (by simp [Instr.mnemonic, raisers])
  | miller => exact .ite (.complete _) (.refused _)
  | pperm rd ra => exact execPperm_raisesListed hwf s
  | vkload addr => exact execVkload_raisesListed addr s
  | verify n addr => exact execVerify_raisesListed n addr s

end Sys2Proof.Machine
end

section
/-! The obligations of the errors (60_exceptions.md R241, R243). -/

open Sys2Proof Sys2Proof.Machine

/-- Settles O47: a failed command that is no VKLOAD leaves the state before it; VKLOAD's address check comes before the
store is emptied. -/
theorem errorsLeaveEverythingElse : Obligations.ErrorsLeaveEverythingElse := by
  refine ⟨fun i s t h ht => ?_, fun s e he => completeStep_illegal he⟩
  by_cases hi : ∃ addr, i = .vkload addr
  · have hi' : ¬∀ addr, i ≠ .vkload addr := not_forall_not.mpr hi
    obtain ⟨addr, rfl⟩ := hi
    obtain rfl | ⟨e, he, rfl⟩ := exec_vkload_failure h ht
    · exact ⟨fun _ hne => absurd rfl hne, fun _ => rfl⟩
    · refine ⟨fun _ _ => rfl, fun hor => ?_⟩
      obtain rfl : e = .badAddress := hor.resolve_left hi'
      exact he.elim nofun nofun
  · exact ⟨fun hv => absurd hv hi, fun _ => exec_failure h ht hi⟩

/-- Settles O48: each clause is a line of R241's table. -/
theorem errorsByCommand : Obligations.ErrorsByCommand := by
  intro i s t hwf h
  have hlisted {e : Err} (hne : e ≠ .ok) (he : t.err = e) : i.mnemonic ∈ raisers e :=
    he ▸ (exec_raisesListed hwf t h).resolve_left (he ▸ hne)
  exact ⟨hlisted nofun, hlisted nofun, List.mem_singleton.mp ∘ hlisted nofun, List.mem_singleton.mp ∘ hlisted nofun,
    List.mem_singleton.mp ∘ hlisted nofun, List.mem_singleton.mp ∘ hlisted nofun, hlisted nofun,
    List.not_mem_nil ∘ hlisted (e := .illegalCommand) nofun⟩

end

section
/-! SUPPORT. The discipline of a host (70_reset_and_hazards.md R280), run on an idle engine: the turns of its byte writes,
of its write of LEN, and of the command it issues. -/

namespace Sys2Proof.Machine

variable {s t : State} {rest : List HostEvent}

theorem core_run_succ (n : Nat) (h : step s = .next t) : core.run (n + 1) s = core.run n t := by
  simp only [Host.Core.run, show core.step s = .next t from h]

theorem core_run_one (s : State) : core.run 1 s = step s := by
  simp only [Host.Core.run, core]
  cases step s <;> rfl

theorem State.writeBufByte_idle {a : Nat} (hb : s.busy = false) (ha : a < s.params.bufBytes) (b : Byte) :
    s.writeBufByte a b = s.setBuf (s.buf.write a b) := by
  rw [State.writeBufByte, if_neg (Nat.not_le.mpr ha), if_neg (Bool.eq_false_iff.mp hb)]

/-- One byte written to BUF of an idle engine (20_memory.md R63). -/
theorem step_writeByte {a : Nat} {b : Byte} (hb : s.busy = false) (ha : a < s.params.bufBytes)
    (hmax : s.params.bufBytes ≤ 0x8000)
    (h : s.host = .write .byte (s.params.base + bufWindow + a) (b.setWidth 64) :: rest) :
    step s = .next ((s.setHost rest).setBuf (s.buf.write a b)) := by
  have hin : 0x8000 + a + BusWidth.byte.bytes ≤ 0x10000 := by rw [BusWidth.bytes]; omega
  have hbyte : BitVec.ofNat 8 (b.setWidth 64).toNat = b := by bv_omega
  rw [Nat.add_assoc] at h
  calc step s = .next ((s.setHost rest).writeAt .byte (0x8000 + a) (b.setWidth 64)) := step_writeAt h (offsetRefusal_buf hin)
    _ = .next ((s.setHost rest).writeBufByte a (BitVec.ofNat 8 (b.setWidth 64).toNat)) := by
      rw [State.writeAt_buf]; rfl
    _ = .next ((s.setHost rest).setBuf (s.buf.write a b)) := by
      rw [hbyte, State.writeBufByte_idle (s := s.setHost rest) hb ha]; rfl

/-- The turns of byte writes that lie in BUF store the bytes. -/
theorem run_writeBytesEvents {a : Nat} {bytes : List Byte} (n : Nat) (hb : s.busy = false)
    (hmax : s.params.bufBytes ≤ 0x8000) (ha : a + bytes.length ≤ s.params.bufBytes)
    (h : s.host = writeBytesEvents s.params.base a bytes ++ rest) :
    core.run (bytes.length + n) s = core.run n ((s.setHost rest).setBuf (s.buf.writeBytes a bytes)) := by
  induction bytes generalizing s a with
  | nil =>
    obtain rfl : s.host = rest := h
    rw [List.length_nil, Nat.zero_add]
    rfl
  | cons b bytes ih =>
    rw [List.length_cons] at ha
    rw [List.length_cons, Nat.add_right_comm, core_run_succ _ (step_writeByte hb (by omega) hmax h)]
    exact ih hb hmax (show a + 1 + bytes.length ≤ s.params.bufBytes by omega) rfl

/-- The host's write of a control register carries the whole word. -/
theorem step_writeReg {off : Nat} {v : Reg32} (hoff : off < 0x8000) (hal : off % 4 = 0)
    (h : s.host = writeReg s.params.base off v :: rest) : step s = .next ((s.setHost rest).writeControl off v) := by
  rw [step_write_control hoff hal h, BitVec.setWidth_setWidth_of_le v (by decide), BitVec.setWidth_eq]

/-- The turn of the write of LEN, or none. -/
theorem run_lenEvents {len : Option Reg32} (n : Nat) (hb : s.busy = false)
    (h : s.host = lenEvents s.params.base len ++ rest) :
    core.run (len.toList.length + n) s = core.run n { s with len := len.getD s.len, host := rest } := by
  cases len with
  | none =>
    obtain rfl : s.host = rest := h
    rw [Option.toList_none, List.length_nil, Nat.zero_add]
    rfl
  | some v =>
    have hstep : step s = .next ((s.setHost rest).writeLen v) := step_writeReg (by decide) (by decide) h
    rw [State.writeLen_idle (s := s.setHost rest) hb] at hstep
    rw [Option.toList_some, List.length_singleton, Nat.add_comm]
    exact core_run_succ n hstep

/-- The turns of an issue: the write of CMD starts the command, and the wait runs it. -/
theorem run_issueEvents {i : Instr} (hb : s.busy = false) (hi : i.wellFormed = true)
    (h : s.host = issueEvents s.params.base i ++ rest) :
    core.run 2 s = exec i ((s.setHost rest).issue (encode i)) := by
  have hstep : step s = .next ((s.setHost (.wait :: rest)).writeCmd (encode i)) :=
    step_writeReg (by decide) (by decide) h
  rw [State.writeCmd_idle (s := s.setHost (.wait :: rest)) hb] at hstep
  rw [core_run_succ 1 hstep, core_run_one, step_wait_busy rfl rfl]
  exact completeStep_decoded (decode_encode hi)

/-- The discipline of R280: write the bytes, write LEN or not, write CMD, wait. -/
theorem run_discipline {a : Nat} {bytes : List Byte} {len : Option Reg32} {i : Instr} (hb : s.busy = false)
    (hi : i.wellFormed = true) (hp : s.params.Wf) (ha : a + bytes.length ≤ s.params.bufBytes)
    (h : s.host = writeBytesEvents s.params.base a bytes ++ lenEvents s.params.base len ++ issueEvents s.params.base i ++
      rest) :
    core.run (bytes.length + len.toList.length + 2) s =
      exec i { s with buf := s.buf.writeBytes a bytes, len := len.getD s.len, cmd := encode i, busy := true
                      done := false, host := rest } := by
  obtain ⟨-, -, hmax, -⟩ := hp
  rw [List.append_assoc, List.append_assoc] at h
  rw [Nat.add_assoc]
  exact (run_writeBytesEvents _ hb hmax ha h).trans
    ((run_lenEvents 2 (by exact hb) rfl).trans (run_issueEvents (by exact hb) hi rfl))

end Sys2Proof.Machine
end

section
/-! The obligations of reset and of the host's discipline (70_reset_and_hazards.md R270 to R283). -/

open Sys2Proof Sys2Proof.Machine

/-- Settles O8: the word in CMD at reset is NOP's, and the reset state is busy, so a write of CMD or LEN overruns. -/
theorem resetAndInitialisation : Obligations.ResetAndInitialisation :=
  ⟨fun p => completeStep_decoded (s := .resetWith p) (decode_encode (i := .nop) rfl),
    fun p v => ⟨(State.resetWith p).writeCmd_busy rfl v, (State.resetWith p).writeLen_busy rfl v⟩,
    fun _ _ h => step_reset h⟩

/-- Settles O59: the turns of the discipline one after the other; VKLOAD's is the one that writes LEN. -/
theorem disciplineRunsTheCommand : Obligations.DisciplineRunsTheCommand :=
  ⟨fun _ _ _ _ _ _ hb hi hp ha h => run_discipline hb hi hp ha h,
    fun _ _ image _ hb hp ha h => run_discipline (len := some (BitVec.ofNat 32 image.length)) hb rfl hp ha h⟩

end
